-- ==== Sys2Proof/Config.lean ====
section
/-! DEFINITION. The named parameters of spec/00_scope.md rule R5. Every width, size and bound of the model is one of these
names, so that a different choice of `SYM_W` or of `CNT_W` changes one line here; Sys2Proof/Tests/Slice0.lean holds the
values against R5's table. `CMD_LAT`, `BUILD_LAT` and `RESET_LAT` are open and no rule depends on them (R138): the model
omits them (log entry 1). The spec leaves no value of an instruction open, so there is no free value here. -/

namespace Sys2Proof

/-- `SYM_W` = 8: bits in a symbol (R5). -/
abbrev Config.symW : Nat := 8

/-- `NSYM` = 2^SYM_W = 256: possible symbols, and entries of `FT` and `CT` (R5). -/
abbrev Config.nsym : Nat := 2 ^ Config.symW

/-- `CNT_W` = 32: bits in a frequency count (R5). -/
abbrev Config.cntW : Nat := 32

/-- `WGT_W` = CNT_W + SYM_W = 40: bits in a node weight (R5). -/
abbrev Config.wgtW : Nat := Config.cntW + Config.symW

/-- `LEN_W` = 8: bits in a code length, 0 to 255 (R5): as many as a symbol has, since no length exceeds `NSYM` - 1. -/
abbrev Config.lenW : Nat := Config.symW

/-- `CODE_W` = NSYM - 1 = 255: bits in a stored code (R5). -/
abbrev Config.codeW : Nat := Config.nsym - 1

/-- `NNODE` = 2*NSYM - 1 = 511: entries in the node store (R5). -/
abbrev Config.nnode : Nat := 2 * Config.nsym - 1

/-- `NIDX_W` = 9: bits in a node index, 0 to 510, and in the counts 0 to 256 (R5): one more than a symbol has. -/
abbrev Config.nidxW : Nat := Config.symW + 1

/-- `NHEAP` = NSYM = 256: entries in the heap array (R5). -/
abbrev Config.nheap : Nat := Config.nsym

/-- Bits in the data field of a command and in the data of a response, 32: exactly a count (R45, R46, R54). R5 does not
name this width. -/
abbrev Config.dataW : Nat := Config.cntW

/-- `CMD_W` = 48: bits in a command word (R5): 8 of opcode, a symbol, a data field (R45). -/
abbrev Config.cmdW : Nat := 8 + Config.symW + Config.dataW

/-- `RSP_W` = 40: bits in a response word (R5): 8 of status, then the data (R54). -/
abbrev Config.rspW : Nat := 8 + Config.dataW

/-- `CHUNK_W` = 32: bits returned per `RDC` read (R5): all of the response's data. -/
abbrev Config.chunkW : Nat := Config.dataW

/-- Bits in the chunk index of `RDC`, 3 (R46). R5 does not name this width. -/
abbrev Config.chunkIdxW : Nat := 3

/-- The 8 chunks that cover a code (R5, R36). -/
abbrev Config.nchunk : Nat := 2 ^ Config.chunkIdxW

/-- The largest count, 2^CNT_W - 1 = 0xFFFFFFFF, at which `INCF` raises `E_CNTOVF` (R64). -/
abbrev Config.maxCount : BitVec Config.cntW := BitVec.allOnes Config.cntW

end Sys2Proof
end

