-- ==== Sys2Proof/Word.lean ====
section
/-! DEFINITION. The word types of the HTB: one abbreviation per width of spec/00_scope.md rule R5, each by its name in
Sys2Proof/Config.lean. All quantities are
unsigned (R7). Bit 0 is the least significant bit of every word (R7). -/

namespace Sys2Proof

/-- A symbol, `SYM_W` = 8 bits (R5): the index of `FT` and of `CT` (R30). -/
abbrev Sym := BitVec Config.symW

/-- A frequency count, `CNT_W` = 32 bits (R5). -/
abbrev Count := BitVec Config.cntW

/-- A node weight, `WGT_W` = 40 bits (R5). -/
abbrev Weight := BitVec Config.wgtW

/-- A code length, `LEN_W` = 8 bits (R5). -/
abbrev Len := BitVec Config.lenW

/-- Stored code bits, `CODE_W` = 255 bits (R5, R16). -/
abbrev Code := BitVec Config.codeW

/-- A node index, `NIDX_W` = 9 bits (R5); also the width of `HSIZE`, `NNEXT`, `FTN`, `CTN`. -/
abbrev NIdx := BitVec Config.nidxW

/-- A command word, `CMD_W` = 48 bits (R45). -/
abbrev Cmd := BitVec Config.cmdW

/-- A response word, `RSP_W` = 40 bits (R54). -/
abbrev Rsp := BitVec Config.rspW

/-- The data part of a command or response, and one chunk of a code: 32 bits (R45, R54, R36). -/
abbrev Data := BitVec Config.dataW

/-- A chunk index of `RDC`, 3 bits, 0 to 7 (R36, R46). -/
abbrev ChunkIdx := BitVec Config.chunkIdxW

end Sys2Proof
end

