-- ==== Sys2Proof/Syntax.lean ====
section
/-! DEFINITION. The nine commands of spec/30_encoding.md rule R48, one constructor per row of the opcode table. Operands
are exactly as wide as their fields (R46, R47), so no value of `Instr` is out of range (R31); the checks on what a host
writes stand in Sys2Proof/WellFormed.lean. -/

namespace Sys2Proof

/-- A legal command (R48). -/
inductive Instr where
  /-- `INIT`: soft reset (R61). -/
  | init
  /-- `CLRF`: clear the frequency table (R62). -/
  | clrf
  /-- `SETF s, c`: set one frequency (R63). -/
  | setf (s : Sym) (c : Count)
  /-- `INCF s`: count one occurrence (R64). -/
  | incf (s : Sym)
  /-- `BUILD`: build the Huffman code of the loaded table (R71). -/
  | build
  /-- `RDF s`: read a frequency (R96). -/
  | rdf (s : Sym)
  /-- `RDL s`: read a code length and the valid bit (R97). -/
  | rdl (s : Sym)
  /-- `RDC s, k`: read 32 bits of a code (R98). -/
  | rdc (s : Sym) (k : ChunkIdx)
  /-- `RDST`: read the status word (R99). -/
  | rdst
  deriving DecidableEq, Repr

end Sys2Proof
end

