-- ==== Sys2Proof/WellFormed.lean ====
section
/-! DEFINITION. What a host may write: one line of the assembler notation of spec/30_encoding.md rules R58 and R59, as a
term, and the check the assembler makes of it ("The assembler rejects operands out of range"). A term of `Instr` needs no
check: its operands are as wide as their fields (R31). -/

namespace Sys2Proof

/-- A symbol operand of the notation (R58): a number, or a character literal in single quotes, "meaning its ASCII byte". -/
inductive SymArg where
  | num (n : Nat)
  | chr (c : Char)
  deriving DecidableEq, Repr

/-- One line of the notation: a mnemonic with its operands, a literal word, or a pseudo-instruction (R58, R59). -/
inductive AsmLine where
  | init
  | clrf
  | setf (s : SymArg) (c : Nat)
  | incf (s : SymArg)
  | build
  | rdf (s : SymArg)
  | rdl (s : SymArg)
  | rdc (s : SymArg) (k : Nat)
  | rdst
  /-- `.word 0x............`, 12 hexadecimal digits. -/
  | word (w : Nat)
  /-- `COUNT "text"`, the text as its bytes. -/
  | count (text : List Sym)
  /-- `RDCODE s`. -/
  | rdcode (s : SymArg)
  deriving DecidableEq, Repr

/-- The number a symbol operand stands for. -/
def SymArg.value : SymArg → Nat
  | .num n => n
  | .chr c => c.toNat

/-- A number operand is 0 to 255; a character literal is an ASCII character (R58, G5). -/
def SymArg.wellFormed : SymArg → Bool
  | .num n => decide (n < Config.nsym)
  | .chr c => decide (c.toNat < 128)

/-- Operands in range (R58): `s` 0 to 255, `c` 0 to 4294967295, `k` 0 to 7, a literal word of 12 hexadecimal digits. -/
def AsmLine.wellFormed : AsmLine → Bool
  | .init => true
  | .clrf => true
  | .setf s c => s.wellFormed && decide (c < 2 ^ Config.cntW)
  | .incf s => s.wellFormed
  | .build => true
  | .rdf s => s.wellFormed
  | .rdl s => s.wellFormed
  | .rdc s k => s.wellFormed && decide (k < Config.nchunk)
  | .rdst => true
  | .word w => decide (w < 2 ^ Config.cmdW)
  | .count _ => true
  | .rdcode s => s.wellFormed

end Sys2Proof
end

