-- ==== Sys2Proof/Decode.lean ====
section
/-! DEFINITION. The command word (spec/30_encoding.md R45 to R53): its fields, the decoder (total on 48-bit words, an
illegal word rejected by name), the encoder, the opcode table of R49, the response word (R54), and the assembler's
expansion of a line into command words (R58, R59). -/

namespace Sys2Proof

/-- The opcode field, bits 47:40 (R45). -/
def Cmd.op (w : Cmd) : BitVec 8 := w.extractLsb' (Config.symW + Config.dataW) 8

/-- The symbol field, bits 39:32 (R45). -/
def Cmd.sym (w : Cmd) : Sym := w.extractLsb' Config.dataW Config.symW

/-- The data field, bits 31:0 (R45). -/
def Cmd.data (w : Cmd) : Data := w.extractLsb' 0 Config.dataW

/-- The chunk index of format `SK`, bits 2:0 (R46, R47). -/
def Cmd.chunk (w : Cmd) : ChunkIdx := w.extractLsb' 0 Config.chunkIdxW

/-- The reserved bits of `data` in format `SK`, bits 31:3 (R46). -/
def Cmd.dataHigh (w : Cmd) : BitVec (Config.dataW - Config.chunkIdxW) :=
  w.extractLsb' Config.chunkIdxW (Config.dataW - Config.chunkIdxW)

/-- `cmd = (op, sym, data)`, most significant first (R45). -/
def Cmd.make (op : BitVec 8) (sym : Sym) (data : Data) : Cmd := op ++ sym ++ data

/-- Why a word is illegal (R52). -/
inductive Illegal where
  /-- R52 (a): `op` is none of the nine opcodes. -/
  | undefinedOpcode
  /-- R52 (b): a defined opcode with a non-zero reserved field (R51). -/
  | reservedNonzero
  deriving DecidableEq, Repr

/-- Format `N`: `sym` and `data` reserved (R46, R51). -/
def decodeN (w : Cmd) (i : Instr) : Except Illegal Instr :=
  if w.sym = 0 ∧ w.data = 0 then .ok i else .error .reservedNonzero

/-- Format `S`: `data` reserved (R46, R51). -/
def decodeS (w : Cmd) (i : Instr) : Except Illegal Instr :=
  if w.data = 0 then .ok i else .error .reservedNonzero

/-- Format `SK`: `data[31:3]` reserved (R46, R51). -/
def decodeSK (w : Cmd) (i : Instr) : Except Illegal Instr :=
  if w.dataHigh = 0 then .ok i else .error .reservedNonzero

/-- The decoder (R48, R50 to R52): a function of the word alone. -/
def decode (w : Cmd) : Except Illegal Instr :=
  if w.op = 0x01#8 then decodeN w .init
  else if w.op = 0x02#8 then decodeN w .clrf
  else if w.op = 0x03#8 then .ok (.setf w.sym w.data)
  else if w.op = 0x04#8 then decodeS w (.incf w.sym)
  else if w.op = 0x08#8 then decodeN w .build
  else if w.op = 0x10#8 then decodeS w (.rdf w.sym)
  else if w.op = 0x11#8 then decodeS w (.rdl w.sym)
  else if w.op = 0x12#8 then decodeSK w (.rdc w.sym w.chunk)
  else if w.op = 0x13#8 then decodeN w .rdst
  else .error .undefinedOpcode

/-- The encoder, from the same table (R46, R48): reserved fields zero. -/
def encode : Instr → Cmd
  | .init => Cmd.make 0x01 0 0
  | .clrf => Cmd.make 0x02 0 0
  | .setf s c => Cmd.make 0x03 s c
  | .incf s => Cmd.make 0x04 s 0
  | .build => Cmd.make 0x08 0 0
  | .rdf s => Cmd.make 0x10 s 0
  | .rdl s => Cmd.make 0x11 s 0
  | .rdc s k => Cmd.make 0x12 s (k.zeroExtend Config.dataW)
  | .rdst => Cmd.make 0x13 0 0

/-- The mnemonic of a command (R48). -/
def Instr.mnemonic : Instr → String
  | .init => "INIT"
  | .clrf => "CLRF"
  | .setf _ _ => "SETF"
  | .incf _ => "INCF"
  | .build => "BUILD"
  | .rdf _ => "RDF"
  | .rdl _ => "RDL"
  | .rdc _ _ => "RDC"
  | .rdst => "RDST"

/-- One row of the match and mask table (R49). -/
structure OpcodeRow where
  mnemonic : String
  mtch : Cmd
  mask : Cmd
  deriving DecidableEq, Repr

/-- The table of R49, transcribed. -/
def opcodeTable : List OpcodeRow :=
  [ ⟨"INIT", 0x010000000000, 0xFFFFFFFFFFFF⟩,
    ⟨"CLRF", 0x020000000000, 0xFFFFFFFFFFFF⟩,
    ⟨"SETF", 0x030000000000, 0xFF0000000000⟩,
    ⟨"INCF", 0x040000000000, 0xFF00FFFFFFFF⟩,
    ⟨"BUILD", 0x080000000000, 0xFFFFFFFFFFFF⟩,
    ⟨"RDF", 0x100000000000, 0xFF00FFFFFFFF⟩,
    ⟨"RDL", 0x110000000000, 0xFF00FFFFFFFF⟩,
    ⟨"RDC", 0x120000000000, 0xFF00FFFFFFF8⟩,
    ⟨"RDST", 0x130000000000, 0xFFFFFFFFFFFF⟩ ]

/-- The word is the row's command: `(W AND mask) = match` (R49). -/
abbrev OpcodeRow.hits (r : OpcodeRow) (w : Cmd) : Prop := w &&& r.mask = r.mtch

/-- What the decoder reads from a word given as a number of `nbits` bits, bit 0 the least significant: the HTB has one
word of 48 bits per command (R45), and bits above `nbits` are 0 (log entry 18). -/
def decodeTableWord (nbits w : Nat) : Option Instr :=
  if w % 2 ^ nbits < 2 ^ Config.cmdW then
    match decode (BitVec.ofNat Config.cmdW (w % 2 ^ nbits)) with
    | .ok i => some i
    | .error _ => none
  else none

/-- The response word `rsp = (status, rdata)`, most significant first (R54). -/
def Rsp.make (status : BitVec 8) (rdata : Data) : Rsp := status ++ rdata

/-- The status field, bits 39:32 (R54). -/
def Rsp.status (r : Rsp) : BitVec 8 := r.extractLsb' Config.dataW 8

/-- The rdata field, bits 31:0 (R54). -/
def Rsp.rdata (r : Rsp) : Data := r.extractLsb' 0 Config.dataW

/-- A symbol operand as the 8-bit field (R58). -/
def SymArg.toSym (a : SymArg) : Sym := BitVec.ofNat Config.symW a.value

/-- `COUNT "text"`: `INCF b` for each byte, first to last (R59). -/
def pseudoCount (text : List Sym) : List Instr := text.map .incf

/-- `RDCODE s`: `RDL s`, then `RDC s, 0` to `RDC s, 7` (R59). -/
def pseudoRdcode (s : Sym) : List Instr :=
  .rdl s :: (List.range Config.nchunk).map (fun k => .rdc s (BitVec.ofNat Config.chunkIdxW k))

/-- The words of a well-formed line, in the order shown by R59; nothing for a line the assembler rejects (R58). -/
def assemble (l : AsmLine) : Option (List Cmd) :=
  if l.wellFormed then
    some (match l with
      | .init => [encode .init]
      | .clrf => [encode .clrf]
      | .setf s c => [encode (.setf s.toSym (BitVec.ofNat Config.cntW c))]
      | .incf s => [encode (.incf s.toSym)]
      | .build => [encode .build]
      | .rdf s => [encode (.rdf s.toSym)]
      | .rdl s => [encode (.rdl s.toSym)]
      | .rdc s k => [encode (.rdc s.toSym (BitVec.ofNat Config.chunkIdxW k))]
      | .rdst => [encode .rdst]
      | .word w => [BitVec.ofNat Config.cmdW w]
      | .count text => (pseudoCount text).map encode
      | .rdcode s => (pseudoRdcode s.toSym).map encode)
  else none

end Sys2Proof
end

