-- ==== Sys2Proof/Machine/State.lean ====
section
/-! DEFINITION. The state of the HTB as plain data (spec/10_state.md), the reasons a step can stop, and the state right
after reset (R24). Three classes, as R12 lists them: architectural (`ft`, `ct`, `err`), working (`work`), interface
(`busy`, `rspreg`); the last three fields are the model's own and hold what the world outside drives or has received
(log entries 2, 6, 14). -/

namespace Sys2Proof.Machine

/-- One entry of the code table (R15, R16): valid bit, code length, code bits right-aligned. -/
structure CtEntry where
  v : Bool
  len : Len
  code : Code
  deriving DecidableEq, Repr

/-- An absent entry `(0, 0, 0)` (R24, R87). -/
def CtEntry.absent : CtEntry := ⟨false, 0, 0⟩

/-- The four sticky error flags (R18). -/
structure ErrFlags where
  empty : Bool
  illegal : Bool
  cntovf : Bool
  noent : Bool
  deriving DecidableEq, Repr

/-- All flags clear (R24, R61). -/
def ErrFlags.clear : ErrFlags := ⟨false, false, false, false⟩

/-- One entry of the node store (R20). -/
structure Node where
  w : Weight
  tag : Sym
  leaf : Bool
  sym : Sym
  left : NIdx
  right : NIdx
  parent : NIdx
  pbit : Bool
  deriving DecidableEq, Repr

/-- The node the model names for reset, where the spec gives none (log entry 3, DESIGN CHOICE). -/
def Node.zero : Node := ⟨0, 0, false, 0, 0, 0, 0, false⟩

/-- The phase of the build sequencer (R22, R73). -/
inductive Phase where
  | idle
  | scan
  | merge
  | extract
  | finish
  deriving DecidableEq, Repr

/-- The working state of the build (R12, R20, R21, R22). -/
structure Working where
  node : Vector Node Config.nnode
  heap : Vector NIdx Config.nheap
  hsize : NIdx
  nnext : NIdx
  phase : Phase
  deriving DecidableEq, Repr

/-- The input pins at one rising clock edge (R56). -/
structure PortIn where
  rst : Bool
  cmdValid : Bool
  cmd : Cmd
  rspReady : Bool
  deriving DecidableEq, Repr

/-- The output pins (R56): `rsp` is `some r` exactly when `rsp_valid = 1` with `r` on `rsp`; the spec gives the pins of
`rsp` no value otherwise (log entry 8, DESIGN CHOICE). -/
structure PortOut where
  cmdReady : Bool
  rsp : Option Rsp
  busy : Bool
  deriving DecidableEq, Repr

/-- The frequency table `FT` (R13). -/
abbrev FreqTable := Vector Count Config.nsym

/-- The code table `CT` (R15). -/
abbrev CodeTable := Vector CtEntry Config.nsym

/-- The state of the HTB and of its ports (R12). -/
structure State where
  /-- `FT`, frequency table (R13). -/
  ft : FreqTable
  /-- `CT`, code table (R15). -/
  ct : CodeTable
  /-- `ERR`, sticky flags (R18). -/
  err : ErrFlags
  /-- `NODE`, `HEAP`, `HSIZE`, `NNEXT`, `PHASE` (R20 to R22). -/
  work : Working
  /-- `BUSY` (R22). -/
  busy : Bool
  /-- `RSPREG` with its valid bit (R22). -/
  rspreg : Option Rsp
  /-- The model's own: the command presented at the last edge and not accepted there (R57 (c), log entry 6). -/
  held : Option Cmd
  /-- The model's own: the input pins at the coming clock edges, oldest first (log entries 1 and 2). -/
  inputs : List PortIn
  /-- The model's own: the responses the host has taken, oldest first (R57 (e), log entry 14). -/
  taken : List Rsp
  deriving DecidableEq, Repr

/-- Reasons a step stops with a fault. There are NONE: every error of the HTB is a response after which the block goes on
(R107, R108), and a host that never takes its response leaves the block waiting, which is a next state (U8). -/
inductive Fault where
  deriving DecidableEq, Repr

/-- Reasons a step is refused. -/
inductive Refusal where
  /-- Raised by an arm of `exec` for a command without a meaning: no arm does. Safe. -/
  | notModelled (mnemonic : String)
  /-- Raised by `clockEdge` when the host changes `cmd` or drops `cmd_valid` while it waits for `cmd_ready` (R57 (c)): "a
  model should refuse such a host rather than assign a behaviour" (R113, U3). Safe: the model stops where the spec defines
  nothing (log entry 6). -/
  | handshakeBroken
  deriving DecidableEq, Repr

/-- The working state at reset: `PHASE` is IDLE (R24); the stores are unspecified there and 0 here (log entry 3). -/
def Working.reset : Working :=
  { node := Vector.replicate Config.nnode Node.zero
    heap := Vector.replicate Config.nheap 0
    hsize := 0
    nnext := 0
    phase := .idle }

/-- The machine right after reset (R24), with no input waiting (log entry 2) and nothing taken. -/
def State.reset : State :=
  { ft := Vector.replicate Config.nsym 0
    ct := Vector.replicate Config.nsym CtEntry.absent
    err := ErrFlags.clear
    work := Working.reset
    busy := false
    rspreg := none
    held := none
    inputs := []
    taken := [] }

end Sys2Proof.Machine
end

