-- ==== Sys2Proof/Machine/Operands.lean ====
section
/-! DEFINITION. Operand and result forms: access to the two tables by symbol (spec/20_memory.md R30, R31), the stored form
of a bit-string (spec/10_state.md R16), the chunks of a code (R36), the data word of `RDL` (spec/42_readout.md R97), and the
key order both levels of the build share (spec/41_build.md R74). -/

namespace Sys2Proof.Machine

/-- Entry `s` of a table: every symbol indexes an existing entry (R31). -/
def tableGet {α : Type} (t : Vector α Config.nsym) (s : Sym) : α := t[s.toNat]'s.isLt

/-- The table with entry `s` replaced: one whole entry is written (R32). -/
def tableSet {α : Type} (t : Vector α Config.nsym) (s : Sym) (x : α) : Vector α Config.nsym := t.set s.toNat x s.isLt

/-- All symbols in ascending order: the range of a loop `for s in 0..255` (R7). -/
def allSyms : List Sym := (List.range Config.nsym).map (BitVec.ofNat Config.symW)

/-- The entries of a table in ascending symbol order, each with its symbol: what a loop `for s in 0..255` over the table
reads (R7). -/
def entries {α : Type} (t : Vector α Config.nsym) : List (Sym × α) := allSyms.zip t.toList

/-- The symbols, ascending, whose entry passes a test. -/
def symsWhere {α : Type} (q : α → Bool) (t : Vector α Config.nsym) : List Sym :=
  ((entries t).filter (fun p => q p.2)).map Prod.fst

/-- The symbols present in a frequency table, ascending: those with a non-zero count (R13). -/
def present (f : FreqTable) : List Sym := symsWhere (fun c => decide (c ≠ 0)) f

/-- The symbols that have a code, ascending (R15). -/
def coded (c : CodeTable) : List Sym := symsWhere CtEntry.v c

/-- `val(t)`: the number whose binary digits, most significant first, are `t` (R7). -/
def strVal (t : List Bool) : Nat := t.foldl (fun n b => 2 * n + b.toNat) 0

/-- `str(len, code)` = `code[len-1], ..., code[0]` (R7, R16). -/
def strOf (len : Nat) (code : Code) : List Bool :=
  (List.range len).map (fun j => code.getLsbD (len - 1 - j))

/-- The stored form of a bit-string in a valid entry: `len = |t|`, `code = val(t)` zero-extended (R16, R83). -/
def CtEntry.ofString (t : List Bool) : CtEntry :=
  ⟨true, BitVec.ofNat Config.lenW t.length, BitVec.ofNat Config.codeW (strVal t)⟩

/-- The bit-string an entry stores (R16). -/
def CtEntry.str (e : CtEntry) : List Bool := strOf e.len.toNat e.code

/-- Chunk `k` of a stored code: bits `32k+31` to `32k` of the 256-bit zero-extended code (R36). -/
def codeChunk (c : Code) (k : ChunkIdx) : Data :=
  (c.zeroExtend (Config.nchunk * Config.chunkW)).extractLsb' (Config.chunkW * k.toNat) Config.chunkW

/-- The data word of `RDL`: 23 zero bits, `v`, `len` (R97). -/
def lengthWord (e : CtEntry) : Data := (BitVec.ofBool e.v ++ e.len).zeroExtend Config.dataW

/-- The smaller of two symbols, unsigned (R74, R78). -/
def minSym (a b : Sym) : Sym := if b < a then b else a

/-- A key, the priority of a node in the queue (R74). -/
structure Key where
  weight : Nat
  tag : Sym
  deriving DecidableEq, Repr

/-- The key order: lexicographic on weight and tag, unsigned (R74). -/
def Key.lt (a b : Key) : Bool :=
  decide (a.weight < b.weight) || (decide (a.weight = b.weight) && decide (a.tag < b.tag))

end Sys2Proof.Machine
end

