-- ==== Sys2Proof/Machine/Flags.lean ====
section
/-! DEFINITION. The error codes and sticky flags (spec/30_encoding.md R55, spec/60_exceptions.md R105, spec/10_state.md
R18), the derived counts `FTN` and `CTN` (R14, R17), and the `STATUS` word (R19). -/

namespace Sys2Proof.Machine

/-- The four errors (R105). -/
inductive ErrCode where
  | empty
  | illegal
  | cntovf
  | noent
  deriving DecidableEq, Repr

/-- The status code of a response that completes, `OK` (R55). -/
def statusOk : BitVec 8 := 0x00

/-- The status code of an error (R55). -/
def errStatus : ErrCode → BitVec 8
  | .empty => 0x01
  | .illegal => 0x02
  | .cntovf => 0x03
  | .noent => 0x04

/-- The flags with the sticky flag of an error set (R18, R55). -/
def ErrFlags.setFlag (f : ErrFlags) : ErrCode → ErrFlags
  | .empty => { f with empty := true }
  | .illegal => { f with illegal := true }
  | .cntovf => { f with cntovf := true }
  | .noent => { f with noent := true }

/-- The sticky flag of an error (R18, R55). -/
def ErrFlags.flag (f : ErrFlags) : ErrCode → Bool
  | .empty => f.empty
  | .illegal => f.illegal
  | .cntovf => f.cntovf
  | .noent => f.noent

/-- `FTN`, the number of non-zero frequency-table entries (R14). -/
def ftnOf (f : FreqTable) : Nat := (present f).length

/-- `CTN`, the number of valid code-table entries (R17). -/
def ctnOf (c : CodeTable) : Nat := (coded c).length

/-- The `STATUS` word: NOENT, CNTOVF, ILLEGAL, EMPTY, 3 zeros, FTN[8:0], 7 zeros, CTN[8:0] (R19): 4 + 12 + 16 bits, where
each count is zero-extended to its 12 or 16. -/
def statusWord (c : CodeTable) (f : FreqTable) (e : ErrFlags) : Data :=
  (BitVec.ofBool e.noent ++ BitVec.ofBool e.cntovf ++ BitVec.ofBool e.illegal ++ BitVec.ofBool e.empty ++
    0#(12 - Config.nidxW) ++ BitVec.ofNat Config.nidxW (ftnOf f) ++ 0#(16 - Config.nidxW) ++
    BitVec.ofNat Config.nidxW (ctnOf c)).zeroExtend Config.dataW

end Sys2Proof.Machine
end

