-- ==== Sys2Proof/Machine/Ops.lean ====
section
/-! DEFINITION. The named operations on the state: table writes and clears, the two ways a command ends (`respond` and
`raise`, spec/00_scope.md R7), which is what taking an exception is on the HTB (spec/60_exceptions.md R108: there is no
handler to go to and nothing to return from, R110), and hardware reset (spec/70_reset_and_hazards.md R125). -/

namespace Sys2Proof.Machine

/-- `FT[s] <- c` (R63). -/
def State.writeFt (s : State) (x : Sym) (c : Count) : State := { s with ft := tableSet s.ft x c }

/-- `for s in 0..255: FT[s] <- 0` (R61, R62, R88). -/
def State.clearFt (s : State) : State := { s with ft := Vector.replicate Config.nsym 0 }

/-- `for s in 0..255: CT[s] <- (0, 0, 0)` (R61, R87). -/
def State.clearCt (s : State) : State := { s with ct := Vector.replicate Config.nsym CtEntry.absent }

/-- All four flags cleared (R61). -/
def State.clearErr (s : State) : State := { s with err := ErrFlags.clear }

/-- The working stores replaced. -/
def State.setWork (s : State) (w : Working) : State := { s with work := w }

/-- `respond(OK, d)` (R7): the response word `(0x00, d)` waits to be taken. -/
def State.respond (s : State) (d : Data) : State := { s with rspreg := some (Rsp.make statusOk d) }

/-- `raise E_X` (R7, R108): the sticky flag is set, the response is `(code, 0)`, no other state changes. -/
def State.raise (s : State) (e : ErrCode) : State :=
  { s with err := s.err.setFlag e, rspreg := some (Rsp.make (errStatus e) 0) }

/-- `FTN` (R14). -/
def State.ftn (s : State) : Nat := ftnOf s.ft

/-- `CTN` (R17). -/
def State.ctn (s : State) : Nat := ctnOf s.ct

/-- `STATUS`, a view of other state (R19). -/
def State.status (s : State) : Data := statusWord s.ct s.ft s.err

/-- Hardware reset (R125, R127): the block is as after reset and any command in flight is gone without a response. The
samples still to come and the responses already taken are the host's and stay; the host starts anew (log entry 6). The
working stores, unspecified there, are as `State.reset` names them (log entry 3). -/
def State.hardReset (s : State) : State := { State.reset with inputs := s.inputs, taken := s.taken }

/-- Acceptance of a command: `BUSY` becomes 1 and the host is no longer waiting (R57 (a), (d)). -/
def State.accept (s : State) : State := { s with busy := true, held := none }

/-- The response is taken at an edge with `rsp_valid = rsp_ready = 1`: `rsp_valid` and `BUSY` return to 0 (R57 (e));
otherwise it is held unchanged (R57 (d), U8). -/
def State.takeResponse (s : State) (rspReady : Bool) : State :=
  match rspReady, s.rspreg with
  | true, some r => { s with rspreg := none, busy := false, taken := s.taken ++ [r] }
  | _, _ => s

/-- What the host presents and the block has not accepted: it must hold it (R57 (c)). -/
def State.holdCommand (s : State) (p : PortIn) : State :=
  { s with held := if p.cmdValid then some p.cmd else none }

/-- The host breaks the handshake: it waits for `cmd_ready` and drops `cmd_valid` or changes `cmd` (R57 (c), R113). -/
def State.handshakeBrokenBy (s : State) (p : PortIn) : Bool :=
  match s.held with
  | none => false
  | some c => !(p.cmdValid && decide (p.cmd = c))

/-- The output pins (R56, R57 (b), R22), all low while `rst = 1` (R125). -/
def State.pins (s : State) (rst : Bool) : PortOut :=
  if rst then ⟨false, none, false⟩ else ⟨!s.busy, s.rspreg, s.busy⟩

end Sys2Proof.Machine
end

