-- ==== Sys2Proof/Machine/Sequencer.lean ====
section
/-! DEFINITION. The hardware level of the build (spec/41_build.md): heap insert and extract (R76, R77), merge (R78), the
upward walk (R81), and the sequencer that runs them phase by phase (R73). Every loop carries the bound the spec states for
it (R80, R139; log entry 10). -/

namespace Sys2Proof.Machine

/-- `NODE[i]`. Index 511 names no entry and no rule reads it; it reads as the zero node (log entry 9). -/
def Working.nodeAt (w : Working) (i : NIdx) : Node := w.node[i.toNat]?.getD Node.zero

/-- `NODE[i] <- n`; nothing where no entry exists (log entry 9). -/
def Working.setNode (w : Working) (i : NIdx) (n : Node) : Working := { w with node := w.node.setIfInBounds i.toNat n }

/-- `HEAP[p]`; a position of 256 or more does not exist and reads 0 (log entry 9). -/
def Working.heapAt (w : Working) (p : Nat) : NIdx := w.heap[p]?.getD 0

/-- `HEAP[p] <- i` (log entry 9). -/
def Working.setHeap (w : Working) (p : Nat) (i : NIdx) : Working := { w with heap := w.heap.setIfInBounds p i }

/-- `swap HEAP[p], HEAP[q]` (R76, R77). -/
def Working.swapHeap (w : Working) (p q : Nat) : Working := (w.setHeap p (w.heapAt q)).setHeap q (w.heapAt p)

/-- The key of node `i`: its weight and tag (R74, R76). -/
def Working.keyOf (w : Working) (i : NIdx) : Key := ⟨(w.nodeAt i).w.toNat, (w.nodeAt i).tag⟩

/-- `key_lt` of the nodes at two heap positions (R76). -/
def Working.heapLt (w : Working) (p q : Nat) : Bool := (w.keyOf (w.heapAt p)).lt (w.keyOf (w.heapAt q))

/-- The upward loop of `heap_push` at position `p` (R76); the first argument bounds its passes. -/
def siftUp : Nat → Nat → Working → Working
  | 0, _, w => w
  | n + 1, p, w =>
    if p > 0 then
      if w.heapLt p ((p - 1) / 2) then siftUp n ((p - 1) / 2) (w.swapHeap p ((p - 1) / 2)) else w
    else w

/-- `heap_push(i)` (R76): at most `p` passes from position `p`. -/
def heapPush (i : NIdx) (w : Working) : Working :=
  siftUp w.hsize.toNat w.hsize.toNat { w.setHeap w.hsize.toNat i with hsize := w.hsize + 1 }

/-- `m` after the two comparisons of one pass of `heap_pop` at position `p` (R77). -/
def siftChoice (p : Nat) (w : Working) : Nat :=
  let m := if 2 * p + 1 < w.hsize.toNat ∧ w.heapLt (2 * p + 1) p then 2 * p + 1 else p
  if 2 * p + 2 < w.hsize.toNat ∧ w.heapLt (2 * p + 2) m then 2 * p + 2 else m

/-- The downward loop of `heap_pop` at position `p` (R77); the first argument bounds its passes. -/
def siftDown : Nat → Nat → Working → Working
  | 0, _, w => w
  | n + 1, p, w => if siftChoice p w = p then w else siftDown n (siftChoice p w) (w.swapHeap p (siftChoice p w))

/-- `heap_pop()` (R77): the index removed, and the stores after. -/
def heapPop (w : Working) : NIdx × Working :=
  let w' := { w with hsize := w.hsize - 1 }
  (w.heapAt 0,
    if w'.hsize.toNat > 0 then siftDown w'.hsize.toNat 0 (w'.setHeap 0 (w'.heapAt w'.hsize.toNat)) else w')

/-- `merge(lo, hi)` (R78): a 40-bit add, the smaller tag, and the branch bits. The new node's own `parent` and `pbit` are
not written and stay as they were (log entry 16). -/
def mergeNodes (lo hi : NIdx) (w : Working) : Working :=
  let m := w.nnext
  let w1 := w.setNode m
    { w.nodeAt m with
      w := (w.nodeAt lo).w + (w.nodeAt hi).w
      tag := minSym (w.nodeAt lo).tag (w.nodeAt hi).tag
      leaf := false
      sym := 0
      left := lo
      right := hi }
  let w2 := w1.setNode lo { w1.nodeAt lo with parent := m, pbit := false }
  let w3 := w2.setNode hi { w2.nodeAt hi with parent := m, pbit := true }
  { heapPush m w3 with nnext := w.nnext + 1 }

/-- The body of the SCAN loop for one present symbol (R73); `parent` and `pbit` are not written (log entry 16). -/
def scanLeaf (s : Sym) (c : Count) (w : Working) : Working :=
  let i := w.nnext
  let w1 := w.setNode i
    { w.nodeAt i with w := c.zeroExtend Config.wgtW, tag := s, leaf := true, sym := s, left := 0, right := 0 }
  { heapPush i w1 with nnext := w.nnext + 1 }

/-- SCAN (R73): both counters cleared, then every symbol in ascending order. -/
def scanPhase (f : FreqTable) (w : Working) : Working :=
  (entries f).foldl (fun w p => if p.2 ≠ 0 then scanLeaf p.1 p.2 w else w) { w with hsize := 0, nnext := 0 }

/-- One pass of the MERGE loop (R73). -/
def mergePass (w : Working) : Working :=
  let a := heapPop w
  let b := heapPop a.2
  mergeNodes a.1 b.1 b.2

/-- MERGE (R73): `while HSIZE > 1`; the first argument bounds the passes. -/
def mergeWhile : Nat → Working → Working
  | 0, w => w
  | n + 1, w => if w.hsize.toNat > 1 then mergeWhile n (mergePass w) else w

/-- The walk of `extract(j, root)` from node `p` with `d` bits and value `c` so far (R81). -/
def walkUp (w : Working) (root : NIdx) : Nat → NIdx → Nat → Nat → Nat × Nat
  | 0, _, d, c => (d, c)
  | n + 1, p, d, c =>
    if p = root then (d, c)
    else walkUp w root n (w.nodeAt p).parent (d + 1) (c + (w.nodeAt p).pbit.toNat * 2 ^ d)

/-- `extract(j, root)` (R81): the entry written for leaf `j`; the walk takes at most 255 steps (R80). -/
def extractEntry (w : Working) (root j : NIdx) : CtEntry :=
  let r := walkUp w root Config.nsym j 0 0
  ⟨true, BitVec.ofNat Config.lenW r.1, BitVec.ofNat Config.codeW r.2⟩

/-- EXTRACT (R73): the code table cleared, then each leaf's entry written. -/
def extractPhase (w : Working) (n root : NIdx) : CodeTable :=
  (List.range n.toNat).foldl
    (fun c j => tableSet c (w.nodeAt (BitVec.ofNat Config.nidxW j)).sym (extractEntry w root (BitVec.ofNat Config.nidxW j)))
    (Vector.replicate Config.nsym CtEntry.absent)

/-- The sequencer's own variables `n` and `root` (R73) beside the machine's state (log entry 15). -/
structure SeqState where
  st : State
  n : NIdx
  root : NIdx
  deriving DecidableEq, Repr

/-- The working stores with the phase set. -/
def Working.setPhase (w : Working) (p : Phase) : Working := { w with phase := p }

/-- One phase of the sequencer (R73): what `PHASE` says is done, and `PHASE` moves on. IDLE does nothing. -/
def seqStep (q : SeqState) : SeqState :=
  let s := q.st
  match s.work.phase with
  | .idle => q
  | .scan =>
    let w := scanPhase s.ft s.work
    if w.nnext = 0 then { q with st := (s.setWork (w.setPhase .idle)).raise .empty, n := w.nnext }
    else { q with st := s.setWork (w.setPhase .merge), n := w.nnext }
  | .merge =>
    let w := mergeWhile (Config.nsym - 1) s.work
    { q with st := s.setWork (w.setPhase .extract), root := w.heapAt 0 }
  | .extract =>
    { q with st := { s.setWork (s.work.setPhase .finish) with ct := extractPhase s.work q.n q.root } }
  | .finish =>
    { q with st := ((s.clearFt).setWork (s.work.setPhase .idle)).respond (q.n.zeroExtend Config.dataW) }

/-- A `BUILD` leaves IDLE for SCAN (R73). -/
def seqStart (s : State) : SeqState := ⟨s.setWork (s.work.setPhase .scan), 0, 0⟩

/-- The sequencer's run from IDLE to IDLE: SCAN, MERGE, EXTRACT, FINISH, or SCAN alone on `E_EMPTY` (R73). -/
def runSequencer (s : State) : State := (seqStep (seqStep (seqStep (seqStep (seqStart s))))).st

end Sys2Proof.Machine
end

