-- ==== Sys2Proof/Machine/Tree.lean ====
section
/-! DEFINITION. The abstract level of the build (spec/41_build.md): trees (spec/00_scope.md R8), the key order with its
tie-break (R74), the live set and the merge loop (R72), and the codes of a tree (R82). Weights are exact numbers here; that
they fit 40 bits is R6 and R94. -/

namespace Sys2Proof.Machine

/-- A tree of the build (R8): `node l r` has the first-extracted tree on the bit-0 side. -/
inductive Tree where
  | leaf (s : Sym) (w : Nat)
  | node (l r : Tree)
  deriving DecidableEq, Repr

/-- `weight`: the sum of the leaf frequencies beneath (R8). -/
def Tree.weight : Tree → Nat
  | .leaf _ w => w
  | .node l r => l.weight + r.weight

/-- `tag`: the smallest symbol among the leaves (R8). -/
def Tree.tag : Tree → Sym
  | .leaf s _ => s
  | .node l r => minSym l.tag r.tag

/-- `leaves`: the left-to-right list of symbols and weights (R8). -/
def Tree.leaves : Tree → List (Sym × Nat)
  | .leaf s w => [(s, w)]
  | .node l r => l.leaves ++ r.leaves

/-- `key(x)` of a tree (R74). -/
def Tree.key (t : Tree) : Key := ⟨t.weight, t.tag⟩

/-- The element of a non-empty live set with the least key, and the rest (R72): `t` is the least met so far. -/
def takeLeast : Tree → List Tree → Tree × List Tree
  | t, [] => (t, [])
  | t, u :: us =>
    if u.key.lt t.key then ((takeLeast u us).1, t :: (takeLeast u us).2)
    else ((takeLeast t us).1, u :: (takeLeast t us).2)

/-- One pass of the merge loop (R72): extract `lo`, extract `hi`, reinsert `node lo hi`; nothing on fewer than two. -/
def mergeOnce : List Tree → List Tree
  | [] => []
  | [t] => [t]
  | t :: u :: us =>
    match (takeLeast t (u :: us)).2 with
    | [] => [(takeLeast t (u :: us)).1]
    | v :: vs => .node (takeLeast t (u :: us)).1 (takeLeast v vs).1 :: (takeLeast v vs).2

/-- The merge loop, `n` passes (R72: it runs exactly `n - 1` times on `n` leaves). -/
def mergePasses : Nat → List Tree → List Tree
  | 0, q => q
  | n + 1, q => mergePasses n (mergeOnce q)

/-- The initial live set: a leaf per present symbol (R72). -/
def leafSet (f : FreqTable) : List Tree := (present f).map (fun s => .leaf s (tableGet f s).toNat)

/-- `build_tree(FT)` (R72): nothing when the table is empty (R86). -/
def buildTree (f : FreqTable) : Option Tree := (mergePasses ((leafSet f).length - 1) (leafSet f)).head?

/-- `codes(t)`: the code of every leaf, left to right (R82). -/
def Tree.codes : Tree → List (Sym × List Bool)
  | .leaf s _ => [(s, [])]
  | .node l r => l.codes.map (fun p => (p.1, false :: p.2)) ++ r.codes.map (fun p => (p.1, true :: p.2))

/-- `for (s, t) in codes(T): CT[s] <- (1, |t|, val(t))` over a cleared table (R71, R83, R87). -/
def codeTableOf (t : Tree) : CodeTable :=
  t.codes.foldl (fun c p => tableSet c p.1 (CtEntry.ofString p.2)) (Vector.replicate Config.nsym CtEntry.absent)

end Sys2Proof.Machine
end

