-- ==== Sys2Proof/Machine/Build.lean ====
section
/-! DEFINITION. The command `BUILD` (spec/41_build.md R71). Its architectural effect and its response are those of the
abstract level, "the normative meaning"; the working stores, which nothing observes (spec/10_state.md R26), are as the
sequencer leaves them (R73). That the sequencer computes the same tables and response is a statement about the model, not
part of this definition (log entry 4). -/

namespace Sys2Proof.Machine

/-- `BUILD` (R71): `E_EMPTY` on an empty table (R86); otherwise all of `CT` is replaced (R87), `FT` is cleared (R88), and
the response is the number of symbols. -/
def execBuild (s : State) : Host.Outcome State Fault Refusal :=
  let s1 := s.setWork (runSequencer s).work
  match buildTree s.ft with
  | none => .next (s1.raise .empty)
  | some t => .next (({ s1 with ct := codeTableOf t }).clearFt.respond (BitVec.ofNat Config.dataW s.ftn))

end Sys2Proof.Machine
end

