-- ==== Sys2Proof/Machine/Load.lean ====
section
/-! DEFINITION. The frequency-table commands `INIT`, `CLRF`, `SETF`, `INCF` (spec/40_table_load.md). -/

namespace Sys2Proof.Machine

/-- `INIT` (R61): `FT`, `CT` and `ERR` to their reset state; the working stores are not touched. -/
def execInit (s : State) : Host.Outcome State Fault Refusal := .next (s.clearFt.clearCt.clearErr.respond 0)

/-- `CLRF` (R62): `FT` only. -/
def execClrf (s : State) : Host.Outcome State Fault Refusal := .next (s.clearFt.respond 0)

/-- `SETF s, c` (R63): a count of 0 removes the symbol. -/
def execSetf (x : Sym) (c : Count) (s : State) : Host.Outcome State Fault Refusal := .next ((s.writeFt x c).respond 0)

/-- `INCF s` (R64): `E_CNTOVF` at the largest count, which stays; otherwise the new count is stored and answered. -/
def execIncf (x : Sym) (s : State) : Host.Outcome State Fault Refusal :=
  if tableGet s.ft x = Config.maxCount then .next (s.raise .cntovf)
  else .next ((s.writeFt x (tableGet s.ft x + 1)).respond (tableGet s.ft x + 1))

end Sys2Proof.Machine
end

