-- ==== Sys2Proof/Machine/Readout.lean ====
section
/-! DEFINITION. The read commands `RDF`, `RDL`, `RDC`, `RDST` (spec/42_readout.md): none changes `FT` or `CT` (R95). -/

namespace Sys2Proof.Machine

/-- `RDF s` (R96): 0 for an absent symbol. -/
def execRdf (x : Sym) (s : State) : Host.Outcome State Fault Refusal := .next (s.respond (tableGet s.ft x))

/-- `RDL s` (R97): `v` and `len`; it succeeds for every symbol. -/
def execRdl (x : Sym) (s : State) : Host.Outcome State Fault Refusal := .next (s.respond (lengthWord (tableGet s.ct x)))

/-- `RDC s, k` (R98): `E_NOENT` when the symbol has no entry, otherwise chunk `k` of its code (R36). -/
def execRdc (x : Sym) (k : ChunkIdx) (s : State) : Host.Outcome State Fault Refusal :=
  if (tableGet s.ct x).v then .next (s.respond (codeChunk (tableGet s.ct x).code k)) else .next (s.raise .noent)

/-- `RDST` (R99): the flags it reports stay. -/
def execRdst (s : State) : Host.Outcome State Fault Refusal := .next (s.respond s.status)

end Sys2Proof.Machine
end

