-- ==== Sys2Proof/Machine/Dispatch.lean ====
section
/-! DEFINITION. The effect of a legal command on the state (spec/40_table_load.md R60): one arm per command. -/

namespace Sys2Proof.Machine

def exec (i : Instr) (s : State) : Host.Outcome State Fault Refusal :=
  match i with
  | .init => Sys2Proof.Machine.execInit s
  | .clrf => Sys2Proof.Machine.execClrf s
  | .setf x c => Sys2Proof.Machine.execSetf x c s
  | .incf x => Sys2Proof.Machine.execIncf x s
  | .build => Sys2Proof.Machine.execBuild s
  | .rdf x => Sys2Proof.Machine.execRdf x s
  | .rdl x => Sys2Proof.Machine.execRdl x s
  | .rdc x k => Sys2Proof.Machine.execRdc x k s
  | .rdst => Sys2Proof.Machine.execRdst s

end Sys2Proof.Machine
end

