-- ==== Sys2Proof/Machine/Port.lean ====
section
/-! DEFINITION. The command and response ports (spec/30_encoding.md R56, R57): what one clock edge does with the input
pins sampled at it, and what an accepted word does, legal or not (R52, spec/40_table_load.md R60). No time is modelled
(R138): a command's effect is complete, and its response waits, at the edge after its acceptance (log entry 1). -/

namespace Sys2Proof.Machine

/-- An accepted word (R60): an illegal word is `raise E_ILLEGAL` (R52), a legal one is its command. -/
def runCommand (w : Cmd) (s : State) : Host.Outcome State Fault Refusal :=
  match decode w with
  | .error _ => .next (s.raise .illegal)
  | .ok i => exec i s

/-- One rising clock edge with the pins `p` sampled: reset first (R125, R127); a host that breaks the handshake is refused
(R113); a command is accepted when `cmd_valid = cmd_ready = 1` (R57 (a)); otherwise a waiting response is taken or held
(R57 (d), (e)) and a presented command goes on waiting (R57 (c)). -/
def clockEdge (p : PortIn) (s : State) : Host.Outcome State Fault Refusal :=
  if p.rst then .next s.hardReset
  else if s.handshakeBrokenBy p then .refused .handshakeBroken
  else if p.cmdValid && (s.pins p.rst).cmdReady then runCommand p.cmd s.accept
  else .next ((s.takeResponse p.rspReady).holdCommand p)

/-- The next sample is consumed and acted on; with no sample there is no clock edge and nothing changes (log entry 2). -/
def nextEdge (s : State) : Host.Outcome State Fault Refusal :=
  match s.inputs with
  | [] => .next s
  | p :: rest => clockEdge p { s with inputs := rest }

/-- The host presents a word at the next edge to a block that is ready (log entry 5). -/
def presentWord (s : State) (w : Cmd) : State :=
  { s with
    busy := false
    rspreg := none
    held := none
    inputs := { rst := false, cmdValid := true, cmd := w, rspReady := false } :: s.inputs }

end Sys2Proof.Machine
end

