-- ==== Sys2Proof/Machine/Step.lean ====
section
/-! DEFINITION. The step of the machine: one clock edge at which the block samples its input pins
(spec/30_encoding.md R57; Sys2Proof/Machine/Port.lean says what it does). -/

namespace Sys2Proof.Machine

/-- One step. -/
def step (s : State) : Host.Outcome State Fault Refusal := nextEdge s

/-- The state in which the very next step accepts and runs the word whose bits are `w` (log entry 5): the host presents it
and the block is ready. -/
def State.withFetchWord (s : State) (nbits w : Nat) : State := presentWord s (BitVec.ofNat Config.cmdW (w % 2 ^ nbits))

end Sys2Proof.Machine
end

