-- ==== Sys2Proof/Safety.lean ====
section
/-! DEFINITION. The words claims are made in: the state after a command, sessions and host traces, the invariants of the
tables and of the ports, prefix-freedom, the Kraft sum, the weighted length, the live set of R72 as a relation, and the heap
order of R77. Nothing here is part of a step. -/

namespace Sys2Proof.Machine

/-! Commands and sessions -/

/-- The state after a command, where it answers one (`exec` always does). -/
def State.after (s : State) (i : Instr) : State :=
  match exec i s with
  | .next t => t
  | _ => s

/-- The state after a sequence of commands, in order (R38). -/
def State.afterAll (s : State) (l : List Instr) : State := l.foldl State.after s

/-- The state after an accepted word, legal or not (R60). -/
def State.afterWord (s : State) (w : Cmd) : State :=
  match runCommand w s with
  | .next t => t
  | _ => s

/-- The state after a sequence of words. -/
def State.afterWords (s : State) (l : List Cmd) : State := l.foldl State.afterWord s

/-- The responses to a sequence of words, in order: the block as a function of state and command (R57). -/
def session : List Cmd → State → List Rsp
  | [], _ => []
  | w :: ws, s => (s.afterWord w).rspreg.toList ++ session ws (s.afterWord w)

/-- Pins of a host that does nothing at an edge. -/
def PortIn.quiet : PortIn := ⟨false, false, 0, false⟩

/-- What a host that obeys R57 drives for one word: it pauses, presents the word to the ready block, pauses, and takes the
response. -/
def hostTurn (p : Nat × Cmd × Nat) : List PortIn :=
  List.replicate p.1 PortIn.quiet ++ [⟨false, true, p.2.1, false⟩] ++ List.replicate p.2.2 PortIn.quiet ++
    [⟨false, false, 0, true⟩]

/-- The pins such a host drives for a sequence of words. -/
def hostTrace (l : List (Nat × Cmd × Nat)) : List PortIn := l.flatMap hostTurn

/-- The next step accepts a command (R57 (a), (b)). -/
def State.accepts (s : State) : Bool :=
  match s.inputs with
  | [] => false
  | p :: _ => !p.rst && !s.handshakeBrokenBy p && p.cmdValid && !s.busy

/-- The word the next step accepts, if it accepts one. -/
def State.acceptedWord (s : State) : Option Cmd :=
  match s.inputs with
  | [] => none
  | p :: _ => if s.accepts then some p.cmd else none

/-- The words accepted over the next `n` edges, in order, up to a refusal (R57). -/
def State.wordsAccepted : State → Nat → List Cmd
  | _, 0 => []
  | s, n + 1 =>
    s.acceptedWord.toList ++ (match step s with
      | .next t => t.wordsAccepted n
      | _ => [])

/-- The next step samples `rst = 1` (R125). -/
def State.resetsNext (s : State) : Bool :=
  match s.inputs with
  | [] => false
  | p :: _ => p.rst

/-! Frames -/

/-- Nothing but the two tables, the flags and the response register differs. -/
def SameOutside (s t : State) : Prop :=
  t.work = s.work ∧ t.busy = s.busy ∧ t.held = s.held ∧ t.inputs = s.inputs ∧ t.taken = s.taken

/-- The response register holds `(status, rdata)` (R54). -/
def Answers (t : State) (status : BitVec 8) (rdata : Data) : Prop := t.rspreg = some (Rsp.make status rdata)

/-- The states agree on what R26 calls observable: `FT`, `CT`, `ERR`. -/
def SameArchitecture (s t : State) : Prop := s.ft = t.ft ∧ s.ct = t.ct ∧ s.err = t.err

/-! Invariants of the code table (R17) -/

/-- R17 (a) and (b) for one entry. -/
def CtEntry.Stored (e : CtEntry) : Prop :=
  (e.v = false → e.len = 0 ∧ e.code = 0) ∧ e.code.toNat < 2 ^ e.len.toNat

/-- R17 (a) and (b). -/
def CtStored (c : CodeTable) : Prop := ∀ x, (tableGet c x).Stored

/-- No code is a prefix of another symbol's code (R90). -/
def PrefixFree (c : CodeTable) : Prop :=
  ∀ a ∈ coded c, ∀ b ∈ coded c, a ≠ b → ¬ (tableGet c a).str <+: (tableGet c b).str

/-- The Kraft sum, in units of 2^(-255): every length is at most 255 (R15), so the equality of R91 is exact in it. -/
def kraftSum (c : CodeTable) : Nat := ((coded c).map (fun x => 2 ^ (Config.codeW - (tableGet c x).len.toNat))).sum

/-- R17 (d) and (e). -/
def CtCode (c : CodeTable) : Prop :=
  (ctnOf c ≥ 2 → PrefixFree c ∧ kraftSum c = 2 ^ Config.codeW) ∧ (ctnOf c = 1 → ∀ x ∈ coded c, (tableGet c x).len = 0)

/-! Invariant of the ports (R22, R54, R55, R57) -/

/-- A response the block produces: a status code of R55, and data 0 on an error (R54). -/
def LegalResponse (r : Rsp) : Prop :=
  ∃ st d, r = Rsp.make st d ∧ (st = statusOk ∨ (d = 0 ∧ ∃ e, st = errStatus e))

/-- `BUSY` is 1 exactly while a response waits, the sequencer is in IDLE between commands, and every response waiting or
taken is legal (R22, R54, R55, R57). -/
def PortInv (s : State) : Prop :=
  (s.busy = true ↔ s.rspreg.isSome) ∧ s.work.phase = .idle ∧
    (∀ r, s.rspreg = some r → LegalResponse r) ∧ ∀ r ∈ s.taken, LegalResponse r

/-! Lengths (R92, R93) -/

/-- `L = sum over present s of f[s] * CT[s].len` (R92). -/
def weightedLength (f : FreqTable) (c : CodeTable) : Nat :=
  ((present f).map (fun x => (tableGet f x).toNat * (tableGet c x).len.toNat)).sum

/-- No member of a code assignment is a prefix of another, over the given symbols (R90, R92). -/
def PrefixFreeOn (l : List Sym) (g : Sym → List Bool) : Prop := ∀ a ∈ l, ∀ b ∈ l, a ≠ b → ¬ g a <+: g b

/-- The sum of the weights of all internal nodes (R93). -/
def Tree.internalWeight : Tree → Nat
  | .leaf _ _ => 0
  | .node l r => (Tree.node l r).weight + l.internalWeight + r.internalWeight

/-- The bits an encoder emits for a record: each character replaced by its code (R93, R100). -/
def emittedBits (c : CodeTable) (text : List Sym) : List Bool := text.flatMap (fun x => (tableGet c x).str)

/-- All sub-trees, the tree itself among them. -/
def Tree.subtrees : Tree → List Tree
  | .leaf s w => [.leaf s w]
  | .node l r => .node l r :: (l.subtrees ++ r.subtrees)

/-- The tree is an internal node. -/
def Tree.isNode : Tree → Bool
  | .leaf _ _ => false
  | .node _ _ => true

/-! The live set as a set, extracted by any correct queue (R72, R75) -/

/-- The merge loop of R72 on a live set: the order of the list is free, `lo` has the least key of all and `hi` the least of
the rest; one element left is the tree. -/
inductive MergeRun : List Tree → Tree → Prop where
  | done (t : Tree) : MergeRun [t] t
  | pass (q : List Tree) (lo hi : Tree) (rest : List Tree) (t : Tree) :
      q.Perm (lo :: hi :: rest) → (∀ u ∈ hi :: rest, lo.key.lt u.key = true) → (∀ u ∈ rest, hi.key.lt u.key = true) →
      MergeRun (.node lo hi :: rest) t → MergeRun q t

/-! The heap (R77) -/

/-- The heap invariant of R77: no position below `HSIZE` has a key less than its parent position's. -/
def HeapInv (w : Working) : Prop :=
  ∀ p, 1 ≤ p → p < w.hsize.toNat → w.heapLt p ((p - 1) / 2) = false

/-- The indices in the heap, by position (R21). -/
def Working.live (w : Working) : List NIdx := (List.range w.hsize.toNat).map w.heapAt

/-- `2n - 1` for the `n` symbols of a table: the nodes of its build (R79). -/
def nodesOf (f : FreqTable) : Nat := 2 * ftnOf f - 1

end Sys2Proof.Machine
end

