-- ==== Sys2Proof/Certificates/Slice0/Obligations.lean ====
section
/-! DEFINITION. The statements for the provers: what the commands, the ports and the build of the HTB do, each from the
numbered rules its docstring names. -/

open Sys2Proof Sys2Proof.Machine

/-! ## Reset and invariants -/

/-- The values R24 (spec/10_state.md) gives for reset, and those it gives after `INIT`, which leaves the working stores
alone. The working stores' values at reset are the model's choice (log entry 3) and are not stated. -/
def Obligations.ResetLeavesTheStatedValues : Prop :=
  (∀ x, tableGet State.reset.ft x = 0) ∧ (∀ x, tableGet State.reset.ct x = ⟨false, 0, 0⟩) ∧
    State.reset.err = ⟨false, false, false, false⟩ ∧ State.reset.status = 0 ∧ State.reset.work.phase = .idle ∧
    State.reset.busy = false ∧ State.reset.rspreg = none ∧
    ∀ s : State, ∃ t, exec .init s = .next t ∧ t.ft = State.reset.ft ∧ t.ct = State.reset.ct ∧
      t.err = State.reset.err ∧ t.status = 0 ∧ t.work = s.work

/-- The invariants of R17 (spec/10_state.md) and of the ports hold right after reset. -/
def Obligations.ResetMeetsTheInvariants : Prop :=
  CtStored State.reset.ct ∧ CtCode State.reset.ct ∧ PortInv State.reset

/-- R17 (a), (b): every step keeps them, from every state that has them, reachable or not. -/
def Obligations.EveryStepKeepsTheStoredForm : Prop :=
  ∀ s t : State, CtStored s.ct → step s = .next t → CtStored t.ct

/-- R17 (d), (e): every step keeps prefix-freedom and the Kraft equality of a code table of two or more entries, and the
empty code of a singleton's. -/
def Obligations.EveryStepKeepsThePrefixCode : Prop :=
  ∀ s t : State, CtCode s.ct → step s = .next t → CtCode t.ct

/-- R22, R54, R55, R57: `PHASE` is IDLE between commands, and every response waiting or taken has a status of R55 and data 0 on
an error. The clause that `BUSY` is 1 exactly while a response waits is the model's choice and not R22's or R57 (d)'s, by which
`BUSY` is also 1 while the command still executes: the model leaves the latencies out (log entry 1, DESIGN CHOICE; log entry 12
for the states this rules out). -/
def Obligations.EveryStepKeepsThePortInvariant : Prop :=
  ∀ s t : State, PortInv s → step s = .next t → PortInv t

/-! ## Encoding -/

/-- R45 to R52: a word decodes to a command exactly when it is that command's encoding, so no operand bit is dropped and no
other word is a command. -/
def Obligations.DecodeAndEncodeAgree : Prop :=
  ∀ (w : Cmd) (i : Instr), decode w = .ok i ↔ encode i = w

/-- R49: a word is a command exactly when it matches that command's row, and the worked encodings of R49. -/
def Obligations.DecoderFollowsMatchAndMask : Prop :=
  (∀ (w : Cmd), ∀ r ∈ opcodeTable,
    (∃ i, decode w = .ok i ∧ i.mnemonic = r.mnemonic) ↔ w &&& r.mask = r.mtch) ∧
  encode (.incf 0x31) = 0x043100000000 ∧ encode (.setf 0x61 45) = 0x03610000002D ∧
    encode (.rdc 0x2E 0) = 0x122E00000000 ∧ encode (.rdc 0x61 7) = 0x126100000007 ∧ encode .build = 0x080000000000

/-- R50: every mask covers the opcode in full, the rows are pairwise disjoint, and a word that matches none is illegal. -/
def Obligations.OpcodeRowsAreDisjoint : Prop :=
  (∀ r ∈ opcodeTable, Cmd.op r.mask = 0xFF) ∧
  (∀ r ∈ opcodeTable, ∀ r' ∈ opcodeTable, ∀ w : Cmd, r.hits w → r'.hits w → r = r') ∧
  ∀ w : Cmd, (∃ e, decode w = .error e) ↔ ∀ r ∈ opcodeTable, ¬ r.hits w

/-- R51, R52: which words are illegal, that such a word is accepted like any other and is `raise E_ILLEGAL` with response
(0x02, 0), the two named words, and the number of illegal opcode values. -/
def Obligations.IllegalWordsRaiseIllegal : Prop :=
  (∀ w : Cmd, (∃ e, decode w = .error e) ↔
    (w.op ∉ [0x01#8, 0x02#8, 0x03#8, 0x04#8, 0x08#8, 0x10#8, 0x11#8, 0x12#8, 0x13#8]) ∨
    (w.op ∈ [0x01#8, 0x02#8, 0x08#8, 0x13#8] ∧ (w.sym ≠ 0 ∨ w.data ≠ 0)) ∨
    (w.op ∈ [0x04#8, 0x10#8, 0x11#8] ∧ w.data ≠ 0) ∨ (w.op = 0x12#8 ∧ w.data.toNat ≥ 8)) ∧
  (∀ (s : State) (p : PortIn) (rest : List PortIn), s.inputs = p :: rest → p.rst = false → p.cmdValid = true →
    s.busy = false → (s.held = none ∨ s.held = some p.cmd) → (∃ e, decode p.cmd = .error e) →
    step s = .next { s with
      err := { s.err with illegal := true }, rspreg := some (Rsp.make 0x02 0), busy := true, held := none, inputs := rest }) ∧
  (∃ e, decode 0x000000000000 = .error e) ∧ (∃ e, decode 0xFFFFFFFFFFFF = .error e) ∧
  (allSyms.filter (fun o => decide (o ∉
    [0x01#8, 0x02#8, 0x03#8, 0x04#8, 0x08#8, 0x10#8, 0x11#8, 0x12#8, 0x13#8]))).length = 247

/-- Words written out in V15 and P4 of spec/95_test_vectors.md, and the one of R96 (spec/42_readout.md), decode to the command
they stand for, one or more per family. -/
def Obligations.WordsOfTheTestVectorsDecode : Prop :=
  decode 0x010000000000 = .ok .init ∧ decode 0x020000000000 = .ok .clrf ∧
    decode 0x037AFFFFFFFF = .ok (.setf 0x7A 0xFFFFFFFF) ∧ decode 0x047A00000000 = .ok (.incf 0x7A) ∧
    decode 0x080000000000 = .ok .build ∧ decode 0x103800000000 = .ok (.rdf 0x38) ∧
    decode 0x104100000000 = .ok (.rdf 0x41) ∧ decode 0x114100000000 = .ok (.rdl 0x41) ∧
    decode 0x123800000007 = .ok (.rdc 0x38 7) ∧ decode 0x130000000000 = .ok .rdst ∧
    decode 0x120000000008 = .error .reservedNonzero ∧ decode 0x050000000000 = .error .undefinedOpcode

/-- R58, R59, line by line: a symbol operand is a number 0 to 255 or an ASCII character, below 128, meaning its byte; `c` is 0 to
4294967295, `k` 0 to 7, a literal word has 12 hexadecimal digits. A line with an operand out of range is rejected; every other
line gives the words stated, which are legal unless written literally. That a line is a term and not a text is the model's
choice (log entry 11, DESIGN CHOICE). -/
def Obligations.AssemblerProducesLegalWords : Prop :=
  (assemble .init = some [0x010000000000] ∧ assemble .clrf = some [0x020000000000] ∧
    assemble .build = some [0x080000000000] ∧ assemble .rdst = some [0x130000000000]) ∧
  (∀ (a : SymArg) (n : Nat), (a = .num n ∧ n ≤ 255) ∨ (∃ ch : Char, a = .chr ch ∧ ch.toNat = n ∧ n < 128) →
    (∀ c, assemble (.setf a c) =
      if c ≤ 4294967295 then some [BitVec.ofNat 48 (0x03 * 2 ^ 40 + n * 2 ^ 32 + c)] else none) ∧
    assemble (.incf a) = some [BitVec.ofNat 48 (0x04 * 2 ^ 40 + n * 2 ^ 32)] ∧
    assemble (.rdf a) = some [BitVec.ofNat 48 (0x10 * 2 ^ 40 + n * 2 ^ 32)] ∧
    assemble (.rdl a) = some [BitVec.ofNat 48 (0x11 * 2 ^ 40 + n * 2 ^ 32)] ∧
    (∀ k, assemble (.rdc a k) =
      if k ≤ 7 then some [BitVec.ofNat 48 (0x12 * 2 ^ 40 + n * 2 ^ 32 + k)] else none) ∧
    assemble (.rdcode a) = some (BitVec.ofNat 48 (0x11 * 2 ^ 40 + n * 2 ^ 32) ::
      [0, 1, 2, 3, 4, 5, 6, 7].map (fun k => BitVec.ofNat 48 (0x12 * 2 ^ 40 + n * 2 ^ 32 + k)))) ∧
  (∀ a : SymArg, (∃ n, a = .num n ∧ n > 255) ∨ (∃ ch : Char, a = .chr ch ∧ ch.toNat ≥ 128) →
    (∀ c, assemble (.setf a c) = none) ∧ assemble (.incf a) = none ∧ assemble (.rdf a) = none ∧
    assemble (.rdl a) = none ∧ (∀ k, assemble (.rdc a k) = none) ∧ assemble (.rdcode a) = none) ∧
  (∀ w, assemble (.word w) = if w < 16 ^ 12 then some [BitVec.ofNat 48 w] else none) ∧
  (∀ text : List (BitVec 8), assemble (.count text) =
    some (text.map (fun b => BitVec.ofNat 48 (0x04 * 2 ^ 40 + b.toNat * 2 ^ 32)))) ∧
  ∀ (l : AsmLine) (ws : List Cmd), assemble l = some ws → (∀ w, l ≠ .word w) → ∀ w ∈ ws, ∃ i, decode w = .ok i

/-! ## Ports and steps -/

/-- R57 (a), (d), R60: a presented word that decodes is accepted by a ready block, and the step is that command on the state
with the sample consumed, `BUSY` set and the host no longer waiting. -/
def Obligations.StepRunsTheDecodedCommand : Prop :=
  ∀ (s : State) (p : PortIn) (rest : List PortIn) (i : Instr), s.inputs = p :: rest → p.rst = false → p.cmdValid = true →
    s.busy = false → (s.held = none ∨ s.held = some p.cmd) → decode p.cmd = .ok i →
    step s = exec i { s with inputs := rest, busy := true, held := none }

/-- R57 (d), (e), U8: a waiting response is held unchanged until an edge with `rsp_ready`, at which it is taken, `rsp_valid`
and `BUSY` return to 0 and `cmd_ready` to 1; a command presented meanwhile waits. -/
def Obligations.ResponseIsHeldUntilTaken : Prop :=
  ∀ (s : State) (p : PortIn) (rest : List PortIn) (r : Rsp), s.inputs = p :: rest → p.rst = false → s.busy = true →
    s.rspreg = some r → (s.held = none ∨ (p.cmdValid = true ∧ s.held = some p.cmd)) →
    (p.rspReady = false → step s = .next { s with inputs := rest, held := if p.cmdValid then some p.cmd else none }) ∧
    (p.rspReady = true → ∃ t, step s = .next t ∧ t.taken = s.taken ++ [r] ∧ t.pins false = ⟨true, none, false⟩ ∧
      t.ft = s.ft ∧ t.ct = s.ct ∧ t.err = s.err ∧ t.work = s.work ∧ t.inputs = rest ∧
      t.held = if p.cmdValid then some p.cmd else none)

/-- R113, R57 (c), U3: the only thing a step refuses is a host that waits and drops `cmd_valid` or changes `cmd`, and no step
faults. That the host starts anew at an edge with `rst = 1` is the model's reading (log entry 6). -/
def Obligations.OnlyABrokenHandshakeIsRefused : Prop :=
  ∀ s : State, (∀ f, step s ≠ .fault f) ∧ ∀ r, step s = .refused r ↔ (r = .handshakeBroken ∧
    ∃ p rest c, s.inputs = p :: rest ∧ p.rst = false ∧ s.held = some c ∧ (p.cmdValid = false ∨ p.cmd ≠ c))

/-- R125: while `rst = 1` the output pins are low, and an edge with `rst = 1` accepts no command and puts `FT`, `CT`, `ERR`,
`PHASE`, `BUSY` at their reset values with no response pending, from any state. -/
def Obligations.HardwareResetFromAnyState : Prop :=
  ∀ (s : State) (p : PortIn) (rest : List PortIn), s.inputs = p :: rest → p.rst = true →
    s.pins p.rst = ⟨false, none, false⟩ ∧ s.accepts = false ∧
    ∃ t, step s = .next t ∧ (∀ x, tableGet t.ft x = 0) ∧ (∀ x, tableGet t.ct x = ⟨false, 0, 0⟩) ∧
      t.err = ⟨false, false, false, false⟩ ∧ t.work.phase = .idle ∧ t.busy = false ∧ t.rspreg = none ∧ t.inputs = rest

/-- R127: a command in flight at an edge with `rst = 1`, whether its response is taken at that edge or not, is abandoned: its
response is not delivered then and none waits after, and the block is as after reset. That `cmd_ready` is 1 straight after the
edge is the model's choice, since R126 leaves `RESET_LAT` open (log entry 1, DESIGN CHOICE); that a reset in the middle of a
command looks the same is log entry 7 (DEDUCED); that the host starts anew is log entry 6 (DEDUCED). -/
def Obligations.ResetAbandonsTheCommandInFlight : Prop :=
  ∀ (s : State) (p : PortIn) (rest : List PortIn) (r : Rsp), s.inputs = p :: rest → p.rst = true → s.busy = true →
    s.rspreg = some r →
    ∃ t, step s = .next t ∧ t.taken = s.taken ∧ t.pins false = ⟨true, none, false⟩ ∧
      SameArchitecture t State.reset ∧ t.work.phase = .idle ∧ t.held = none ∧ t.inputs = rest

/-- R54, R57 (f), R127: outside reset, every accepted word gives one response and nothing else gives any; responses are lost
only to reset. -/
def Obligations.OneResponsePerAcceptedWord : Prop :=
  ∀ s t : State, PortInv s → s.resetsNext = false → step s = .next t →
    t.taken.length + t.rspreg.toList.length = s.taken.length + s.rspreg.toList.length + (if s.accepts then 1 else 0)

/-- R38, R57: a host that presents each word to the ready block and takes each response at a later edge, with any pauses, gets
the responses of its words in order, one each, and the block ends in the state the words lead to one after another. That the
run ends in exactly the edges of its trace, also where a response is taken at the edge after acceptance, holds only because the
model leaves the latencies out (log entry 1, DESIGN CHOICE, unsafe for claims on edge counts). Hosts of every other shape are
in AnySessionAnswersTheAcceptedWords. -/
def Obligations.HostSessionRunsTheWordsInOrder : Prop :=
  ∀ (l : List (Nat × Cmd × Nat)) (s : State), s.busy = false → s.rspreg = none → s.held = none → s.inputs = hostTrace l →
    ∃ t : State, core.run (hostTrace l).length s = .next t ∧ t.inputs = [] ∧ t.busy = false ∧ t.rspreg = none ∧
      t.taken = s.taken ++ session (l.map (fun p => p.2.1)) s ∧
      (session (l.map (fun p => p.2.1)) s).length = l.length ∧
      SameArchitecture t (s.afterWords (l.map (fun p => p.2.1)))

/-- R38, R57 (f): whatever the host drives, `rsp_ready` held high and words presented while `BUSY = 1` among it, as long as it is
not refused and does not reset: over any number of edges the responses taken, with the one still waiting, are those of the
accepted words in order, one each, and the tables and flags are as those words lead to one after another. -/
def Obligations.AnySessionAnswersTheAcceptedWords : Prop :=
  ∀ (n : Nat) (s t : State), PortInv s → (∀ p ∈ s.inputs.take n, p.rst = false) → core.run n s = .next t →
    t.taken ++ t.rspreg.toList = s.taken ++ s.rspreg.toList ++ session (s.wordsAccepted n) s ∧
    (session (s.wordsAccepted n) s).length = (s.wordsAccepted n).length ∧
    SameArchitecture t (s.afterWords (s.wordsAccepted n))

/-! ## Loading -/

/-- R61: `INIT` and its word, its effect, its frame, that its opcode with a non-zero reserved field clears nothing, and that no
other command clears a flag. -/
def Obligations.InitClearsTablesAndFlags : Prop :=
  encode .init = 0x010000000000 ∧
  (∀ s : State, ∃ t, exec .init s = .next t ∧ (∀ x, tableGet t.ft x = 0) ∧ (∀ x, tableGet t.ct x = ⟨false, 0, 0⟩) ∧
    t.err = ⟨false, false, false, false⟩ ∧ Answers t 0x00 0 ∧ SameOutside s t) ∧
  (∀ (w : Cmd) (s : State), w.op = 0x01 → w ≠ encode .init →
    runCommand w s = .next { s with err := { s.err with illegal := true }, rspreg := some (Rsp.make 0x02 0) }) ∧
  ∀ (i : Instr) (s t : State) (e : ErrCode), exec i s = .next t → s.err.flag e = true → t.err.flag e = false → i = .init

/-- R62: `CLRF` clears `FT` alone. -/
def Obligations.ClrfClearsOnlyTheFrequencyTable : Prop :=
  encode .clrf = 0x020000000000 ∧
  ∀ s : State, ∃ t, exec .clrf s = .next t ∧ (∀ x, tableGet t.ft x = 0) ∧ t.ct = s.ct ∧ t.err = s.err ∧
    Answers t 0x00 0 ∧ SameOutside s t

/-- R63: `SETF s, c` writes one entry, whatever the symbol and the count, and no word with its opcode is illegal. -/
def Obligations.SetfWritesOneCount : Prop :=
  (∀ (x : Sym) (c : Count) (s : State), ∃ t, exec (.setf x c) s = .next t ∧ tableGet t.ft x = c ∧
    (∀ y, y ≠ x → tableGet t.ft y = tableGet s.ft y) ∧ t.ct = s.ct ∧ t.err = s.err ∧ Answers t 0x00 0 ∧
    SameOutside s t) ∧
  ∀ w : Cmd, w.op = 0x03 → decode w = .ok (.setf w.sym w.data)

/-- R64: `INCF s` adds one and answers the new count, which is not 0; at the largest count it raises `E_CNTOVF` and the count
stays. An absent symbol becomes present and raises `FTN` by one. -/
def Obligations.IncfCountsOneOccurrence : Prop :=
  ∀ (x : Sym) (s : State),
    (tableGet s.ft x ≠ 0xFFFFFFFF → ∃ t, exec (.incf x) s = .next t ∧
      (tableGet t.ft x).toNat = (tableGet s.ft x).toNat + 1 ∧ (∀ y, y ≠ x → tableGet t.ft y = tableGet s.ft y) ∧
      t.ct = s.ct ∧ t.err = s.err ∧ Answers t 0x00 (tableGet t.ft x) ∧ tableGet t.ft x ≠ 0 ∧ SameOutside s t ∧
      (tableGet s.ft x = 0 → t.ftn = s.ftn + 1)) ∧
    (tableGet s.ft x = 0xFFFFFFFF → ∃ t, exec (.incf x) s = .next t ∧ t.ft = s.ft ∧ t.ct = s.ct ∧
      t.err = { s.err with cntovf := true } ∧ Answers t 0x03 0 ∧ SameOutside s t)

/-- R65: after counting a text with no overflow each count has grown by the occurrences of its symbol, so the order of the
text does not matter; and `SETF` commands to distinct symbols can come in any order. -/
def Obligations.LoadingOrderDoesNotMatter : Prop :=
  (∀ (s : State) (text : List Sym), (∀ x, (tableGet s.ft x).toNat + text.count x < 2 ^ 32) →
    (∀ x, (tableGet (s.afterAll (text.map .incf)).ft x).toNat = (tableGet s.ft x).toNat + text.count x) ∧
    ∀ text' : List Sym, text'.Perm text → (s.afterAll (text'.map .incf)).ft = (s.afterAll (text.map .incf)).ft) ∧
  ∀ (s : State) (l l' : List (Sym × Count)), (l.map Prod.fst).Nodup → l'.Perm l →
    (s.afterAll (l'.map (fun p => .setf p.1 p.2))).ft = (s.afterAll (l.map (fun p => .setf p.1 p.2))).ft

/-! ## Reading -/

/-- R96: `RDF s` answers the count, 0 for an absent symbol, and changes nothing else; after a successful `BUILD` it answers 0
for every symbol. -/
def Obligations.RdfAnswersTheCount : Prop :=
  (∀ (x : Sym) (s : State), ∃ t, exec (.rdf x) s = .next t ∧ Answers t 0x00 (tableGet s.ft x) ∧ t.ft = s.ft ∧
    t.ct = s.ct ∧ t.err = s.err ∧ SameOutside s t) ∧
  ∀ (x : Sym) (s : State), s.ftn ≠ 0 → Answers ((s.after .build).after (.rdf x)) 0x00 0

/-- R97: `RDL s` answers `len` in bits 7:0, `v` in bit 8 and zeros above, for every symbol: 0x100 + len for a symbol with a
code, and 0 for one without, by R17. -/
def Obligations.RdlAnswersLengthAndValid : Prop :=
  ∀ (x : Sym) (s : State), ∃ t d, exec (.rdl x) s = .next t ∧ Answers t 0x00 d ∧
    d.extractLsb' 0 8 = (tableGet s.ct x).len ∧ d.getLsbD 8 = (tableGet s.ct x).v ∧ d.toNat < 2 ^ 9 ∧ t.ft = s.ft ∧
    t.ct = s.ct ∧ t.err = s.err ∧ SameOutside s t ∧
    ((tableGet s.ct x).v = true → d.toNat = 0x100 + (tableGet s.ct x).len.toNat) ∧
    (CtStored s.ct → (tableGet s.ct x).v = false → d = 0)

/-- R98: `RDC s, k` answers bits 32k+31 to 32k of the code of a symbol that has one, and raises `E_NOENT` for one that has
none; a chunk at or beyond the length is 0, by R17. -/
def Obligations.RdcAnswersAChunk : Prop :=
  ∀ (x : Sym) (k : ChunkIdx) (s : State),
    ((tableGet s.ct x).v = true → ∃ t d, exec (.rdc x k) s = .next t ∧ Answers t 0x00 d ∧
      (∀ i, i < 32 → d.getLsbD i = (tableGet s.ct x).code.getLsbD (32 * k.toNat + i)) ∧ t.ft = s.ft ∧ t.ct = s.ct ∧
      t.err = s.err ∧ SameOutside s t ∧ (CtStored s.ct → 32 * k.toNat ≥ (tableGet s.ct x).len.toNat → d = 0)) ∧
    ((tableGet s.ct x).v = false → ∃ t, exec (.rdc x k) s = .next t ∧ Answers t 0x04 0 ∧ t.ft = s.ft ∧ t.ct = s.ct ∧
      t.err = { s.err with noent := true } ∧ SameOutside s t)

/-- R99, R19: `RDST` answers the status word, field by field, and clears nothing; straight after reset or `INIT` it answers
0. -/
def Obligations.RdstAnswersTheStatusWord : Prop :=
  Answers (State.reset.after .rdst) 0x00 0 ∧ (∀ s : State, Answers ((s.after .init).after .rdst) 0x00 0) ∧
  ∀ s : State, ∃ t d, exec .rdst s = .next t ∧ Answers t 0x00 d ∧
    (d.extractLsb' 0 9).toNat = s.ctn ∧ d.extractLsb' 9 7 = 0 ∧ (d.extractLsb' 16 9).toNat = s.ftn ∧
    d.extractLsb' 25 3 = 0 ∧ d.getLsbD 28 = s.err.empty ∧ d.getLsbD 29 = s.err.illegal ∧
    d.getLsbD 30 = s.err.cntovf ∧ d.getLsbD 31 = s.err.noent ∧ t.ft = s.ft ∧ t.ct = s.ct ∧ t.err = s.err ∧
    SameOutside s t

/-- R34: a read completes and leaves the tables, the working stores and the ports alone, and the flags too, but that an `RDC`
of a symbol without a code sets `ERR.NOENT` and answers `E_NOENT`; the same read again, with only its response taken between,
gives the same response and changes nothing more. -/
def Obligations.ReadsAreIdempotent : Prop :=
  ∀ (i : Instr) (s : State), i = .rdst ∨ (∃ x, i = .rdf x) ∨ (∃ x, i = .rdl x) ∨ (∃ x k, i = .rdc x k) →
    ∃ t, exec i s = .next t ∧ t.ft = s.ft ∧ t.ct = s.ct ∧ SameOutside s t ∧
      (∀ x k, i = .rdc x k → (tableGet s.ct x).v = false → t.err = { s.err with noent := true } ∧ Answers t 0x04 0) ∧
      ((∀ x k, i = .rdc x k → (tableGet s.ct x).v = true) → t.err = s.err) ∧
      ∀ u, u.ft = t.ft → u.ct = t.ct → u.err = t.err →
        ∃ u', exec i u = .next u' ∧ u'.rspreg = t.rspreg ∧ u'.ft = u.ft ∧ u'.ct = u.ct ∧ u'.err = u.err ∧ SameOutside u u'

/-- R36: the chunks put together give the code, bit 31 of chunk 7 is 0, bit `i` of the code is bit `i mod 32` of chunk
`floor(i / 32)`, and a chunk at or beyond the length is 0. -/
def Obligations.ChunksReassembleTheCode : Prop :=
  ∀ c : Code,
    ((List.range 8).map (fun k => (codeChunk c (BitVec.ofNat 3 k)).toNat * 2 ^ (32 * k))).sum = c.toNat ∧
    (codeChunk c 7).getLsbD 31 = false ∧
    (∀ i, i < 255 → c.getLsbD i = (codeChunk c (BitVec.ofNat 3 (i / 32))).getLsbD (i % 32)) ∧
    ∀ len, c.toNat < 2 ^ len → ∀ k : ChunkIdx, 32 * k.toNat ≥ len → codeChunk c k = 0

/-- R16: the stored form of a string of at most 255 bits gives the string back, its value fits its length, its first bit is
bit `len - 1`, and prefixing a bit adds `b * 2^len`. -/
def Obligations.StoredFormGivesTheStringBack : Prop :=
  ∀ t : List Bool, t.length ≤ 255 →
    (CtEntry.ofString t).str = t ∧ (CtEntry.ofString t).Stored ∧ (CtEntry.ofString t).len.toNat = t.length ∧
    (CtEntry.ofString t).code.toNat = strVal t ∧
    ∀ b : Bool, t.length < 255 → (CtEntry.ofString (b :: t)).code.toNat = (CtEntry.ofString t).code.toNat + b.toNat * 2 ^ t.length

/-- R100: a host that reads `RDL s` and then chunks 0 to `ceil(len / 32) - 1` with `RDC s, k` has the whole code. -/
def Obligations.ReadsRecoverTheCode : Prop :=
  ∀ (s : State) (x : Sym), CtStored s.ct → (tableGet s.ct x).v = true →
    ((List.range (((tableGet s.ct x).len.toNat + 31) / 32)).map (fun k =>
      (((s.after (.rdc x (BitVec.ofNat 3 k))).rspreg.getD 0).rdata).toNat * 2 ^ (32 * k))).sum = (tableGet s.ct x).code.toNat ∧
    ((((s.after (.rdl x)).rspreg.getD 0).rdata).extractLsb' 0 8).toNat = (tableGet s.ct x).str.length

/-! ## Build: the command -/

/-- R71, R83, R87, R88: with `n` of 1 to 256 symbols present `BUILD` replaces all of `CT` by the codes of the tree, clears `FT`,
answers `n` and leaves the flags and the ports alone, so that a second `BUILD` raises `E_EMPTY` and keeps the code table; with
none present it raises `E_EMPTY`, its only error, and leaves both tables. R71's example is
the last clause. (The working stores are in SequencerComputesTheBuild.) -/
def Obligations.BuildReplacesTheCodeTable : Prop :=
  encode .build = 0x080000000000 ∧
  (∀ s : State, s.ftn ≠ 0 → ∃ (T : Tree) (t : State), buildTree s.ft = some T ∧ exec .build s = .next t ∧
    (∀ p ∈ T.codes, (tableGet t.ct p.1).v = true ∧ (tableGet t.ct p.1).len.toNat = p.2.length ∧
      (tableGet t.ct p.1).code.toNat = strVal p.2) ∧
    (T.codes.map Prod.fst).Perm (present s.ft) ∧ (∀ p ∈ T.codes, p.2.length ≤ s.ftn - 1) ∧ s.ftn - 1 ≤ 255 ∧
    (∀ x, x ∉ present s.ft → tableGet t.ct x = ⟨false, 0, 0⟩) ∧
    (∀ x, tableGet t.ft x = 0) ∧ t.ftn = 0 ∧ t.err = s.err ∧ Answers t 0x00 (BitVec.ofNat 32 s.ftn) ∧ t.ctn = s.ftn ∧
    t.busy = s.busy ∧ t.held = s.held ∧ t.inputs = s.inputs ∧ t.taken = s.taken ∧
    ∃ t', exec .build t = .next t' ∧ Answers t' 0x01 0 ∧ t'.ct = t.ct ∧ t'.err = { s.err with empty := true }) ∧
  (∀ s : State, s.ftn = 0 → ∃ t, exec .build s = .next t ∧ Answers t 0x01 0 ∧ t.ft = s.ft ∧ t.ct = s.ct ∧
    t.err = { s.err with empty := true } ∧ t.busy = s.busy ∧ t.held = s.held ∧ t.inputs = s.inputs ∧ t.taken = s.taken) ∧
  ∀ s : State, tableGet s.ft 0x41 = 1 ∧ tableGet s.ft 0x42 = 1 ∧ tableGet s.ft 0x43 = 2 ∧
      (∀ x : Sym, x ≠ 0x41 → x ≠ 0x42 → x ≠ 0x43 → tableGet s.ft x = 0) →
    ∃ t, exec .build s = .next t ∧ Answers t 0x00 3 ∧ tableGet t.ct 0x41 = ⟨true, 2, 0b00⟩ ∧
      tableGet t.ct 0x42 = ⟨true, 2, 0b01⟩ ∧ tableGet t.ct 0x43 = ⟨true, 1, 0b1⟩

/-- R86: `BUILD` on an empty table raises `E_EMPTY` and leaves both tables and the other flags as they were. -/
def Obligations.BuildOnAnEmptyTableRaisesEmpty : Prop :=
  ∀ s : State, (∀ x, tableGet s.ft x = 0) → ∃ t, exec .build s = .next t ∧ Answers t 0x01 0 ∧ t.ft = s.ft ∧
    t.ct = s.ct ∧ t.err = { s.err with empty := true } ∧ t.busy = s.busy ∧ t.held = s.held ∧ t.inputs = s.inputs ∧
    t.taken = s.taken

/-- R84: a singleton's symbol gets the empty code, and no other build gives one. -/
def Obligations.SingletonGetsTheEmptyCode : Prop :=
  (∀ (s : State) (a : Sym), (∀ x, tableGet s.ft x ≠ 0 ↔ x = a) → ∃ t, exec .build s = .next t ∧
    tableGet t.ct a = ⟨true, 0, 0⟩ ∧ (∀ x, x ≠ a → tableGet t.ct x = ⟨false, 0, 0⟩) ∧ Answers t 0x00 1) ∧
  ∀ s : State, s.ftn ≥ 2 → ∃ t, exec .build s = .next t ∧ ∀ x ∈ present s.ft, (tableGet t.ct x).len ≠ 0

/-- R85: of two symbols the less frequent gets "0", on equal counts the smaller symbol; both codes have one bit. -/
def Obligations.TwoSymbolsGetOneBitEach : Prop :=
  ∀ (s : State) (a b : Sym), a ≠ b → (∀ x, tableGet s.ft x ≠ 0 ↔ (x = a ∨ x = b)) →
    (tableGet s.ft a < tableGet s.ft b ∨ (tableGet s.ft a = tableGet s.ft b ∧ a < b)) →
    ∃ t, exec .build s = .next t ∧ tableGet t.ct a = ⟨true, 1, 0⟩ ∧ tableGet t.ct b = ⟨true, 1, 1⟩ ∧
      (∀ x, x ≠ a → x ≠ b → tableGet t.ct x = ⟨false, 0, 0⟩) ∧ Answers t 0x00 2

/-- R89: what `BUILD` writes and answers depends on the frequency table alone; on an empty table it writes nothing (R86). -/
def Obligations.BuildDependsOnlyOnTheCounts : Prop :=
  ∀ s s' : State, s.ft = s'.ft → ∃ t t', exec .build s = .next t ∧ exec .build s' = .next t' ∧ t.rspreg = t'.rspreg ∧
    t.ft = t'.ft ∧ ((t.ct = t'.ct ∧ s.ftn ≠ 0) ∨ (t.ct = s.ct ∧ t'.ct = s'.ct ∧ s.ftn = 0))

/-! ## Build: the tree and its codes -/

/-- R75: in the live set after any number of merges, tags are pairwise distinct and the leaf sets disjoint, each tag is one of
its own leaves' symbols, and of two nodes exactly one has the smaller key. -/
def Obligations.LiveKeysAreDistinct : Prop :=
  ∀ (f : FreqTable) (k : Nat),
    ((mergePasses k (leafSet f)).map Tree.tag).Nodup ∧
    (((mergePasses k (leafSet f)).flatMap Tree.leaves).map Prod.fst).Nodup ∧
    (∀ t ∈ mergePasses k (leafSet f), t.tag ∈ t.leaves.map Prod.fst) ∧
    ∀ t ∈ mergePasses k (leafSet f), ∀ u ∈ mergePasses k (leafSet f), t ≠ u → (t.key.lt u.key = !(u.key.lt t.key))

/-- R72, R75: any run of the merge loop that extracts least keys, whatever the arrangement of its queue, gives the tree of
`buildTree` and no other. -/
def Obligations.AnyCorrectQueueGivesTheTree : Prop :=
  ∀ (f : FreqTable) (T : Tree), MergeRun (leafSet f) T ↔ buildTree f = some T

/-- R72, R80: the loop makes `n - 1` merges, each shrinking the live set by one, and ends with one tree of depth at most
`n - 1 <= 255`. -/
def Obligations.MergeLoopMakesOneTree : Prop :=
  ∀ f : FreqTable, ftnOf f ≠ 0 →
    (∀ k, k < ftnOf f → (mergePasses k (leafSet f)).length = ftnOf f - k) ∧
    ∃ T, buildTree f = some T ∧ (T.leaves.map Prod.fst).Perm (present f) ∧
      (∀ p ∈ T.codes, p.2.length ≤ ftnOf f - 1 ∧ p.2.length ≤ 255) ∧ (T.subtrees.filter Tree.isNode).length = ftnOf f - 1

/-- R94, R6: the weight of the tree is the sum of the counts, at most 2^40 - 256; every weight in the tree is at least 1 and
every internal weight at least 2. -/
def Obligations.WeightsFitFortyBits : Prop :=
  ∀ (f : FreqTable) (T : Tree), buildTree f = some T →
    T.weight = ((present f).map (fun x => (tableGet f x).toNat)).sum ∧ T.weight ≤ 2 ^ 40 - 256 ∧
    ∀ u ∈ T.subtrees, 1 ≤ u.weight ∧ u.weight ≤ T.weight ∧ (u.isNode = true → 2 ≤ u.weight)

/-- R90: the codes of a build of two or more symbols are prefix-free, distinct and not empty; a singleton's is the empty
string. -/
def Obligations.BuiltCodesArePrefixFree : Prop :=
  ∀ s : State, s.ftn ≠ 0 → ∃ t, exec .build s = .next t ∧
    (s.ftn ≥ 2 → (∀ a ∈ present s.ft, ∀ b ∈ present s.ft, a ≠ b →
        ¬ (tableGet t.ct a).str <+: (tableGet t.ct b).str ∧ (tableGet t.ct a).str ≠ (tableGet t.ct b).str) ∧
      ∀ a ∈ present s.ft, (tableGet t.ct a).str ≠ []) ∧
    (s.ftn = 1 → ∀ a ∈ present s.ft, (tableGet t.ct a).str = [])

/-- R91: with two or more symbols the Kraft sum is 1, every length lies between 1 and n - 1, and two deepest leaves are
siblings. -/
def Obligations.BuiltCodesFillTheTree : Prop :=
  ∀ s : State, s.ftn ≥ 2 → ∃ t, exec .build s = .next t ∧ kraftSum t.ct = 2 ^ 255 ∧
    (∀ x ∈ present s.ft, 1 ≤ (tableGet t.ct x).len.toNat ∧ (tableGet t.ct x).len.toNat ≤ s.ftn - 1) ∧
    ∃ a ∈ present s.ft, ∃ b ∈ present s.ft, ∃ u : List Bool,
      (tableGet t.ct a).str = u ++ [false] ∧ (tableGet t.ct b).str = u ++ [true] ∧
      ∀ x ∈ present s.ft, (tableGet t.ct x).len.toNat ≤ u.length + 1

/-- R92: the total length of the code table is the least of all prefix-free codes for the counts; a singleton's is 0. -/
def Obligations.BuiltCodesAreOptimal : Prop :=
  ∀ s : State, s.ftn ≠ 0 → ∃ t, exec .build s = .next t ∧
    (∀ g : Sym → List Bool, PrefixFreeOn (present s.ft) g →
      weightedLength s.ft t.ct ≤ ((present s.ft).map (fun x => (tableGet s.ft x).toNat * (g x).length)).sum) ∧
    (s.ftn = 1 → weightedLength s.ft t.ct = 0)

/-- R93: the total length is the number of bits an encoder emits for a record with those counts, and the sum of the weights of
the internal nodes. -/
def Obligations.TotalLengthIsConserved : Prop :=
  ∀ (s : State) (T : Tree), buildTree s.ft = some T → ∃ t, exec .build s = .next t ∧
    weightedLength s.ft t.ct = T.internalWeight ∧
    ∀ text : List Sym, (∀ x, text.count x = (tableGet s.ft x).toNat) →
      (emittedBits t.ct text).length = weightedLength s.ft t.ct

/-! ## Build: the hardware level -/

/-- R73: "The sequencer computes exactly rule R71": `BUILD` and the sequencer's run end in the same state, from every state
and every content of the working stores. -/
def Obligations.SequencerComputesTheBuild : Prop :=
  ∀ s : State, exec .build s = .next (runSequencer s)

/-- R73: `PHASE` steps IDLE, SCAN, MERGE, EXTRACT, FINISH, IDLE on success and IDLE, SCAN, IDLE on `E_EMPTY`. -/
def Obligations.PhasesFollowTheSequence : Prop :=
  ∀ s : State,
    (seqStart s).st.work.phase = .scan ∧
    (s.ftn ≠ 0 → (seqStep (seqStart s)).st.work.phase = .merge ∧
      (seqStep (seqStep (seqStart s))).st.work.phase = .extract ∧
      (seqStep (seqStep (seqStep (seqStart s)))).st.work.phase = .finish ∧
      (seqStep (seqStep (seqStep (seqStep (seqStart s))))).st.work.phase = .idle) ∧
    (s.ftn = 0 → (seqStep (seqStart s)).st.work.phase = .idle ∧
      (seqStep (seqStep (seqStart s))) = seqStep (seqStart s))

/-- R76: `heap_push` into a heap that has room keeps the heap order, adds the index and leaves the nodes alone. -/
def Obligations.HeapPushKeepsTheOrder : Prop :=
  ∀ (i : NIdx) (w : Working), HeapInv w → w.hsize.toNat < 256 →
    HeapInv (heapPush i w) ∧ (heapPush i w).live.Perm (i :: w.live) ∧
    (heapPush i w).hsize.toNat = w.hsize.toNat + 1 ∧ (heapPush i w).node = w.node

/-- R77: `heap_pop` of a heap that is not empty answers the top, whose key is least, removes it, keeps the heap order and
leaves the nodes alone. -/
def Obligations.HeapPopTakesTheLeast : Prop :=
  ∀ w : Working, HeapInv w → 1 ≤ w.hsize.toNat → w.hsize.toNat ≤ 256 →
    (heapPop w).1 = w.heapAt 0 ∧ (∀ j ∈ w.live, (w.keyOf j).lt (w.keyOf (heapPop w).1) = false) ∧
    HeapInv (heapPop w).2 ∧ w.live.Perm ((heapPop w).1 :: (heapPop w).2.live) ∧
    (heapPop w).2.hsize.toNat = w.hsize.toNat - 1 ∧ (heapPop w).2.node = w.node

/-- R79, R20: after a successful build nodes 0 to n-1 are the leaves in ascending symbol order, n to 2n-2 internal nodes with
children of smaller index, 2n-2 the root and only heap entry; entries from 2n-1 on are as before. -/
def Obligations.NodesAreNumberedByCreation : Prop :=
  ∀ (s t : State), s.ftn ≠ 0 → exec .build s = .next t →
    (∀ (j : Nat) (x : Sym), (present s.ft)[j]? = some x →
      (t.work.nodeAt (BitVec.ofNat 9 j)).leaf = true ∧ (t.work.nodeAt (BitVec.ofNat 9 j)).sym = x ∧
      (t.work.nodeAt (BitVec.ofNat 9 j)).tag = x ∧
      (t.work.nodeAt (BitVec.ofNat 9 j)).w.toNat = (tableGet s.ft x).toNat) ∧
    (∀ m, s.ftn ≤ m → m ≤ 2 * s.ftn - 2 →
      (t.work.nodeAt (BitVec.ofNat 9 m)).leaf = false ∧ (t.work.nodeAt (BitVec.ofNat 9 m)).left.toNat < m ∧
      (t.work.nodeAt (BitVec.ofNat 9 m)).right.toNat < m) ∧
    (∀ m, m < 2 * s.ftn - 2 → m < (t.work.nodeAt (BitVec.ofNat 9 m)).parent.toNat ∧
      (t.work.nodeAt (BitVec.ofNat 9 m)).parent.toNat ≤ 2 * s.ftn - 2) ∧
    t.work.hsize = 1 ∧ (t.work.heapAt 0).toNat = 2 * s.ftn - 2 ∧ t.work.nnext.toNat = nodesOf s.ft ∧
    ∀ m, nodesOf s.ft ≤ m → t.work.node[m]? = s.work.node[m]?

/-- R20, R78: after a successful build a node's `parent` and `pbit` are determined by the `left` and `right` of the parent: 0
if it is the `left` child, 1 if the `right`. -/
def Obligations.BranchBitsMatchTheChildren : Prop :=
  ∀ (s t : State) (m : Nat), s.ftn ≠ 0 → exec .build s = .next t → m < 2 * s.ftn - 2 →
    if (t.work.nodeAt (BitVec.ofNat 9 m)).pbit then
      (t.work.nodeAt (t.work.nodeAt (BitVec.ofNat 9 m)).parent).right = BitVec.ofNat 9 m
    else (t.work.nodeAt (t.work.nodeAt (BitVec.ofNat 9 m)).parent).left = BitVec.ofNat 9 m

/-! ## Whole machine -/

/-- R26: two states that agree on `FT`, `CT` and `ERR` answer every sequence of words alike, whatever their working stores. -/
def Obligations.WorkingStoresAreNotObservable : Prop :=
  ∀ (ws : List Cmd) (s s' : State), SameArchitecture s s' →
    session ws s = session ws s' ∧ SameArchitecture (s.afterWords ws) (s'.afterWords ws)

/-- R54, R55, R138: every accepted word, in every state, runs to a next state with one response, of a status of R55, with data
0 on an error. -/
def Obligations.EveryWordGetsALegalResponse : Prop :=
  ∀ (w : Cmd) (s : State), ∃ t st d, runCommand w s = .next t ∧ Answers t st d ∧
    (st = 0x00 ∨ st = 0x01 ∨ st = 0x02 ∨ st = 0x03 ∨ st = 0x04) ∧ (st ≠ 0x00 → d = 0)

/-- R108: a word that answers an error sets that error's flag and changes neither table nor another flag; one that answers OK
sets no flag. -/
def Obligations.ErrorsArePrecise : Prop :=
  ∀ (w : Cmd) (s t : State) (r : Rsp), runCommand w s = .next t → t.rspreg = some r →
    (r.status ≠ 0x00 → ∃ e, r = Rsp.make (errStatus e) 0 ∧ t.ft = s.ft ∧ t.ct = s.ct ∧ t.err.flag e = true ∧
      ∀ e', e' ≠ e → t.err.flag e' = s.err.flag e') ∧
    (r.status = 0x00 → ∀ e, t.err.flag e = true → s.err.flag e = true)

/-- R109, R60: an illegal word raises `E_ILLEGAL` and nothing of its opcode's rule applies, in any state: also a `BUILD` word with
a reserved bit set on an empty table, such an `INCF` word at the largest count, and an `RDC` word with a chunk of 8 or more where
the symbol has no entry. Only a legal word reaches its command's own check: `E_EMPTY` comes from `BUILD`, `E_CNTOVF` from `INCF`,
`E_NOENT` from `RDC`. -/
def Obligations.DecodeCheckComesFirst : Prop :=
  (∀ (w : Cmd) (s : State), (∃ e, decode w = .error e) → ∃ t, runCommand w s = .next t ∧ Answers t 0x02 0 ∧
    t.err = { s.err with illegal := true } ∧ t.ft = s.ft ∧ t.ct = s.ct ∧ SameOutside s t) ∧
  (∀ w : Cmd, (w.op = 0x08 ∧ (w.sym ≠ 0 ∨ w.data ≠ 0)) ∨ (w.op = 0x04 ∧ w.data ≠ 0) ∨
    (w.op = 0x12 ∧ w.data.toNat ≥ 8) → ∃ e, decode w = .error e) ∧
  ∀ (w : Cmd) (s t : State), runCommand w s = .next t →
    (t.rspreg = some (Rsp.make 0x01 0) → decode w = .ok .build) ∧
    (t.rspreg = some (Rsp.make 0x03 0) → ∃ x, decode w = .ok (.incf x)) ∧
    (t.rspreg = some (Rsp.make 0x04 0) → ∃ x k, decode w = .ok (.rdc x k))

/-- R18, R110: a flag that is set stays set over every step but reset and an accepted `INIT`. -/
def Obligations.FlagsAreSticky : Prop :=
  ∀ (s t : State) (e : ErrCode), step s = .next t → s.err.flag e = true → t.err.flag e = false →
    s.resetsNext = true ∨ ∃ w, s.acceptedWord = some w ∧ decode w = .ok .init

/-- R18, R107: the flags change no command's behaviour: from states that differ in `ERR` alone, every word leads to the same
tables and, unless it is `RDST`, to the same response. -/
def Obligations.FlagsDoNotChangeBehaviour : Prop :=
  ∀ (w : Cmd) (s : State) (e : ErrFlags), ∃ t t', runCommand w s = .next t ∧ runCommand w { s with err := e } = .next t' ∧
    t.ft = t'.ft ∧ t.ct = t'.ct ∧ (decode w ≠ .ok .rdst → t.rspreg = t'.rspreg)

/-- R15, R13, R42: `CT` changes only by reset, `INIT` and a `BUILD` of a non-empty table; `FT` only by reset, `INIT`, `CLRF`,
`SETF`, `INCF` and `BUILD`. -/
def Obligations.TablesChangeOnlyByTheirCommands : Prop :=
  ∀ s t : State, step s = .next t →
    (t.ct ≠ s.ct → s.resetsNext = true ∨ ∃ w, s.acceptedWord = some w ∧
      (decode w = .ok .init ∨ (decode w = .ok .build ∧ s.ftn ≠ 0))) ∧
    (t.ft ≠ s.ft → s.resetsNext = true ∨ ∃ w, s.acceptedWord = some w ∧
      (decode w = .ok .init ∨ decode w = .ok .clrf ∨ decode w = .ok .build ∨ (∃ x c, decode w = .ok (.setf x c)) ∨
        ∃ x, decode w = .ok (.incf x)))

/-- R101, R25: over any sequence of words without `INIT` and without a `BUILD`, the code table stays what it was: reads return
the table of the most recent successful build. -/
def Obligations.CodeTableIsRetained : Prop :=
  ∀ (ws : List Cmd) (s : State), (∀ w ∈ ws, decode w ≠ .ok .init ∧ decode w ≠ .ok .build) →
    (s.afterWords ws).ct = s.ct

/-- R107: after an error the same word on the unchanged tables fails the same way. -/
def Obligations.RepeatedErrorsAreTheSame : Prop :=
  ∀ (w : Cmd) (s t : State) (r : Rsp), runCommand w s = .next t → t.rspreg = some r → r.status ≠ 0x00 →
    ∃ t', runCommand w t = .next t' ∧ t'.rspreg = some r ∧ SameArchitecture t t'
end

