-- ==== Sys2Proof/Laws/Width.lean ====
section
/-! SUPPORT. The numbers behind the names of R5, for proofs that need one: each name's value (all by evaluation), and the
bound a word's width sets, as a numeral that `omega` can use. -/

namespace Sys2Proof

theorem Config.symW_eq : Config.symW = 8 := rfl
theorem Config.nsym_eq : Config.nsym = 256 := rfl
theorem Config.cntW_eq : Config.cntW = 32 := rfl
theorem Config.wgtW_eq : Config.wgtW = 40 := rfl
theorem Config.lenW_eq : Config.lenW = 8 := rfl
theorem Config.codeW_eq : Config.codeW = 255 := rfl
theorem Config.nnode_eq : Config.nnode = 511 := rfl
theorem Config.nidxW_eq : Config.nidxW = 9 := rfl
theorem Config.nheap_eq : Config.nheap = 256 := rfl
theorem Config.dataW_eq : Config.dataW = 32 := rfl
theorem Config.cmdW_eq : Config.cmdW = 48 := rfl
theorem Config.rspW_eq : Config.rspW = 40 := rfl
theorem Config.chunkW_eq : Config.chunkW = 32 := rfl
theorem Config.chunkIdxW_eq : Config.chunkIdxW = 3 := rfl
theorem Config.nchunk_eq : Config.nchunk = 8 := rfl
theorem Config.maxCount_eq : Config.maxCount = 0xFFFFFFFF := rfl

theorem Sym.toNat_lt (s : Sym) : s.toNat < 256 := s.isLt
theorem Count.toNat_lt (c : Count) : c.toNat < 4294967296 := c.isLt
theorem Weight.toNat_lt (w : Weight) : w.toNat < 1099511627776 := w.isLt
theorem Len.toNat_lt (l : Len) : l.toNat < 256 := l.isLt
theorem Code.toNat_lt (c : Code) : c.toNat < 2 ^ 255 := c.isLt
theorem NIdx.toNat_lt (i : NIdx) : i.toNat < 512 := i.isLt
theorem ChunkIdx.toNat_lt (k : ChunkIdx) : k.toNat < 8 := k.isLt

/-! A word made from a number, and the sums the model forms, with the modulus as a numeral. -/

theorem Sym.toNat_ofNat (n : Nat) : (BitVec.ofNat Config.symW n).toNat = n % 256 := rfl
theorem Count.toNat_ofNat (n : Nat) : (BitVec.ofNat Config.cntW n).toNat = n % 4294967296 := rfl
theorem Weight.toNat_ofNat (n : Nat) : (BitVec.ofNat Config.wgtW n).toNat = n % 1099511627776 := rfl
theorem Len.toNat_ofNat (n : Nat) : (BitVec.ofNat Config.lenW n).toNat = n % 256 := rfl
theorem Code.toNat_ofNat (n : Nat) : (BitVec.ofNat Config.codeW n).toNat = n % 2 ^ 255 := rfl
theorem NIdx.toNat_ofNat (n : Nat) : (BitVec.ofNat Config.nidxW n).toNat = n % 512 := rfl
theorem Data.toNat_ofNat (n : Nat) : (BitVec.ofNat Config.dataW n).toNat = n % 4294967296 := rfl

theorem Count.toNat_succ (c : Count) : (c + 1).toNat = (c.toNat + 1) % 4294967296 := rfl
theorem Weight.toNat_add (a b : Weight) : (a + b).toNat = (a.toNat + b.toNat) % 1099511627776 := rfl
theorem NIdx.toNat_succ (i : NIdx) : (i + 1).toNat = (i.toNat + 1) % 512 := rfl
theorem NIdx.toNat_pred (i : NIdx) : (i - 1).toNat = (512 - 1 + i.toNat) % 512 := rfl

/-- A count fits a weight (R94: exact). -/
theorem Count.toNat_weight (c : Count) : (c.zeroExtend Config.wgtW).toNat = c.toNat := by
  rw [BitVec.zeroExtend, BitVec.toNat_setWidth]
  exact Nat.mod_eq_of_lt (Nat.lt_trans c.isLt (by decide))

end Sys2Proof
end

