-- ==== Sys2Proof/Laws/Table.lean ====
section
/-! SUPPORT. The tables indexed by symbol: read after write, equality entry by entry, the loop over all symbols, and the
symbols that are present or coded. -/

namespace Sys2Proof.Machine

variable {α : Type}

@[simp] theorem tableGet_replicate (x : α) (s : Sym) : tableGet (Vector.replicate Config.nsym x) s = x := by
  simp [tableGet]

/-- A read after a write to the same entry gives the value written. -/
@[simp] theorem tableGet_tableSet_self (t : Vector α Config.nsym) (s : Sym) (x : α) : tableGet (tableSet t s x) s = x := by
  simp [tableGet, tableSet]

/-- A write leaves every other entry alone. -/
theorem tableGet_tableSet_ne (t : Vector α Config.nsym) {s u : Sym} (x : α) (h : u ≠ s) :
    tableGet (tableSet t s x) u = tableGet t u := by
  have : s.toNat ≠ u.toNat := fun e => h (BitVec.eq_of_toNat_eq e).symm
  simp [tableGet, tableSet, this]

/-- What a read gives after a write, in one equation. -/
theorem tableGet_tableSet (t : Vector α Config.nsym) (s u : Sym) (x : α) :
    tableGet (tableSet t s x) u = if u = s then x else tableGet t u := by
  split
  · next h => subst h; simp
  · next h => exact tableGet_tableSet_ne t x h

/-- Two tables are equal when all their entries are. -/
theorem table_ext {t u : Vector α Config.nsym} (h : ∀ s : Sym, tableGet t s = tableGet u s) : t = u := by
  apply Vector.ext
  intro i hi
  have := h (BitVec.ofNat Config.symW i)
  have e : (BitVec.ofNat Config.symW i).toNat = i := Nat.mod_eq_of_lt hi
  simpa only [tableGet, e] using this

theorem length_allSyms : allSyms.length = Config.nsym := by simp [allSyms]

theorem getElem_allSyms (i : Nat) (h : i < allSyms.length) : allSyms[i] = BitVec.ofNat Config.symW i := by
  simp [allSyms]

/-- Every symbol is met by a loop over all symbols. -/
@[simp] theorem mem_allSyms (s : Sym) : s ∈ allSyms :=
  List.mem_map.2 ⟨s.toNat, List.mem_range.2 s.isLt, by simp⟩

/-- A loop over all symbols meets each once. -/
theorem nodup_allSyms : allSyms.Nodup := by
  refine List.Nodup.map_on ?_ List.nodup_range
  intro a ha b hb h
  have h' := congrArg BitVec.toNat h
  simp only [Sym.toNat_ofNat, List.mem_range, Config.nsym_eq] at h' ha hb
  omega

/-- The loop over all symbols is ascending (R7). -/
theorem sorted_allSyms : allSyms.Pairwise (· < ·) := by
  refine List.pairwise_map.2 (List.Pairwise.imp_of_mem ?_ List.pairwise_lt_range)
  intro a b ha hb h
  rw [List.mem_range, Config.nsym_eq] at ha hb
  simp only [BitVec.lt_def, Sym.toNat_ofNat]
  omega

/-- The entries of a table are its symbols paired with what a read gives. -/
theorem entries_eq_map (t : Vector α Config.nsym) : entries t = allSyms.map (fun s => (s, tableGet t s)) := by
  apply List.ext_getElem
  · simp [entries, length_allSyms]
  · intro i h1 h2
    have hi : i < Config.nsym := by simpa [length_allSyms] using h2
    have e : i % 2 ^ Config.symW = i := Nat.mod_eq_of_lt hi
    simp [entries, getElem_allSyms, tableGet, e]

/-- The symbols whose entry passes a test, as a filter of the loop over all symbols. -/
theorem symsWhere_eq_filter (q : α → Bool) (t : Vector α Config.nsym) :
    symsWhere q t = allSyms.filter (fun s => q (tableGet t s)) := by
  rw [symsWhere, entries_eq_map, List.filter_map, List.map_map]
  have : (Prod.fst ∘ fun s : Sym => (s, tableGet t s)) = id := rfl
  rw [this, List.map_id]
  rfl

@[simp] theorem mem_symsWhere (q : α → Bool) (t : Vector α Config.nsym) (s : Sym) :
    s ∈ symsWhere q t ↔ q (tableGet t s) = true := by
  simp [symsWhere_eq_filter]

theorem nodup_symsWhere (q : α → Bool) (t : Vector α Config.nsym) : (symsWhere q t).Nodup := by
  rw [symsWhere_eq_filter]; exact nodup_allSyms.filter _

theorem length_symsWhere_le (q : α → Bool) (t : Vector α Config.nsym) : (symsWhere q t).length ≤ Config.nsym := by
  rw [symsWhere_eq_filter, ← length_allSyms]; exact List.length_filter_le _ _

/-- A symbol is present exactly when its count is not 0 (R13). -/
theorem mem_present (f : FreqTable) (s : Sym) : s ∈ present f ↔ tableGet f s ≠ 0 := by
  simp [present]

theorem nodup_present (f : FreqTable) : (present f).Nodup := nodup_symsWhere _ f

/-- A symbol is coded exactly when its entry is valid (R15). -/
theorem mem_coded (c : CodeTable) (s : Sym) : s ∈ coded c ↔ (tableGet c s).v = true := by
  simp [coded]

theorem nodup_coded (c : CodeTable) : (coded c).Nodup := nodup_symsWhere _ c

/-- `FTN` is a value in 0 to 256 (R14). -/
theorem ftnOf_le (f : FreqTable) : ftnOf f ≤ 256 := length_symsWhere_le _ f

/-- `CTN` is a value in 0 to 256 (R17). -/
theorem ctnOf_le (c : CodeTable) : ctnOf c ≤ 256 := length_symsWhere_le _ c

/-- The table is empty exactly when every count is 0 (R14). -/
theorem ftnOf_eq_zero (f : FreqTable) : ftnOf f = 0 ↔ ∀ s, tableGet f s = 0 := by
  rw [ftnOf, List.length_eq_zero_iff, List.eq_nil_iff_forall_not_mem]
  simp [mem_present]

@[simp] theorem ftnOf_replicate : ftnOf (Vector.replicate Config.nsym 0) = 0 := by
  simp [ftnOf_eq_zero]

@[simp] theorem ctnOf_replicate : ctnOf (Vector.replicate Config.nsym CtEntry.absent) = 0 := by
  rw [ctnOf, List.length_eq_zero_iff, List.eq_nil_iff_forall_not_mem]
  simp [mem_coded, CtEntry.absent]

/-- `RDL`'s data as the number R97 gives: `v` above `len`. -/
theorem lengthWord_toNat (e : CtEntry) : (lengthWord e).toNat = e.v.toNat * 2 ^ 8 + e.len.toNat := by
  have h := e.len.isLt
  have e9 : (BitVec.ofBool e.v ++ e.len).toNat = e.v.toNat * 2 ^ 8 + e.len.toNat := by
    rw [BitVec.toNat_append, ← Nat.shiftLeft_add_eq_or_of_lt h, Nat.shiftLeft_eq, BitVec.toNat_ofBool]
  rw [lengthWord, BitVec.zeroExtend, BitVec.toNat_setWidth, e9]
  exact Nat.mod_eq_of_lt (by cases e.v <;> simp [Config.lenW_eq, Config.dataW_eq] at * <;> omega)

/-- `STATUS` is the 32 bits of R19: the data of a response is exactly as wide. -/
theorem statusWord_eq (c : CodeTable) (f : FreqTable) (e : ErrFlags) :
    statusWord c f e = BitVec.ofBool e.noent ++ BitVec.ofBool e.cntovf ++ BitVec.ofBool e.illegal ++
      BitVec.ofBool e.empty ++ 0#3 ++ BitVec.ofNat 9 (ftnOf f) ++ 0#7 ++ BitVec.ofNat 9 (ctnOf c) :=
  BitVec.setWidth_eq _

end Sys2Proof.Machine
end

