-- ==== Sys2Proof/Laws/Tree.lean ====
section
/-! SUPPORT. The abstract level of the build: the key order, the extraction of the least element, one merge pass, and the
value of a bit-string. Later proofs cite these and do not unfold the definitions. -/

namespace Sys2Proof.Machine

/-! The key order (R74) -/

theorem Key.lt_iff (a b : Key) : a.lt b = true ↔ a.weight < b.weight ∨ (a.weight = b.weight ∧ a.tag < b.tag) := by
  simp [Key.lt]

/-- "Equal operands: `key_lt(a, a)` is false" (R94). -/
@[simp] theorem Key.lt_irrefl (a : Key) : a.lt a = false := by
  rw [Bool.eq_false_iff]; intro h; rw [Key.lt_iff] at h; simp at h

theorem Key.lt_trans {a b c : Key} (h1 : a.lt b = true) (h2 : b.lt c = true) : a.lt c = true := by
  rw [Key.lt_iff, BitVec.lt_def] at *; omega

theorem Key.lt_asymm {a b : Key} (h : a.lt b = true) : b.lt a = false := by
  rw [Bool.eq_false_iff]; intro h2; rw [Key.lt_iff, BitVec.lt_def] at *; omega

/-- "Not less" is transitive: the order is total. -/
theorem Key.not_lt_trans {a b c : Key} (h1 : b.lt a = false) (h2 : c.lt b = false) : c.lt a = false := by
  rw [Bool.eq_false_iff] at *
  rw [Ne, Key.lt_iff, BitVec.lt_def] at *; omega

/-- Keys with different tags are comparable (R75). -/
theorem Key.lt_of_tag_ne {a b : Key} (h : a.tag ≠ b.tag) (h2 : b.lt a = false) : a.lt b = true := by
  rw [Bool.eq_false_iff] at h2
  have : a.tag.toNat ≠ b.tag.toNat := fun e => h (BitVec.eq_of_toNat_eq e)
  rw [Ne, Key.lt_iff, BitVec.lt_def] at h2
  rw [Key.lt_iff, BitVec.lt_def]; omega

theorem minSym_eq_or (a b : Sym) : minSym a b = a ∨ minSym a b = b := by
  unfold minSym; split <;> simp

theorem minSym_le_left (a b : Sym) : minSym a b ≤ a := by
  unfold minSym; split
  · next h => exact BitVec.le_of_lt h
  · exact BitVec.le_refl a

theorem minSym_le_right (a b : Sym) : minSym a b ≤ b := by
  unfold minSym; split
  · exact BitVec.le_refl b
  · next h => exact BitVec.not_lt.mp h

/-! Extraction of the least element (R72) -/

/-- Extraction removes one element and keeps the rest. -/
theorem takeLeast_perm (t : Tree) (l : List Tree) : ((takeLeast t l).1 :: (takeLeast t l).2).Perm (t :: l) := by
  induction l generalizing t with
  | nil => exact List.Perm.refl _
  | cons u us ih =>
    unfold takeLeast
    split
    · exact (List.Perm.swap _ _ _).trans ((ih u).cons t)
    · exact (List.Perm.swap _ _ _).trans (((ih t).cons u).trans (List.Perm.swap _ _ _))

/-- No element of the live set has a smaller key than the one extracted. -/
theorem takeLeast_least (t : Tree) (l : List Tree) : ∀ u ∈ t :: l, u.key.lt (takeLeast t l).1.key = false := by
  induction l generalizing t with
  | nil => intro u hu; rw [List.mem_singleton] at hu; subst hu; exact Key.lt_irrefl _
  | cons v vs ih =>
    unfold takeLeast
    split
    · next h =>
      intro u hu
      rcases List.mem_cons.1 hu with rfl | hu
      · exact Key.not_lt_trans (ih v v List.mem_cons_self) (Key.lt_asymm h)
      · exact ih v u hu
    · next h =>
      intro u hu
      rcases List.mem_cons.1 hu with rfl | hu
      · exact ih u u List.mem_cons_self
      · rcases List.mem_cons.1 hu with rfl | hu
        · exact Key.not_lt_trans (ih t t List.mem_cons_self) (by simpa using h)
        · exact ih t u (List.mem_cons_of_mem _ hu)

theorem takeLeast_length (t : Tree) (l : List Tree) : (takeLeast t l).2.length = l.length := by
  have := (takeLeast_perm t l).length_eq
  simpa using this

/-- One merge pass on two or more elements, in one statement: `lo` and `hi` leave, their node enters (R72). -/
theorem mergeOnce_cons_cons (t u : Tree) (us : List Tree) :
    ∃ lo hi rest, mergeOnce (t :: u :: us) = .node lo hi :: rest ∧ (lo :: hi :: rest).Perm (t :: u :: us) ∧
      (∀ x ∈ hi :: rest, x.key.lt lo.key = false) ∧ ∀ x ∈ rest, x.key.lt hi.key = false := by
  have hp := takeLeast_perm t (u :: us)
  have hl := takeLeast_least t (u :: us)
  have hn := takeLeast_length t (u :: us)
  rcases hq : takeLeast t (u :: us) with ⟨lo, r⟩
  rw [hq] at hp hl hn
  cases r with
  | nil => simp at hn
  | cons v vs =>
    have hp2 := takeLeast_perm v vs
    refine ⟨lo, (takeLeast v vs).1, (takeLeast v vs).2, by simp [mergeOnce, hq], (hp2.cons lo).trans hp, ?_, ?_⟩
    · intro x hx
      exact hl x (hp.subset (List.mem_cons_of_mem _ (hp2.subset hx)))
    · intro x hx
      exact takeLeast_least v vs x (hp2.subset (List.mem_cons_of_mem _ hx))

/-- A merge pass shrinks a live set of two or more by one (R72). -/
theorem mergeOnce_length (q : List Tree) : (mergeOnce q).length = if q.length ≤ 1 then q.length else q.length - 1 := by
  match q with
  | [] => rfl
  | [_] => rfl
  | t :: u :: us =>
    obtain ⟨lo, hi, rest, h, hp, -, -⟩ := mergeOnce_cons_cons t u us
    have := hp.length_eq
    simp only [List.length_cons] at this
    rw [h]; simp only [List.length_cons]; split <;> omega

/-! The value of a bit-string (R7, R16) -/

theorem strVal_foldl (t : List Bool) (n : Nat) :
    t.foldl (fun n b => 2 * n + b.toNat) n = n * 2 ^ t.length + strVal t := by
  induction t generalizing n with
  | nil => simp [strVal]
  | cons b t ih =>
    have h0 := ih b.toNat
    have h1 := ih (2 * n + b.toNat)
    simp only [strVal, List.foldl_cons, List.length_cons, Nat.mul_zero, Nat.zero_add] at *
    rw [h1, h0, Nat.pow_succ]; ring

@[simp] theorem strVal_nil : strVal [] = 0 := rfl

/-- Prefixing a bit adds it at position `len` (R16). -/
theorem strVal_cons (b : Bool) (t : List Bool) : strVal (b :: t) = b.toNat * 2 ^ t.length + strVal t := by
  have := strVal_foldl t b.toNat
  simpa [strVal] using this

/-- A string of `len` bits has a value below 2^len. -/
theorem strVal_lt (t : List Bool) : strVal t < 2 ^ t.length := by
  induction t with
  | nil => simp
  | cons b t ih =>
    rw [strVal_cons, List.length_cons, Nat.pow_succ]
    cases b <;> simp <;> omega

theorem strOf_length (n : Nat) (c : Code) : (strOf n c).length = n := by simp [strOf]

/-! The tree (R8, R82) -/

/-- The symbols of the codes are the symbols of the leaves, in the same order (R82). -/
theorem Tree.codes_syms (t : Tree) : t.codes.map Prod.fst = t.leaves.map Prod.fst := by
  induction t with
  | leaf s w => rfl
  | node l r hl hr => simp [Tree.codes, Tree.leaves, List.map_map, ← hl, ← hr, Function.comp_def]

/-- The weight of a tree is the sum of its leaves' weights (R8). -/
theorem Tree.weight_eq_sum (t : Tree) : t.weight = (t.leaves.map Prod.snd).sum := by
  induction t with
  | leaf s w => simp [Tree.weight, Tree.leaves]
  | node l r hl hr => simp [Tree.weight, Tree.leaves, hl, hr]

/-- The tag is the symbol of one of the leaves (R75). -/
theorem Tree.tag_mem (t : Tree) : t.tag ∈ t.leaves.map Prod.fst := by
  induction t with
  | leaf s w => simp [Tree.tag, Tree.leaves]
  | node l r hl hr =>
    simp only [Tree.tag, Tree.leaves, List.map_append, List.mem_append]
    rcases minSym_eq_or l.tag r.tag with h | h <;> rw [h]
    · exact Or.inl hl
    · exact Or.inr hr

theorem leafSet_length (f : FreqTable) : (leafSet f).length = ftnOf f := by simp [leafSet, ftnOf]

end Sys2Proof.Machine
end

