-- ==== Sys2Proof/Laws/Sequencer.lean ====
section
/-! SUPPORT. The stores of the hardware level: read after write, and what the heap operations leave alone. -/

namespace Sys2Proof.Machine

theorem Working.nodeAt_setNode (w : Working) (i j : NIdx) (n : Node) :
    (w.setNode i n).nodeAt j = if j = i ∧ i.toNat < Config.nnode then n else w.nodeAt j := by
  unfold Working.nodeAt Working.setNode
  by_cases h : j = i
  · subst h
    by_cases h2 : j.toNat < Config.nnode
    · simp [h2]
    · simp [h2]
  · have : i.toNat ≠ j.toNat := fun e => h (BitVec.eq_of_toNat_eq e).symm
    simp [h, this]

theorem Working.heapAt_setHeap (w : Working) (p q : Nat) (i : NIdx) :
    (w.setHeap p i).heapAt q = if q = p ∧ p < Config.nheap then i else w.heapAt q := by
  unfold Working.heapAt Working.setHeap
  by_cases h : q = p
  · subst h
    by_cases h2 : q < Config.nheap
    · simp [h2]
    · simp [h2]
  · simp [h, Ne.symm h]

@[simp] theorem Working.setNode_heap (w : Working) (i : NIdx) (n : Node) : (w.setNode i n).heap = w.heap := rfl
@[simp] theorem Working.setNode_hsize (w : Working) (i : NIdx) (n : Node) : (w.setNode i n).hsize = w.hsize := rfl
@[simp] theorem Working.setNode_nnext (w : Working) (i : NIdx) (n : Node) : (w.setNode i n).nnext = w.nnext := rfl
@[simp] theorem Working.setNode_phase (w : Working) (i : NIdx) (n : Node) : (w.setNode i n).phase = w.phase := rfl
@[simp] theorem Working.setHeap_node (w : Working) (p : Nat) (i : NIdx) : (w.setHeap p i).node = w.node := rfl
@[simp] theorem Working.setHeap_hsize (w : Working) (p : Nat) (i : NIdx) : (w.setHeap p i).hsize = w.hsize := rfl
@[simp] theorem Working.setHeap_nnext (w : Working) (p : Nat) (i : NIdx) : (w.setHeap p i).nnext = w.nnext := rfl
@[simp] theorem Working.setHeap_phase (w : Working) (p : Nat) (i : NIdx) : (w.setHeap p i).phase = w.phase := rfl
@[simp] theorem Working.setPhase_phase (w : Working) (p : Phase) : (w.setPhase p).phase = p := rfl
@[simp] theorem Working.setPhase_node (w : Working) (p : Phase) : (w.setPhase p).node = w.node := rfl
@[simp] theorem Working.setPhase_heap (w : Working) (p : Phase) : (w.setPhase p).heap = w.heap := rfl
@[simp] theorem Working.setPhase_hsize (w : Working) (p : Phase) : (w.setPhase p).hsize = w.hsize := rfl
@[simp] theorem Working.setPhase_nnext (w : Working) (p : Phase) : (w.setPhase p).nnext = w.nnext := rfl

/-- What a heap operation does not touch: the node store, the counters, the phase. -/
def SameButHeap (w u : Working) : Prop := u.node = w.node ∧ u.hsize = w.hsize ∧ u.nnext = w.nnext ∧ u.phase = w.phase

theorem SameButHeap.refl (w : Working) : SameButHeap w w := ⟨rfl, rfl, rfl, rfl⟩

theorem SameButHeap.trans {a b c : Working} (h : SameButHeap a b) (h2 : SameButHeap b c) : SameButHeap a c :=
  ⟨h2.1.trans h.1, h2.2.1.trans h.2.1, h2.2.2.1.trans h.2.2.1, h2.2.2.2.trans h.2.2.2⟩

theorem swapHeap_same (w : Working) (p q : Nat) : SameButHeap w (w.swapHeap p q) := ⟨rfl, rfl, rfl, rfl⟩

/-- The upward loop only moves heap entries (R76). -/
theorem siftUp_same (n p : Nat) (w : Working) : SameButHeap w (siftUp n p w) := by
  induction n generalizing p w with
  | zero => exact SameButHeap.refl w
  | succ n ih =>
    unfold siftUp
    split
    · split
      · exact (swapHeap_same w _ _).trans (ih _ _)
      · exact SameButHeap.refl w
    · exact SameButHeap.refl w

/-- The downward loop only moves heap entries (R77). -/
theorem siftDown_same (n p : Nat) (w : Working) : SameButHeap w (siftDown n p w) := by
  induction n generalizing p w with
  | zero => exact SameButHeap.refl w
  | succ n ih =>
    unfold siftDown
    split
    · exact SameButHeap.refl w
    · exact (swapHeap_same w _ _).trans (ih _ _)

/-- What `heap_push` leaves alone, and the size it leaves (R76). -/
theorem heapPush_frame (i : NIdx) (w : Working) :
    (heapPush i w).node = w.node ∧ (heapPush i w).hsize = w.hsize + 1 ∧ (heapPush i w).nnext = w.nnext ∧
      (heapPush i w).phase = w.phase :=
  siftUp_same _ _ { w.setHeap w.hsize.toNat i with hsize := w.hsize + 1 }

/-- What `heap_pop` leaves alone, and the size it leaves (R77). -/
theorem heapPop_frame (w : Working) :
    (heapPop w).2.node = w.node ∧ (heapPop w).2.hsize = w.hsize - 1 ∧ (heapPop w).2.nnext = w.nnext ∧
      (heapPop w).2.phase = w.phase := by
  unfold heapPop
  dsimp only
  split
  · exact siftDown_same _ _ _
  · exact ⟨rfl, rfl, rfl, rfl⟩

/-- `heap_pop` answers the entry at the top (R77). -/
@[simp] theorem heapPop_fst (w : Working) : (heapPop w).1 = w.heapAt 0 := rfl

/-- `merge` counts one node more and keeps the phase (R78). -/
theorem mergeNodes_frame (lo hi : NIdx) (w : Working) :
    (mergeNodes lo hi w).hsize = w.hsize + 1 ∧ (mergeNodes lo hi w).nnext = w.nnext + 1 ∧
      (mergeNodes lo hi w).phase = w.phase := by
  unfold mergeNodes
  dsimp only
  refine ⟨?_, rfl, ?_⟩
  · rw [(heapPush_frame _ _).2.1]; rfl
  · rw [(heapPush_frame _ _).2.2.2]; rfl

/-- One present symbol in SCAN counts one node and one heap entry more and keeps the phase (R73). -/
theorem scanLeaf_frame (s : Sym) (c : Count) (w : Working) :
    (scanLeaf s c w).hsize = w.hsize + 1 ∧ (scanLeaf s c w).nnext = w.nnext + 1 ∧ (scanLeaf s c w).phase = w.phase := by
  unfold scanLeaf
  dsimp only
  refine ⟨?_, rfl, ?_⟩
  · rw [(heapPush_frame _ _).2.1]; rfl
  · rw [(heapPush_frame _ _).2.2.2]; rfl

end Sys2Proof.Machine
end

