-- ==== Sys2Proof/Laws/State.lean ====
section
/-! SUPPORT. One lemma per field of `State` per named operation, so that no later proof unfolds a record update. -/

namespace Sys2Proof.Machine

@[simp] theorem State.writeFt_ft (s : State) (x : Sym) (c : Count) : (s.writeFt x c).ft = tableSet s.ft x c := rfl
@[simp] theorem State.writeFt_ct (s : State) (x : Sym) (c : Count) : (s.writeFt x c).ct = s.ct := rfl
@[simp] theorem State.writeFt_err (s : State) (x : Sym) (c : Count) : (s.writeFt x c).err = s.err := rfl
@[simp] theorem State.writeFt_work (s : State) (x : Sym) (c : Count) : (s.writeFt x c).work = s.work := rfl
@[simp] theorem State.writeFt_busy (s : State) (x : Sym) (c : Count) : (s.writeFt x c).busy = s.busy := rfl
@[simp] theorem State.writeFt_rspreg (s : State) (x : Sym) (c : Count) : (s.writeFt x c).rspreg = s.rspreg := rfl
@[simp] theorem State.writeFt_held (s : State) (x : Sym) (c : Count) : (s.writeFt x c).held = s.held := rfl
@[simp] theorem State.writeFt_inputs (s : State) (x : Sym) (c : Count) : (s.writeFt x c).inputs = s.inputs := rfl
@[simp] theorem State.writeFt_taken (s : State) (x : Sym) (c : Count) : (s.writeFt x c).taken = s.taken := rfl

@[simp] theorem State.clearFt_ft (s : State) : (s.clearFt).ft = Vector.replicate Config.nsym 0 := rfl
@[simp] theorem State.clearFt_ct (s : State) : (s.clearFt).ct = s.ct := rfl
@[simp] theorem State.clearFt_err (s : State) : (s.clearFt).err = s.err := rfl
@[simp] theorem State.clearFt_work (s : State) : (s.clearFt).work = s.work := rfl
@[simp] theorem State.clearFt_busy (s : State) : (s.clearFt).busy = s.busy := rfl
@[simp] theorem State.clearFt_rspreg (s : State) : (s.clearFt).rspreg = s.rspreg := rfl
@[simp] theorem State.clearFt_held (s : State) : (s.clearFt).held = s.held := rfl
@[simp] theorem State.clearFt_inputs (s : State) : (s.clearFt).inputs = s.inputs := rfl
@[simp] theorem State.clearFt_taken (s : State) : (s.clearFt).taken = s.taken := rfl

@[simp] theorem State.clearCt_ft (s : State) : (s.clearCt).ft = s.ft := rfl
@[simp] theorem State.clearCt_ct (s : State) : (s.clearCt).ct = Vector.replicate Config.nsym CtEntry.absent := rfl
@[simp] theorem State.clearCt_err (s : State) : (s.clearCt).err = s.err := rfl
@[simp] theorem State.clearCt_work (s : State) : (s.clearCt).work = s.work := rfl
@[simp] theorem State.clearCt_busy (s : State) : (s.clearCt).busy = s.busy := rfl
@[simp] theorem State.clearCt_rspreg (s : State) : (s.clearCt).rspreg = s.rspreg := rfl
@[simp] theorem State.clearCt_held (s : State) : (s.clearCt).held = s.held := rfl
@[simp] theorem State.clearCt_inputs (s : State) : (s.clearCt).inputs = s.inputs := rfl
@[simp] theorem State.clearCt_taken (s : State) : (s.clearCt).taken = s.taken := rfl

@[simp] theorem State.clearErr_ft (s : State) : (s.clearErr).ft = s.ft := rfl
@[simp] theorem State.clearErr_ct (s : State) : (s.clearErr).ct = s.ct := rfl
@[simp] theorem State.clearErr_err (s : State) : (s.clearErr).err = ErrFlags.clear := rfl
@[simp] theorem State.clearErr_work (s : State) : (s.clearErr).work = s.work := rfl
@[simp] theorem State.clearErr_busy (s : State) : (s.clearErr).busy = s.busy := rfl
@[simp] theorem State.clearErr_rspreg (s : State) : (s.clearErr).rspreg = s.rspreg := rfl
@[simp] theorem State.clearErr_held (s : State) : (s.clearErr).held = s.held := rfl
@[simp] theorem State.clearErr_inputs (s : State) : (s.clearErr).inputs = s.inputs := rfl
@[simp] theorem State.clearErr_taken (s : State) : (s.clearErr).taken = s.taken := rfl

@[simp] theorem State.setWork_ft (s : State) (w : Working) : (s.setWork w).ft = s.ft := rfl
@[simp] theorem State.setWork_ct (s : State) (w : Working) : (s.setWork w).ct = s.ct := rfl
@[simp] theorem State.setWork_err (s : State) (w : Working) : (s.setWork w).err = s.err := rfl
@[simp] theorem State.setWork_work (s : State) (w : Working) : (s.setWork w).work = w := rfl
@[simp] theorem State.setWork_busy (s : State) (w : Working) : (s.setWork w).busy = s.busy := rfl
@[simp] theorem State.setWork_rspreg (s : State) (w : Working) : (s.setWork w).rspreg = s.rspreg := rfl
@[simp] theorem State.setWork_held (s : State) (w : Working) : (s.setWork w).held = s.held := rfl
@[simp] theorem State.setWork_inputs (s : State) (w : Working) : (s.setWork w).inputs = s.inputs := rfl
@[simp] theorem State.setWork_taken (s : State) (w : Working) : (s.setWork w).taken = s.taken := rfl

@[simp] theorem State.respond_ft (s : State) (d : Data) : (s.respond d).ft = s.ft := rfl
@[simp] theorem State.respond_ct (s : State) (d : Data) : (s.respond d).ct = s.ct := rfl
@[simp] theorem State.respond_err (s : State) (d : Data) : (s.respond d).err = s.err := rfl
@[simp] theorem State.respond_work (s : State) (d : Data) : (s.respond d).work = s.work := rfl
@[simp] theorem State.respond_busy (s : State) (d : Data) : (s.respond d).busy = s.busy := rfl
@[simp] theorem State.respond_rspreg (s : State) (d : Data) : (s.respond d).rspreg = some (Rsp.make statusOk d) := rfl
@[simp] theorem State.respond_held (s : State) (d : Data) : (s.respond d).held = s.held := rfl
@[simp] theorem State.respond_inputs (s : State) (d : Data) : (s.respond d).inputs = s.inputs := rfl
@[simp] theorem State.respond_taken (s : State) (d : Data) : (s.respond d).taken = s.taken := rfl

@[simp] theorem State.raise_ft (s : State) (e : ErrCode) : (s.raise e).ft = s.ft := rfl
@[simp] theorem State.raise_ct (s : State) (e : ErrCode) : (s.raise e).ct = s.ct := rfl
@[simp] theorem State.raise_err (s : State) (e : ErrCode) : (s.raise e).err = s.err.setFlag e := rfl
@[simp] theorem State.raise_work (s : State) (e : ErrCode) : (s.raise e).work = s.work := rfl
@[simp] theorem State.raise_busy (s : State) (e : ErrCode) : (s.raise e).busy = s.busy := rfl
@[simp] theorem State.raise_rspreg (s : State) (e : ErrCode) : (s.raise e).rspreg = some (Rsp.make (errStatus e) 0) := rfl
@[simp] theorem State.raise_held (s : State) (e : ErrCode) : (s.raise e).held = s.held := rfl
@[simp] theorem State.raise_inputs (s : State) (e : ErrCode) : (s.raise e).inputs = s.inputs := rfl
@[simp] theorem State.raise_taken (s : State) (e : ErrCode) : (s.raise e).taken = s.taken := rfl

@[simp] theorem State.accept_ft (s : State) : (s.accept).ft = s.ft := rfl
@[simp] theorem State.accept_ct (s : State) : (s.accept).ct = s.ct := rfl
@[simp] theorem State.accept_err (s : State) : (s.accept).err = s.err := rfl
@[simp] theorem State.accept_work (s : State) : (s.accept).work = s.work := rfl
@[simp] theorem State.accept_busy (s : State) : (s.accept).busy = true := rfl
@[simp] theorem State.accept_rspreg (s : State) : (s.accept).rspreg = s.rspreg := rfl
@[simp] theorem State.accept_held (s : State) : (s.accept).held = none := rfl
@[simp] theorem State.accept_inputs (s : State) : (s.accept).inputs = s.inputs := rfl
@[simp] theorem State.accept_taken (s : State) : (s.accept).taken = s.taken := rfl

@[simp] theorem State.holdCommand_ft (s : State) (p : PortIn) : (s.holdCommand p).ft = s.ft := rfl
@[simp] theorem State.holdCommand_ct (s : State) (p : PortIn) : (s.holdCommand p).ct = s.ct := rfl
@[simp] theorem State.holdCommand_err (s : State) (p : PortIn) : (s.holdCommand p).err = s.err := rfl
@[simp] theorem State.holdCommand_work (s : State) (p : PortIn) : (s.holdCommand p).work = s.work := rfl
@[simp] theorem State.holdCommand_busy (s : State) (p : PortIn) : (s.holdCommand p).busy = s.busy := rfl
@[simp] theorem State.holdCommand_rspreg (s : State) (p : PortIn) : (s.holdCommand p).rspreg = s.rspreg := rfl
@[simp] theorem State.holdCommand_held (s : State) (p : PortIn) : (s.holdCommand p).held = if p.cmdValid then some p.cmd else none := rfl
@[simp] theorem State.holdCommand_inputs (s : State) (p : PortIn) : (s.holdCommand p).inputs = s.inputs := rfl
@[simp] theorem State.holdCommand_taken (s : State) (p : PortIn) : (s.holdCommand p).taken = s.taken := rfl

@[simp] theorem State.hardReset_ft (s : State) : (s.hardReset).ft = Vector.replicate Config.nsym 0 := rfl
@[simp] theorem State.hardReset_ct (s : State) : (s.hardReset).ct = Vector.replicate Config.nsym CtEntry.absent := rfl
@[simp] theorem State.hardReset_err (s : State) : (s.hardReset).err = ErrFlags.clear := rfl
@[simp] theorem State.hardReset_work (s : State) : (s.hardReset).work = Working.reset := rfl
@[simp] theorem State.hardReset_busy (s : State) : (s.hardReset).busy = false := rfl
@[simp] theorem State.hardReset_rspreg (s : State) : (s.hardReset).rspreg = none := rfl
@[simp] theorem State.hardReset_held (s : State) : (s.hardReset).held = none := rfl
@[simp] theorem State.hardReset_inputs (s : State) : (s.hardReset).inputs = s.inputs := rfl
@[simp] theorem State.hardReset_taken (s : State) : (s.hardReset).taken = s.taken := rfl

@[simp] theorem presentWord_ft (s : State) (w : Cmd) : (presentWord s w).ft = s.ft := rfl
@[simp] theorem presentWord_ct (s : State) (w : Cmd) : (presentWord s w).ct = s.ct := rfl
@[simp] theorem presentWord_err (s : State) (w : Cmd) : (presentWord s w).err = s.err := rfl
@[simp] theorem presentWord_work (s : State) (w : Cmd) : (presentWord s w).work = s.work := rfl
@[simp] theorem presentWord_busy (s : State) (w : Cmd) : (presentWord s w).busy = false := rfl
@[simp] theorem presentWord_rspreg (s : State) (w : Cmd) : (presentWord s w).rspreg = none := rfl
@[simp] theorem presentWord_held (s : State) (w : Cmd) : (presentWord s w).held = none := rfl
@[simp] theorem presentWord_inputs (s : State) (w : Cmd) : (presentWord s w).inputs = { rst := false, cmdValid := true, cmd := w, rspReady := false } :: s.inputs := rfl
@[simp] theorem presentWord_taken (s : State) (w : Cmd) : (presentWord s w).taken = s.taken := rfl

@[simp] theorem State.takeResponse_ft (s : State) (b : Bool) : (s.takeResponse b).ft = s.ft := by
  unfold State.takeResponse; split <;> rfl
@[simp] theorem State.takeResponse_ct (s : State) (b : Bool) : (s.takeResponse b).ct = s.ct := by
  unfold State.takeResponse; split <;> rfl
@[simp] theorem State.takeResponse_err (s : State) (b : Bool) : (s.takeResponse b).err = s.err := by
  unfold State.takeResponse; split <;> rfl
@[simp] theorem State.takeResponse_work (s : State) (b : Bool) : (s.takeResponse b).work = s.work := by
  unfold State.takeResponse; split <;> rfl
@[simp] theorem State.takeResponse_held (s : State) (b : Bool) : (s.takeResponse b).held = s.held := by
  unfold State.takeResponse; split <;> rfl
@[simp] theorem State.takeResponse_inputs (s : State) (b : Bool) : (s.takeResponse b).inputs = s.inputs := by
  unfold State.takeResponse; split <;> rfl

/-- A response that waits is taken: `rsp_valid` and `BUSY` return to 0 (R57 (e)). -/
theorem State.takeResponse_some (s : State) (r : Rsp) (h : s.rspreg = some r) :
    s.takeResponse true = { s with rspreg := none, busy := false, taken := s.taken ++ [r] } := by
  simp [State.takeResponse, h]

/-- Without `rsp_ready` the response is held (R57 (d)). -/
@[simp] theorem State.takeResponse_false (s : State) : s.takeResponse false = s := by
  unfold State.takeResponse; split <;> simp_all

/-- With no response waiting there is nothing to take. -/
theorem State.takeResponse_none (s : State) (b : Bool) (h : s.rspreg = none) : s.takeResponse b = s := by
  unfold State.takeResponse; split <;> simp_all

@[simp] theorem State.reset_ft : State.reset.ft = Vector.replicate Config.nsym 0 := rfl
@[simp] theorem State.reset_ct : State.reset.ct = Vector.replicate Config.nsym CtEntry.absent := rfl
@[simp] theorem State.reset_err : State.reset.err = ErrFlags.clear := rfl
@[simp] theorem State.reset_work : State.reset.work = Working.reset := rfl
@[simp] theorem State.reset_busy : State.reset.busy = false := rfl
@[simp] theorem State.reset_rspreg : State.reset.rspreg = none := rfl
@[simp] theorem State.reset_held : State.reset.held = none := rfl
@[simp] theorem State.reset_inputs : State.reset.inputs = [] := rfl
@[simp] theorem State.reset_taken : State.reset.taken = [] := rfl

end Sys2Proof.Machine
end

