-- ==== Sys2Proof/Laws/Exec.lean ====
section
/-! SUPPORT. What a command and an edge can do, said once. -/

namespace Sys2Proof.Machine

/-- The fields of the ports and of the world outside, which no command touches: only the clock edge around it does. -/
def SamePorts (s t : State) : Prop := t.busy = s.busy ∧ t.held = s.held ∧ t.inputs = s.inputs ∧ t.taken = s.taken

/-- Every command leaves the ports alone, whatever it does (R57: acceptance and taking are the handshake's). -/
theorem exec_samePorts (i : Instr) (s t : State) (h : exec i s = .next t) : SamePorts s t := by
  cases i <;> simp only [exec] at h
  case init => cases h; exact ⟨rfl, rfl, rfl, rfl⟩
  case clrf => cases h; exact ⟨rfl, rfl, rfl, rfl⟩
  case setf => cases h; exact ⟨rfl, rfl, rfl, rfl⟩
  case incf =>
    unfold execIncf at h
    split at h <;> cases h <;> exact ⟨rfl, rfl, rfl, rfl⟩
  case build =>
    unfold execBuild at h
    dsimp only at h
    split at h <;> cases h <;> exact ⟨rfl, rfl, rfl, rfl⟩
  case rdf => cases h; exact ⟨rfl, rfl, rfl, rfl⟩
  case rdl => cases h; exact ⟨rfl, rfl, rfl, rfl⟩
  case rdc =>
    unfold execRdc at h
    split at h <;> cases h <;> exact ⟨rfl, rfl, rfl, rfl⟩
  case rdst => cases h; exact ⟨rfl, rfl, rfl, rfl⟩

/-- Only `BUILD` touches the working stores (R32, R73). -/
theorem exec_work (i : Instr) (s t : State) (h : exec i s = .next t) (hb : i ≠ .build) : t.work = s.work := by
  cases i <;> simp only [exec] at h
  case init => cases h; rfl
  case clrf => cases h; rfl
  case setf => cases h; rfl
  case incf =>
    unfold execIncf at h
    split at h <;> cases h <;> rfl
  case build => exact absurd rfl hb
  case rdf => cases h; rfl
  case rdl => cases h; rfl
  case rdc =>
    unfold execRdc at h
    split at h <;> cases h <;> rfl
  case rdst => cases h; rfl

/-- The two outcomes of `BUILD`, by the tree of the table (R71, R86). -/
theorem execBuild_none (s : State) (h : buildTree s.ft = none) :
    execBuild s = .next ((s.setWork (runSequencer s).work).raise .empty) := by
  simp [execBuild, h]

theorem execBuild_some (s : State) (t : Tree) (h : buildTree s.ft = some t) :
    execBuild s = .next (({ s.setWork (runSequencer s).work with ct := codeTableOf t }).clearFt.respond
      (BitVec.ofNat 32 s.ftn)) := by
  simp [execBuild, h]

/-- An illegal word is `raise E_ILLEGAL` (R52, R60). -/
theorem runCommand_error (w : Cmd) (s : State) (e : Illegal) (h : decode w = .error e) :
    runCommand w s = .next (s.raise .illegal) := by
  simp [runCommand, h]

/-- A legal word is its command (R60). -/
theorem runCommand_ok (w : Cmd) (s : State) (i : Instr) (h : decode w = .ok i) : runCommand w s = exec i s := by
  simp [runCommand, h]

/-- Whether the handshake is broken does not depend on the samples still to come. -/
@[simp] theorem State.handshakeBrokenBy_inputs (s : State) (l : List PortIn) (p : PortIn) :
    State.handshakeBrokenBy { s with inputs := l } p = s.handshakeBrokenBy p := rfl

/-- A host that is not waiting, or goes on presenting the word it waits with, does not break the handshake (R57 (c)). -/
theorem State.handshake_kept (s : State) (p : PortIn) (h : s.held = none ∨ (p.cmdValid = true ∧ s.held = some p.cmd)) :
    s.handshakeBrokenBy p = false := by
  rcases h with h | ⟨h, h2⟩
  · simp [State.handshakeBrokenBy, h]
  · simp [State.handshakeBrokenBy, h, h2]

/-- A step with no sample left changes nothing (log entry 2). -/
theorem step_no_edge (s : State) (h : s.inputs = []) : step s = .next s := by
  simp [step, nextEdge, h]

/-- A step with a sample is that clock edge. -/
theorem step_edge (s : State) (p : PortIn) (rest : List PortIn) (h : s.inputs = p :: rest) :
    step s = clockEdge p { s with inputs := rest } := by
  simp [step, nextEdge, h]

/-- Everything a clock edge can do, by the pins sampled (R57, R113, R125). -/
theorem clockEdge_cases (p : PortIn) (s : State) :
    (p.rst = true ∧ clockEdge p s = .next s.hardReset) ∨
    (p.rst = false ∧ s.handshakeBrokenBy p = true ∧ clockEdge p s = .refused .handshakeBroken) ∨
    (p.rst = false ∧ s.handshakeBrokenBy p = false ∧ p.cmdValid = true ∧ s.busy = false ∧
      clockEdge p s = runCommand p.cmd s.accept) ∨
    (p.rst = false ∧ s.handshakeBrokenBy p = false ∧ (p.cmdValid = false ∨ s.busy = true) ∧
      clockEdge p s = .next ((s.takeResponse p.rspReady).holdCommand p)) := by
  cases hr : p.rst <;> cases hh : s.handshakeBrokenBy p <;> cases hc : p.cmdValid <;> cases hb : s.busy <;>
    simp [clockEdge, State.pins, hr, hh, hc, hb]

end Sys2Proof.Machine
end

