-- ==== Sys2Proof/Laws/Word.lean ====
section
/-! SUPPORT. The fields of a word that is put together from them, and the bitwise AND of two such words. -/

namespace Sys2Proof

/-- Each bit of a command word, by the field it lies in (R45). -/
theorem Cmd.getLsbD_make (o : BitVec 8) (s : Sym) (d : Data) (i : Nat) :
    (Cmd.make o s d).getLsbD i =
      if i < Config.dataW then d.getLsbD i
      else if i - Config.dataW < Config.symW then s.getLsbD (i - Config.dataW)
      else o.getLsbD (i - Config.dataW - Config.symW) := by
  have h1 : (Cmd.make o s d).getLsbD i = if i < Config.dataW then d.getLsbD i else (o ++ s).getLsbD (i - Config.dataW) :=
    BitVec.getLsbD_append
  rw [h1, BitVec.getLsbD_append]

@[simp] theorem Cmd.op_make (o : BitVec 8) (s : Sym) (d : Data) : (Cmd.make o s d).op = o := by
  apply BitVec.eq_of_getLsbD_eq
  intro i hi
  rw [Cmd.op, BitVec.getLsbD_extractLsb', Cmd.getLsbD_make, if_neg (by omega), if_neg (by omega)]
  have e : Config.symW + Config.dataW + i - Config.dataW - Config.symW = i := by omega
  simp [hi, e]

@[simp] theorem Cmd.sym_make (o : BitVec 8) (s : Sym) (d : Data) : (Cmd.make o s d).sym = s := by
  apply BitVec.eq_of_getLsbD_eq
  intro i hi
  rw [Cmd.sym, BitVec.getLsbD_extractLsb', Cmd.getLsbD_make, if_neg (by omega), if_pos (by omega)]
  simp [hi]

@[simp] theorem Cmd.data_make (o : BitVec 8) (s : Sym) (d : Data) : (Cmd.make o s d).data = d := by
  apply BitVec.eq_of_getLsbD_eq
  intro i hi
  rw [Cmd.data, BitVec.getLsbD_extractLsb', Cmd.getLsbD_make, if_pos (by omega)]
  simp [hi]

/-- A word is its three fields (R45). -/
theorem Cmd.make_fields (w : Cmd) : Cmd.make w.op w.sym w.data = w := by
  apply BitVec.eq_of_getLsbD_eq
  intro i hi
  simp only [Cmd.getLsbD_make, Cmd.op, Cmd.sym, Cmd.data, BitVec.getLsbD_extractLsb']
  by_cases h1 : i < Config.dataW
  · simp [h1]
  · by_cases h2 : i - Config.dataW < Config.symW
    · have e : Config.dataW + (i - Config.dataW) = i := by omega
      simp [h1, h2, e]
    · have e : Config.symW + Config.dataW + (i - Config.dataW - Config.symW) = i := by omega
      have hi' : i < 8 + Config.symW + Config.dataW := hi
      have h3 : i - Config.dataW - Config.symW < 8 := by omega
      simp [h1, h2, e, h3]

/-- AND goes field by field. -/
theorem Cmd.make_and (o o' : BitVec 8) (s s' : Sym) (d d' : Data) :
    Cmd.make o s d &&& Cmd.make o' s' d' = Cmd.make (o &&& o') (s &&& s') (d &&& d') := by
  apply BitVec.eq_of_getLsbD_eq
  intro i _
  simp only [BitVec.getLsbD_and, Cmd.getLsbD_make]
  split
  · rfl
  · split <;> rfl

/-- Each bit of a response word, by the field it lies in (R54). -/
theorem Rsp.getLsbD_make (st : BitVec 8) (d : Data) (i : Nat) :
    (Rsp.make st d).getLsbD i = if i < Config.dataW then d.getLsbD i else st.getLsbD (i - Config.dataW) :=
  BitVec.getLsbD_append

@[simp] theorem Rsp.status_make (st : BitVec 8) (d : Data) : (Rsp.make st d).status = st := by
  apply BitVec.eq_of_getLsbD_eq
  intro i hi
  rw [Rsp.status, BitVec.getLsbD_extractLsb', Rsp.getLsbD_make, if_neg (by omega)]
  simp [hi]

@[simp] theorem Rsp.rdata_make (st : BitVec 8) (d : Data) : (Rsp.make st d).rdata = d := by
  apply BitVec.eq_of_getLsbD_eq
  intro i hi
  rw [Rsp.rdata, BitVec.getLsbD_extractLsb', Rsp.getLsbD_make, if_pos (by omega)]
  simp [hi]

/-- A response word determines its fields (R54). -/
theorem Rsp.make_inj (st st' : BitVec 8) (d d' : Data) : Rsp.make st d = Rsp.make st' d' ↔ st = st' ∧ d = d' := by
  constructor
  · intro h
    exact ⟨by simpa using congrArg Rsp.status h, by simpa using congrArg Rsp.rdata h⟩
  · rintro ⟨rfl, rfl⟩; rfl

end Sys2Proof
end

