-- ==== Sys2Proof/Laws/PerInstr.lean ====
section
/-! SUPPORT. Per command: its encoding hits its own row of the match and mask table (spec/30_encoding.md R49). -/

namespace Sys2Proof.Laws.EncodeRow

/-- The encoded command is the row's command, for every value of its operands (R49). -/
def Statement (i : Instr) : Prop := ∃ r ∈ opcodeTable, r.mnemonic = i.mnemonic ∧ r.hits (encode i)

theorem init : Statement .init := by unfold Statement; decide

theorem clrf : Statement .clrf := by unfold Statement; decide

theorem build : Statement .build := by unfold Statement; decide

theorem rdst : Statement .rdst := by unfold Statement; decide

/-- A row of format SD: only the opcode is compared. -/
theorem hits_sd (o : BitVec 8) (s : Sym) (d : Data) :
    Cmd.make o s d &&& Cmd.make 0xFF 0 0 = Cmd.make o 0 0 := by
  have h : o &&& 255#8 = o := by simpa using BitVec.and_allOnes (x := o)
  rw [Cmd.make_and]; simp [h]

/-- A row of format S: the opcode and the data field are compared. -/
theorem hits_s (o : BitVec 8) (s : Sym) : Cmd.make o s 0 &&& Cmd.make 0xFF 0 0xFFFFFFFF = Cmd.make o 0 0 := by
  have h : o &&& 255#8 = o := by simpa using BitVec.and_allOnes (x := o)
  rw [Cmd.make_and]; simp [h]

/-- A row of format SK: the opcode and the upper 29 data bits are compared. -/
theorem hits_sk (o : BitVec 8) (s : Sym) (k : ChunkIdx) :
    Cmd.make o s (k.zeroExtend 32) &&& Cmd.make 0xFF 0 0xFFFFFFF8 = Cmd.make o 0 0 := by
  have h : o &&& 255#8 = o := by simpa using BitVec.and_allOnes (x := o)
  have hk : ∀ k : ChunkIdx, k.zeroExtend 32 &&& (0xFFFFFFF8 : Data) = 0 := by decide
  rw [Cmd.make_and, hk]; simp [h]

theorem setf (s : Sym) (c : Count) : Statement (.setf s c) :=
  ⟨⟨"SETF", 0x030000000000, 0xFF0000000000⟩, by decide, rfl, hits_sd 0x03 s c⟩

theorem incf (s : Sym) : Statement (.incf s) :=
  ⟨⟨"INCF", 0x040000000000, 0xFF00FFFFFFFF⟩, by decide, rfl, hits_s 0x04 s⟩

theorem rdf (s : Sym) : Statement (.rdf s) :=
  ⟨⟨"RDF", 0x100000000000, 0xFF00FFFFFFFF⟩, by decide, rfl, hits_s 0x10 s⟩

theorem rdl (s : Sym) : Statement (.rdl s) :=
  ⟨⟨"RDL", 0x110000000000, 0xFF00FFFFFFFF⟩, by decide, rfl, hits_s 0x11 s⟩

theorem rdc (s : Sym) (k : ChunkIdx) : Statement (.rdc s k) :=
  ⟨⟨"RDC", 0x120000000000, 0xFF00FFFFFFF8⟩, by decide, rfl, hits_sk 0x12 s k⟩

end Sys2Proof.Laws.EncodeRow
end

