-- ==== Sys2Proof/Tests/Slice0.lean ====
section
/-! SUPPORT. Tests, each one word or one step, with results from spec/95_test_vectors.md or by hand from the rules named; and
for every statement with hypotheses a witness that meets them. -/

-- One theorem after another: many kernel evaluations waiting at once would each take a thread of the compiler.
set_option Elab.async false

namespace Sys2Proof.Tests

open Sys2Proof Sys2Proof.Machine

/-! Helpers -/

/-- The next state of an outcome. -/
def stateOf (o : Host.Outcome State Fault Refusal) : Option State :=
  match o with
  | .next t => some t
  | _ => none

/-- The next state of an outcome passes a test. -/
def passes (o : Host.Outcome State Fault Refusal) (q : State → Bool) : Bool := (stateOf o).any q

theorem next_of_passes {o : Host.Outcome State Fault Refusal} {q : State → Bool} (h : passes o q = true) :
    ∃ t, o = .next t ∧ q t = true := by
  cases o with
  | next t => exact ⟨t, rfl, by simpa [passes, stateOf] using h⟩
  | fault f => simp [passes, stateOf] at h
  | refused r => simp [passes, stateOf] at h

/-- A frequency table with the given symbols and counts. -/
def table (l : List (Sym × Count)) : FreqTable := l.foldl (fun f p => tableSet f p.1 p.2) (Vector.replicate Config.nsym 0)

/-- The reset state with a frequency table. -/
def loaded (l : List (Sym × Count)) : State := { State.reset with ft := table l }

/-- The code table of V4 (a): 'b' = "0", 'a' = "1". -/
def codes2 : CodeTable :=
  tableSet (tableSet (Vector.replicate Config.nsym CtEntry.absent) 0x61 ⟨true, 1, 1⟩) 0x62 ⟨true, 1, 0⟩

/-- A state with that code table, one count, and all four flags. -/
def used : State := { loaded [(0x71, 2)] with ct := codes2, err := ⟨true, true, true, true⟩ }

/-- A state whose response waits while the host takes it. -/
def waiting : State :=
  { State.reset with busy := true, rspreg := some (Rsp.make 0x04 0), inputs := [⟨false, false, 0, true⟩] }

/-- A heap of three leaves with keys (1, 0x41), (2, 0x42), (1, 0x43) at positions 0, 1, 2. -/
def heap3 : Working :=
  let w := ((Working.reset.setNode 0 { Node.zero with w := 1, tag := 0x41 }).setNode 1
    { Node.zero with w := 2, tag := 0x42 }).setNode 2 { Node.zero with w := 1, tag := 0x43 }
  { ((w.setHeap 0 0).setHeap 1 1).setHeap 2 2 with hsize := 3 }

/-! What the assembler rejects: an ill-formed line for each check (R58) -/

theorem test_symbol_too_large : (AsmLine.incf (.num 256)).wellFormed = false := by decide
theorem test_symbol_not_ascii : (AsmLine.rdl (.chr 'é')).wellFormed = false := by decide
theorem test_count_too_large : (AsmLine.setf (.num 0) 4294967296).wellFormed = false := by decide
theorem test_chunk_too_large : (AsmLine.rdc (.num 0) 8).wellFormed = false := by decide
theorem test_word_too_long : (AsmLine.word 0x1000000000000).wellFormed = false := by decide
theorem test_rejected_line_has_no_word : assemble (.rdc (.num 0) 8) = none := by decide
theorem test_count_12 : assemble (.count [0x31, 0x32]) = some [0x043100000000, 0x043200000000] := by decide
theorem test_char_literal : assemble (.rdf (.chr '8')) = some [0x103800000000] := by decide

/-! The parameters -/

/-- The values of R5's table. -/
theorem test_parameters : Config.symW = 8 ∧ Config.nsym = 256 ∧ Config.cntW = 32 ∧ Config.wgtW = 40 ∧ Config.lenW = 8 ∧
    Config.codeW = 255 ∧ Config.nnode = 511 ∧ Config.nidxW = 9 ∧ Config.nheap = 256 ∧ Config.cmdW = 48 ∧
    Config.rspW = 40 ∧ Config.chunkW = 32 := by decide

/-! Words written out bit by bit from R49's encodings -/

theorem test_decode_init : decode 0b00000001_00000000_00000000000000000000000000000000 = .ok .init := by decide
theorem test_decode_clrf : decode 0b00000010_00000000_00000000000000000000000000000000 = .ok .clrf := by decide
theorem test_decode_setf :
    decode 0b00000011_01100001_00000000000000000000000000101101 = .ok (.setf 0x61 45) := by decide
theorem test_decode_incf : decode 0b00000100_00110001_00000000000000000000000000000000 = .ok (.incf 0x31) := by decide
theorem test_decode_build : decode 0b00001000_00000000_00000000000000000000000000000000 = .ok .build := by decide
theorem test_decode_rdf : decode 0b00010000_00111000_00000000000000000000000000000000 = .ok (.rdf 0x38) := by decide
theorem test_decode_rdl : decode 0b00010001_01000001_00000000000000000000000000000000 = .ok (.rdl 0x41) := by decide
theorem test_decode_rdc : decode 0b00010010_01100001_00000000000000000000000000000111 = .ok (.rdc 0x61 7) := by decide
theorem test_decode_rdst : decode 0b00010011_00000000_00000000000000000000000000000000 = .ok .rdst := by decide

/-- V15 rows 15 to 21: illegal words. -/
theorem test_illegal_words :
    [(0x000000000000 : Cmd), 0xFFFFFFFFFFFF, 0x050000000000].map decode =
      [.error .undefinedOpcode, .error .undefinedOpcode, .error .undefinedOpcode] ∧
    [(0x080000000001 : Cmd), 0x080100000000, 0x043100000001, 0x120000000008].map decode =
      [.error .reservedNonzero, .error .reservedNonzero, .error .reservedNonzero, .error .reservedNonzero] := by decide

/-! One command each -/

/-- V15 row 14: `INIT` discards the tables and the flags. -/
theorem test_init : passes (exec .init used) (fun t =>
    t.ftn == 0 && t.ctn == 0 && t.status == 0 && t.rspreg == some 0x0000000000) = true := by decide +kernel

/-- V15 row 13: `CLRF` leaves the code table and the flags. -/
theorem test_clrf : passes (exec .clrf used) (fun t => t.ftn == 0 && t.status == 0xF0000002) = true := by decide +kernel

/-- V15 row 11: `SETF` overwrites. -/
theorem test_setf_overwrites : passes (exec (.setf 0x71 2) (loaded [(0x71, 5)])) (fun t => tableGet t.ft 0x71 == 2) = true := by
  decide +kernel

/-- V15 row 12: a count of 0 removes the symbol. -/
theorem test_setf_zero : passes (exec (.setf 0x71 0) (loaded [(0x71, 2)])) (fun t => t.ftn == 0) = true := by decide +kernel

/-- V15 row 8. -/
theorem test_incf : passes (exec (.incf 0x7A) (loaded [(0x7A, 0xFFFFFFFE)])) (fun t =>
    t.rspreg == some 0x00FFFFFFFF && tableGet t.ft 0x7A == 0xFFFFFFFF) = true := by decide +kernel

/-- V15 row 9: the count neither wraps nor is the symbol dropped. -/
theorem test_incf_overflow : passes (exec (.incf 0x7A) (loaded [(0x7A, 0xFFFFFFFF)])) (fun t =>
    t.rspreg == some 0x0300000000 && tableGet t.ft 0x7A == 0xFFFFFFFF && t.err.cntovf) = true := by decide +kernel

/-- V12, the input on which the set-aside tie-break differs: `c = "00"`, `a = "01"`, `b = "1"`. -/
theorem test_build_tie_break : passes (exec .build (loaded [(0x61, 2), (0x62, 3), (0x63, 1)])) (fun t =>
    tableGet t.ct 0x61 == ⟨true, 2, 1⟩ && tableGet t.ct 0x62 == ⟨true, 1, 1⟩ && tableGet t.ct 0x63 == ⟨true, 2, 0⟩ &&
      t.rspreg == some 0x0000000003 && t.status == 0x00000003) = true := by decide +kernel

/-- V5 (a): the node store after the build of `A`:1, `B`:1, `C`:1. -/
theorem test_build_nodes : passes (exec .build (loaded [(0x41, 1), (0x42, 1), (0x43, 1)])) (fun t =>
    (List.range 4).map (fun i => ((t.work.nodeAt (BitVec.ofNat 9 i)).parent, (t.work.nodeAt (BitVec.ofNat 9 i)).pbit)) ==
      [(3, false), (3, true), (4, false), (4, true)] &&
    (t.work.nodeAt 4).left == 2 && (t.work.nodeAt 4).right == 3 && t.work.heapAt 0 == 4) = true := by decide +kernel

/-- V15 row 3: an absent symbol has count 0. -/
theorem test_rdf : passes (exec (.rdf 0x41) State.reset) (fun t => t.rspreg == some 0x0000000000) = true := by decide +kernel

/-- R97: `v` in bit 8 tells the empty code from no code. -/
theorem test_rdl : passes (exec (.rdl 0x61) used) (fun t => t.rspreg == some 0x0000000101) = true ∧
    passes (exec (.rdl 0x63) used) (fun t => t.rspreg == some 0x0000000000) = true := by decide +kernel

/-- V14: the code of symbol 0x00 spans two chunks. -/
theorem test_rdc_second_chunk : passes (exec (.rdc 0x00 1)
    { State.reset with ct := tableSet State.reset.ct 0x00 ⟨true, 39, 0x7FFFFFFFFC⟩ })
    (fun t => t.rspreg == some 0x000000007F) = true := by decide +kernel

/-- V15 row 5: no entry. -/
theorem test_rdc_no_entry : passes (exec (.rdc 0x41 0) State.reset) (fun t =>
    t.rspreg == some 0x0400000000 && t.err == ⟨false, false, false, true⟩) = true := by decide +kernel

/-- R19: all fields of the status word. -/
theorem test_rdst : passes (exec .rdst used) (fun t => t.rspreg == some 0x00F0010002) = true := by decide +kernel

/-! The ports -/

/-- The first step after reset runs the word presented: V15 row 6, and row 1 for `BUILD`. -/
theorem test_first_step : passes (step (State.reset.withFetchWord 48 0x047100000000)) (fun t =>
    t.rspreg == some 0x0000000001 && t.busy && t.inputs == []) = true ∧
    passes (step (State.reset.withFetchWord 48 0x080000000000)) (fun t =>
      t.rspreg == some 0x0100000000 && t.err.empty) = true := by decide +kernel

/-- R57 (e): the response is taken. -/
theorem test_taken : passes (step waiting) (fun t => t.taken == [0x0400000000] && !t.busy && t.rspreg == none) = true := by
  decide +kernel

/-- R127: reset abandons the command; its response is never taken. -/
theorem test_reset_in_flight : passes (step { waiting with inputs := [⟨true, false, 0, true⟩] }) (fun t =>
    t.taken == [] && !t.busy && t.rspreg == none) = true := by decide +kernel

/-- R113: a host that drops `cmd_valid` while it waits is refused. -/
theorem test_broken_handshake : step { waiting with held := some 0x130000000000 } = .refused .handshakeBroken := by rfl

/-! Witnesses: for each statement with hypotheses, a state and operands that meet them -/

theorem codes2_stored : CtStored codes2 := by
  intro x
  unfold codes2
  rw [tableGet_tableSet, tableGet_tableSet]
  split
  · exact ⟨by simp, by decide⟩
  · split
    · exact ⟨by simp, by decide⟩
    · simp [CtEntry.absent, CtEntry.Stored]

theorem coded_codes2 : coded codes2 = [0x61, 0x62] := by decide +kernel

theorem codes2_code : CtCode codes2 := by
  constructor
  · intro _
    constructor
    · unfold PrefixFree; rw [coded_codes2]; decide
    · unfold kraftSum; rw [coded_codes2]; decide +kernel
  · intro h; exact absurd h (by rw [ctnOf, coded_codes2]; decide)

/-- `used` with an empty frequency table and the word of `BUILD` presented. -/
def presented (w : Cmd) : State := presentWord used w

theorem witness_EveryStepKeepsTheStoredForm : ∃ s t, CtStored s.ct ∧ step s = .next t :=
  have ⟨t, h, _⟩ := next_of_passes (o := step (presented 0x080000000000)) (q := fun _ => true) (by decide +kernel)
  ⟨_, t, codes2_stored, h⟩

theorem witness_EveryStepKeepsThePrefixCode : ∃ s t, CtCode s.ct ∧ step s = .next t :=
  have ⟨t, h, _⟩ := next_of_passes (o := step (presented 0x080000000000)) (q := fun _ => true) (by decide +kernel)
  ⟨_, t, codes2_code, h⟩

theorem waiting_inv : PortInv waiting := by
  refine ⟨by simp [waiting], rfl, ?_, by simp [waiting]⟩
  intro r hr
  cases hr
  exact ⟨0x04, 0, rfl, Or.inr ⟨rfl, .noent, rfl⟩⟩

theorem witness_EveryStepKeepsThePortInvariant : ∃ s t, PortInv s ∧ step s = .next t :=
  have ⟨t, h, _⟩ := next_of_passes (o := step waiting) (q := fun _ => true) (by decide +kernel)
  ⟨_, t, waiting_inv, h⟩

theorem witness_OpcodeRowsAreDisjoint : ∃ r ∈ opcodeTable, ∃ r' ∈ opcodeTable, ∃ w : Cmd, r.hits w ∧ r'.hits w :=
  ⟨⟨"RDC", 0x120000000000, 0xFF00FFFFFFF8⟩, by decide, ⟨"RDC", 0x120000000000, 0xFF00FFFFFFF8⟩, by decide,
    0x126100000007, by decide, by decide⟩

/-- A host that waits for the ready block with the word it has been holding. -/
def holding (w : Cmd) : State := { presented w with held := some w }

theorem witness_IllegalWordsRaiseIllegal : ∃ (s : State) (p : PortIn) (rest : List PortIn), s.inputs = p :: rest ∧
    p.rst = false ∧ p.cmdValid = true ∧ s.busy = false ∧ s.held = some p.cmd ∧ ∃ e, decode p.cmd = .error e :=
  ⟨holding 0x080000000001, _, _, rfl, rfl, rfl, rfl, rfl, _, (by decide : decode 0x080000000001 = .error .reservedNonzero)⟩

/-- Both forms of a symbol operand at the largest value of each range, and beyond it. -/
theorem witness_AssemblerProducesLegalWords :
    ((SymArg.num 255 = .num 255 ∧ 255 ≤ 255) ∧ ∃ ch : Char, SymArg.chr 'z' = .chr ch ∧ ch.toNat = 122 ∧ 122 < 128) ∧
    ((∃ n, SymArg.num 256 = .num n ∧ n > 255) ∧ ∃ ch : Char, SymArg.chr 'é' = .chr ch ∧ ch.toNat ≥ 128) ∧
    (assemble (.setf (.chr 'z') 4294967295) = some [0x037AFFFFFFFF] ∧ ∀ w, AsmLine.setf (.chr 'z') 4294967295 ≠ .word w) ∧
    assemble (.setf (.chr 'z') 4294967296) = none ∧ assemble (.rdc (.num 255) 7) = some [0x12FF00000007] ∧
    assemble (.rdc (.num 255) 8) = none ∧ assemble (.word 0xFFFFFFFFFFFF) = some [0xFFFFFFFFFFFF] ∧
    assemble (.word 0x1000000000000) = none := by
  refine ⟨⟨⟨rfl, by decide⟩, 'z', rfl, by decide⟩, ⟨⟨256, rfl, by decide⟩, 'é', rfl, by decide⟩, ⟨by decide, ?_⟩, by decide,
    by decide, by decide, by decide, by decide⟩
  intro w h; cases h

theorem witness_StepRunsTheDecodedCommand : ∃ (s : State) (p : PortIn) (rest : List PortIn) (i : Instr),
    s.inputs = p :: rest ∧ p.rst = false ∧ p.cmdValid = true ∧ s.busy = false ∧ s.held = some p.cmd ∧
      decode p.cmd = .ok i :=
  ⟨holding 0x130000000000, _, _, _, rfl, rfl, rfl, rfl, rfl, (by decide : decode 0x130000000000 = .ok .rdst)⟩

theorem witness_ResponseIsHeldUntilTaken (b : Bool) : ∃ (s : State) (p : PortIn) (rest : List PortIn) (r : Rsp),
    s.inputs = p :: rest ∧ p.rst = false ∧ s.busy = true ∧ s.rspreg = some r ∧ p.cmdValid = true ∧
      s.held = some p.cmd ∧ p.rspReady = b :=
  ⟨{ waiting with held := some 0x130000000000, inputs := [⟨false, true, 0x130000000000, b⟩] }, _, _, _, rfl, rfl, rfl, rfl,
    rfl, rfl, rfl⟩

theorem witness_OnlyABrokenHandshakeIsRefused : ∃ (s : State) (p : PortIn) (rest : List PortIn) (c : Cmd),
    s.inputs = p :: rest ∧ p.rst = false ∧ s.held = some c ∧ p.cmdValid = true ∧ p.cmd ≠ c :=
  ⟨{ waiting with held := some 1, inputs := [⟨false, true, 0, true⟩] }, _, _, _, rfl, rfl, rfl, rfl, by decide⟩

theorem witness_HardwareResetFromAnyState : ∃ (s : State) (p : PortIn) (rest : List PortIn),
    s.inputs = p :: rest ∧ p.rst = true ∧ s.busy = true :=
  ⟨{ waiting with inputs := [⟨true, false, 0, false⟩] }, _, _, rfl, rfl, rfl⟩

theorem witness_ResetAbandonsTheCommandInFlight (b : Bool) : ∃ (s : State) (p : PortIn) (rest : List PortIn) (r : Rsp),
    s.inputs = p :: rest ∧ p.rst = true ∧ s.busy = true ∧ s.rspreg = some r ∧ p.rspReady = b :=
  ⟨{ waiting with inputs := [⟨true, false, 0, b⟩] }, _, _, _, rfl, rfl, rfl, rfl, rfl⟩

theorem witness_OneResponsePerAcceptedWord : ∃ s t, PortInv s ∧ s.resetsNext = false ∧ step s = .next t :=
  have ⟨t, h, _⟩ := next_of_passes (o := step waiting) (q := fun _ => true) (by decide +kernel)
  ⟨_, t, waiting_inv, rfl, h⟩

theorem witness_HostSessionRunsTheWordsInOrder : ∃ (l : List (Nat × Cmd × Nat)) (s : State), l.length = 2 ∧
    s.busy = false ∧ s.rspreg = none ∧ s.held = none ∧ s.inputs = hostTrace l :=
  ⟨[(1, 0x043100000000, 0), (0, 0x080000000000, 2)],
    { State.reset with inputs := hostTrace [(1, 0x043100000000, 0), (0, 0x080000000000, 2)] }, rfl, rfl, rfl, rfl, rfl⟩

/-- A host that holds `rsp_ready` high and presents the next word while the first response waits. -/
def eager : State :=
  { State.reset with inputs := [⟨false, true, 0x043100000000, true⟩, ⟨false, true, 0x080000000000, true⟩,
      ⟨false, true, 0x080000000000, true⟩] }

theorem witness_AnySessionAnswersTheAcceptedWords : ∃ t, PortInv eager ∧ (∀ p ∈ eager.inputs.take 3, p.rst = false) ∧
    core.run 3 eager = .next t ∧ eager.wordsAccepted 3 = [0x043100000000, 0x080000000000] :=
  have ⟨t, h, _⟩ := next_of_passes (o := core.run 3 eager) (q := fun _ => true) (by decide +kernel)
  ⟨t, ⟨by simp [eager], rfl, by simp [eager], by simp [eager]⟩, by simp [eager], h, by decide +kernel⟩

theorem witness_InitClearsTablesAndFlags : (Cmd.op 0x010000000001 = 0x01 ∧ (0x010000000001 : Cmd) ≠ encode .init) ∧
    ∃ i s t e, exec i s = .next t ∧ s.err.flag e = true ∧ t.err.flag e = false :=
  have ⟨t, h, h2⟩ := next_of_passes (o := exec .init used) (q := fun t => !t.err.flag .empty) (by decide +kernel)
  ⟨by decide, .init, used, t, .empty, h, rfl, by simpa using h2⟩

theorem witness_SetfWritesOneCount : Cmd.op 0x03FFFFFFFFFF = 0x03 := by decide

theorem witness_IncfCountsOneOccurrence : tableGet (loaded [(0x7A, 0xFFFFFFFE)]).ft 0x7A ≠ 0xFFFFFFFF ∧
    tableGet (loaded [(0x7A, 0xFFFFFFFF)]).ft 0x7A = 0xFFFFFFFF ∧ tableGet State.reset.ft 0x7A = 0 := by decide +kernel

theorem witness_RdfAnswersTheCount : used.ftn ≠ 0 := by decide +kernel

theorem witness_RdlAnswersLengthAndValid : CtStored used.ct ∧ (tableGet used.ct 0x61).v = true ∧
    (tableGet used.ct 0x63).v = false := ⟨codes2_stored, by decide +kernel, by decide +kernel⟩

theorem witness_LoadingOrderDoesNotMatter :
    (∀ x : Sym, (tableGet State.reset.ft x).toNat + [(0x31 : Sym), 0x32].count x < 2 ^ 32) ∧
      [(0x32 : Sym), 0x31].Perm [0x31, 0x32] ∧ ([((0x71 : Sym), (5 : Count)), (0x72, 0)].map Prod.fst).Nodup := by
  refine ⟨?_, List.Perm.swap _ _ _, by decide⟩
  intro x
  have h : [(0x31 : Sym), 0x32].count x ≤ 2 := List.count_le_length
  have h0 : tableGet State.reset.ft x = 0 := by simp
  rw [h0]
  show 0 + _ < _
  omega

theorem witness_RdcAnswersAChunk : CtStored used.ct ∧ (tableGet used.ct 0x61).v = true ∧ (tableGet used.ct 0x63).v = false ∧
    32 * (1 : ChunkIdx).toNat ≥ (tableGet used.ct 0x61).len.toNat :=
  ⟨codes2_stored, by decide +kernel, by decide +kernel, by decide +kernel⟩

theorem witness_ReadsAreIdempotent : (∃ i : Instr, i = .rdst) ∧ ∃ (i : Instr) (x y : Sym) (k : ChunkIdx), i = .rdc x k ∧
    (tableGet used.ct x).v = false ∧ (tableGet used.ct y).v = true :=
  ⟨⟨_, rfl⟩, .rdc 0x63 0, 0x63, 0x61, 0, rfl, by decide +kernel, by decide +kernel⟩

theorem witness_ChunksReassembleTheCode : (0x7FFFFFFFFC : Code).toNat < 2 ^ 39 ∧ 32 * (2 : ChunkIdx).toNat ≥ 39 := by
  decide

theorem witness_StoredFormGivesTheStringBack : (List.replicate 255 true).length ≤ 255 ∧
    (List.replicate 254 true).length < 255 := by
  rw [List.length_replicate, List.length_replicate]; omega

theorem witness_ReadsRecoverTheCode : ∃ (s : State) (x : Sym), CtStored s.ct ∧ (tableGet s.ct x).v = true :=
  ⟨used, 0x61, codes2_stored, by decide +kernel⟩

theorem witness_BuildReplacesTheCodeTable : used.ftn ≠ 0 ∧ State.reset.ftn = 0 ∧ (0x61 : Sym) ∉ present used.ft := by decide +kernel

/-- R71's example is met by a table, and the codes it gives there are the spec's. -/
theorem witness_BuildReplacesTheCodeTable_example : ∃ s : State,
    (tableGet s.ft 0x41 = 1 ∧ tableGet s.ft 0x42 = 1 ∧ tableGet s.ft 0x43 = 2 ∧
      ∀ x : Sym, x ≠ 0x41 → x ≠ 0x42 → x ≠ 0x43 → tableGet s.ft x = 0) ∧
    passes (exec .build s) (fun t => tableGet t.ct 0x41 == ⟨true, 2, 0b00⟩ && tableGet t.ct 0x42 == ⟨true, 2, 0b01⟩ &&
      tableGet t.ct 0x43 == ⟨true, 1, 0b1⟩ && t.rspreg == some 0x0000000003) = true := by
  refine ⟨loaded [(0x41, 1), (0x42, 1), (0x43, 2)], ⟨by decide +kernel, by decide +kernel, by decide +kernel, ?_⟩, by
    decide +kernel⟩
  intro x h1 h2 h3
  simp only [loaded, table, List.foldl_cons, List.foldl_nil]
  rw [tableGet_tableSet, if_neg h3, tableGet_tableSet, if_neg h2, tableGet_tableSet, if_neg h1,
    tableGet_replicate]

theorem witness_BuildOnAnEmptyTableRaisesEmpty : ∃ s : State, (∀ x, tableGet s.ft x = 0) ∧ s.ct = codes2 :=
  ⟨{ State.reset with ct := codes2 }, fun x => by simp, rfl⟩

theorem present_two (a b : Sym) (c d : Count) (hab : a ≠ b) (hc : c ≠ 0) (hd : d ≠ 0) (x : Sym) :
    tableGet (loaded [(a, c), (b, d)]).ft x ≠ 0 ↔ x = a ∨ x = b := by
  simp only [loaded, table, List.foldl_cons, List.foldl_nil]
  rw [tableGet_tableSet, tableGet_tableSet]
  by_cases h : x = b
  · simpa [h] using hd
  · by_cases h2 : x = a
    · subst h2; simpa [h] using hc
    · simp [h, h2]

theorem witness_SingletonGetsTheEmptyCode : (∃ (s : State) (a : Sym), ∀ x, tableGet s.ft x ≠ 0 ↔ x = a) ∧
    ∃ s : State, s.ftn ≥ 2 := by
  refine ⟨?_, loaded [(0x41, 1), (0x42, 1)], by decide +kernel⟩
  refine ⟨loaded [(0x41, 4)], 0x41, fun x => ?_⟩
  simp only [loaded, table, List.foldl_cons, List.foldl_nil]
  rw [tableGet_tableSet]
  split
  · next h => exact iff_of_true (by decide) h
  · next h => exact iff_of_false (by simp) h

/-- V4 (a), different counts; V4 (c), equal counts. -/
theorem witness_TwoSymbolsGetOneBitEach :
    (∃ (s : State) (a b : Sym), a ≠ b ∧ (∀ x, tableGet s.ft x ≠ 0 ↔ (x = a ∨ x = b)) ∧
      tableGet s.ft a < tableGet s.ft b) ∧
    ∃ (s : State) (a b : Sym), a ≠ b ∧ (∀ x, tableGet s.ft x ≠ 0 ↔ (x = a ∨ x = b)) ∧
      tableGet s.ft a = tableGet s.ft b ∧ a < b :=
  ⟨⟨loaded [(0x62, 1), (0x61, 5)], 0x62, 0x61, by decide, present_two _ _ _ _ (by decide) (by decide) (by decide),
      by decide +kernel⟩,
    ⟨loaded [(0x00, 7), (0xFF, 7)], 0x00, 0xFF, by decide, present_two _ _ _ _ (by decide) (by decide) (by decide),
      by decide +kernel⟩⟩

theorem witness_BuildDependsOnlyOnTheCounts :
    (∃ s s' : State, s.ft = s'.ft ∧ s.ct ≠ s'.ct ∧ s.ftn ≠ 0) ∧ ∃ s s' : State, s.ft = s'.ft ∧ s.ct ≠ s'.ct ∧ s.ftn = 0 := by
  have h : codes2 ≠ State.reset.ct := fun h => absurd (congrArg (fun c => tableGet c 0x61) h) (by decide +kernel)
  exact ⟨⟨used, loaded [(0x71, 2)], rfl, h, by decide +kernel⟩,
    ⟨{ State.reset with ct := codes2 }, State.reset, rfl, h, by decide +kernel⟩⟩

/-- V5 (a), three symbols. -/
def abc : State := loaded [(0x41, 1), (0x42, 1), (0x43, 1)]

theorem witness_MergeLoopMakesOneTree : ftnOf abc.ft ≠ 0 ∧ 2 < ftnOf abc.ft := by decide +kernel

theorem abc_tree : buildTree abc.ft = some (.node (.leaf 0x43 1) (.node (.leaf 0x41 1) (.leaf 0x42 1))) := by decide +kernel

theorem witness_WeightsFitFortyBits : ∃ f T, buildTree f = some T ∧ T.isNode = true := ⟨_, _, abc_tree, rfl⟩

theorem witness_AnyCorrectQueueGivesTheTree : ∃ f T, buildTree f = some T := ⟨_, _, abc_tree⟩

theorem witness_BuiltCodesArePrefixFree : abc.ftn ≥ 2 ∧ abc.ftn ≠ 0 ∧ used.ftn ≠ 0 ∧ used.ftn = 1 := by decide +kernel

theorem witness_BuiltCodesFillTheTree : abc.ftn ≥ 2 := by decide +kernel

theorem witness_BuiltCodesAreOptimal : abc.ftn ≠ 0 ∧ used.ftn ≠ 0 ∧ used.ftn = 1 ∧
    PrefixFreeOn (present abc.ft) (fun x => if x = 0x41 then [false] else [true, x == 0x42]) := by
  have h : present abc.ft = [0x41, 0x42, 0x43] := by decide +kernel
  refine ⟨by decide +kernel, by decide +kernel, by decide +kernel, ?_⟩
  unfold PrefixFreeOn
  rw [h]
  decide

theorem witness_TotalLengthIsConserved : ∃ (s : State) (T : Tree) (text : List Sym), buildTree s.ft = some T ∧
    ∀ x, text.count x = (tableGet s.ft x).toNat := by
  refine ⟨abc, _, [0x43, 0x41, 0x42], abc_tree, fun x => ?_⟩
  simp only [abc, loaded, table, List.foldl_cons, List.foldl_nil]
  rw [tableGet_tableSet, tableGet_tableSet, tableGet_tableSet]
  by_cases h : x = 0x43
  · subst h; decide
  · by_cases h2 : x = 0x42
    · subst h2; decide
    · by_cases h3 : x = 0x41
      · subst h3; decide
      · have e1 : ¬ (0x43 : Sym) = x := fun e => h e.symm
        have e2 : ¬ (0x42 : Sym) = x := fun e => h2 e.symm
        have e3 : ¬ (0x41 : Sym) = x := fun e => h3 e.symm
        simp only [h, h2, h3, if_false, tableGet_replicate]
        rw [List.count_cons_of_ne e1, List.count_cons_of_ne e3, List.count_cons_of_ne e2]
        rfl

theorem witness_PhasesFollowTheSequence : abc.ftn ≠ 0 ∧ State.reset.ftn = 0 := by decide +kernel

theorem heap3_inv : HeapInv heap3 := by
  intro p h1 h2
  have h3 : p < 3 := h2
  interval_cases p
  · decide +kernel
  · decide +kernel

theorem witness_HeapPushKeepsTheOrder : ∃ w, HeapInv w ∧ w.hsize.toNat < 256 := ⟨heap3, heap3_inv, by decide +kernel⟩

theorem witness_HeapPopTakesTheLeast : ∃ w, HeapInv w ∧ 1 ≤ w.hsize.toNat ∧ w.hsize.toNat ≤ 256 :=
  ⟨heap3, heap3_inv, by decide +kernel, by decide +kernel⟩

theorem witness_NodesAreNumberedByCreation : ∃ s t, s.ftn ≠ 0 ∧ exec .build s = .next t ∧ (present s.ft)[0]? = some 0x41 ∧
    s.ftn ≤ 4 ∧ 4 ≤ 2 * s.ftn - 2 ∧ 3 < 2 * s.ftn - 2 ∧ nodesOf s.ft ≤ 5 :=
  have ⟨t, h, _⟩ := next_of_passes (o := exec .build abc) (q := fun _ => true) (by decide +kernel)
  ⟨abc, t, by decide +kernel, h, by decide +kernel, by decide +kernel, by decide +kernel, by decide +kernel,
    by decide +kernel⟩

theorem witness_BranchBitsMatchTheChildren : ∃ s t, s.ftn ≠ 0 ∧ exec .build s = .next t ∧ 2 < 2 * s.ftn - 2 ∧
    (t.work.nodeAt 2).pbit = false ∧ (t.work.nodeAt 3).pbit = true :=
  have ⟨t, h, h2⟩ := next_of_passes (o := exec .build abc)
    (q := fun t => !(t.work.nodeAt 2).pbit && (t.work.nodeAt 3).pbit) (by decide +kernel)
  ⟨abc, t, by decide +kernel, h, by decide +kernel, by simpa using h2⟩

theorem witness_WorkingStoresAreNotObservable : ∃ s s' : State, SameArchitecture s s' ∧ s.work ≠ s'.work := by
  refine ⟨used, { used with work := heap3 }, ⟨rfl, rfl, rfl⟩, fun h => ?_⟩
  exact absurd (congrArg Working.hsize h) (by decide +kernel)

theorem witness_ErrorsArePrecise :
    (∃ w s t r, runCommand w s = .next t ∧ t.rspreg = some r ∧ r.status ≠ 0x00) ∧
    ∃ w s t r, runCommand w s = .next t ∧ t.rspreg = some r ∧ r.status = 0x00 :=
  have ⟨t, h, h2⟩ := next_of_passes (o := runCommand 0x124100000000 State.reset)
    (q := fun t => t.rspreg == some 0x0400000000) (by decide +kernel)
  have ⟨t', h', h2'⟩ := next_of_passes (o := runCommand 0x130000000000 State.reset)
    (q := fun t => t.rspreg == some 0x0000000000) (by decide +kernel)
  ⟨⟨_, _, t, 0x0400000000, h, by simpa using h2, by decide⟩, ⟨_, _, t', 0x0000000000, h', by simpa using h2', by decide⟩⟩

theorem witness_DecodeCheckComesFirst : (∃ e, decode 0x080000000001 = .error e) ∧
    (Cmd.op 0x080000000001 = 0x08 ∧ Cmd.data 0x080000000001 ≠ 0) ∧
    (Cmd.op 0x043100000001 = 0x04 ∧ Cmd.data 0x043100000001 ≠ 0) ∧
    (Cmd.op 0x120000000008 = 0x12 ∧ (Cmd.data 0x120000000008).toNat ≥ 8) ∧
    (∃ s t, runCommand 0x080000000000 s = .next t ∧ t.rspreg = some (Rsp.make 0x01 0)) ∧
    (∃ s t, runCommand 0x047A00000000 s = .next t ∧ t.rspreg = some (Rsp.make 0x03 0)) ∧
    ∃ s t, runCommand 0x124100000000 s = .next t ∧ t.rspreg = some (Rsp.make 0x04 0) :=
  have ⟨t, h, h2⟩ := next_of_passes (o := runCommand 0x080000000000 State.reset)
    (q := fun t => t.rspreg == some (Rsp.make 0x01 0)) (by decide +kernel)
  have ⟨t', h', h2'⟩ := next_of_passes (o := runCommand 0x047A00000000 (loaded [(0x7A, 0xFFFFFFFF)]))
    (q := fun t => t.rspreg == some (Rsp.make 0x03 0)) (by decide +kernel)
  have ⟨t'', h'', h2''⟩ := next_of_passes (o := runCommand 0x124100000000 State.reset)
    (q := fun t => t.rspreg == some (Rsp.make 0x04 0)) (by decide +kernel)
  ⟨⟨_, (by decide : decode 0x080000000001 = .error .reservedNonzero)⟩, by decide, by decide, by decide,
    ⟨_, t, h, by simpa using h2⟩, ⟨_, t', h', by simpa using h2'⟩, ⟨_, t'', h'', by simpa using h2''⟩⟩

theorem witness_FlagsAreSticky : ∃ s t e, step s = .next t ∧ s.err.flag e = true ∧ t.err.flag e = false :=
  have ⟨t, h, h2⟩ := next_of_passes (o := step (presented 0x010000000000)) (q := fun t => !t.err.flag .noent)
    (by decide +kernel)
  ⟨_, t, .noent, h, rfl, by simpa using h2⟩

theorem witness_FlagsDoNotChangeBehaviour : decode 0x104100000000 ≠ .ok .rdst := by decide

theorem witness_TablesChangeOnlyByTheirCommands : ∃ s t, step s = .next t ∧ t.ct ≠ s.ct ∧ t.ft ≠ s.ft := by
  have ⟨t, h, h2⟩ := next_of_passes (o := step (presented 0x080000000000))
    (q := fun t => !(tableGet t.ct 0x61).v && tableGet t.ft 0x71 == 0) (by decide +kernel)
  have h3 : (tableGet t.ct 0x61).v = false ∧ tableGet t.ft 0x71 = 0 := by simpa using h2
  refine ⟨_, t, h, fun e => ?_, fun e => ?_⟩
  · rw [e] at h3; exact absurd h3.1 (by decide +kernel)
  · rw [e] at h3; exact absurd h3.2 (by decide +kernel)

theorem witness_CodeTableIsRetained : ∀ w ∈ [(0x114100000000 : Cmd), 0x043100000000, 0xFFFFFFFFFFFF],
    decode w ≠ .ok .init ∧ decode w ≠ .ok .build := by
  intro w hw
  simp only [List.mem_cons, List.not_mem_nil, or_false] at hw
  rcases hw with rfl | rfl | rfl <;> decide

theorem witness_RepeatedErrorsAreTheSame : ∃ w s t r, runCommand w s = .next t ∧ t.rspreg = some r ∧ r.status ≠ 0x00 :=
  witness_ErrorsArePrecise.1

end Sys2Proof.Tests
end

section
/-! The stored form of a bit-string (R16), the codes of a tree (R82, R90, R91) and the code table written from them
(R83, R87). -/

namespace Sys2Proof.Machine

/-! The stored form of a bit-string (R16) -/

/-- Bit `i` of a string, counted from its first, is bit `len - 1 - i` of its value. -/
theorem testBit_strVal (t : List Bool) (i : Nat) (h : i < t.length) : (strVal t).testBit (t.length - 1 - i) = t[i] := by
  induction t generalizing i with
  | nil => simp at h
  | cons b t ih =>
    rw [strVal_cons, Nat.mul_comm, Nat.testBit_two_pow_mul_add _ (strVal_lt t)]
    cases i with
    | zero => cases b <;> simp
    | succ i =>
      have hi : i < t.length := by simpa using h
      have e : (b :: t).length - 1 - (i + 1) = t.length - 1 - i := by simp only [List.length_cons]; omega
      rw [e, if_pos (by omega), ih i hi, List.getElem_cons_succ]

@[simp] theorem CtEntry.ofString_v (t : List Bool) : (CtEntry.ofString t).v = true := rfl

theorem CtEntry.ofString_len (t : List Bool) (h : t.length ≤ 255) : (CtEntry.ofString t).len.toNat = t.length :=
  Nat.mod_eq_of_lt (Nat.lt_succ_of_le h)

theorem CtEntry.ofString_code (t : List Bool) (h : t.length ≤ 255) : (CtEntry.ofString t).code.toNat = strVal t :=
  Nat.mod_eq_of_lt ((strVal_lt t).trans_le (Nat.pow_le_pow_right two_pos h))

/-- A stored string comes back (R16). -/
theorem CtEntry.ofString_str (t : List Bool) (h : t.length ≤ 255) : (CtEntry.ofString t).str = t := by
  have hlen := CtEntry.ofString_len t h
  apply List.ext_getElem
  · rw [CtEntry.str, strOf_length, hlen]
  · intro i _ hi
    rw [← testBit_strVal t i hi, ← CtEntry.ofString_code t h]
    simp [CtEntry.str, strOf, hlen, BitVec.testBit_toNat]

theorem CtEntry.ofString_stored (t : List Bool) (h : t.length ≤ 255) : (CtEntry.ofString t).Stored := by
  refine ⟨fun hv => absurd hv (by simp), ?_⟩
  rw [CtEntry.ofString_code t h, CtEntry.ofString_len t h]
  exact strVal_lt t

theorem CtEntry.absent_stored : CtEntry.absent.Stored := ⟨fun _ => ⟨rfl, rfl⟩, by decide⟩

/-! The codes of a tree (R82) -/

/-- A code of `node l r` is a code of `l` behind a 0 or a code of `r` behind a 1. -/
theorem Tree.mem_codes_node (l r : Tree) (p : Sym × List Bool) :
    p ∈ (Tree.node l r).codes ↔
      (∃ q ∈ l.codes, p = (q.1, false :: q.2)) ∨ ∃ q ∈ r.codes, p = (q.1, true :: q.2) := by
  simp only [Tree.codes, List.mem_append, List.mem_map, eq_comm]

theorem Tree.codes_length (t : Tree) : t.codes.length = t.leaves.length := by
  simpa using congrArg List.length t.codes_syms

theorem Tree.leaves_length_pos (t : Tree) : 0 < t.leaves.length := by
  induction t with
  | leaf s w => exact Nat.one_pos
  | node l r hl hr => rw [Tree.leaves, List.length_append]; omega

/-- A code is shorter than the number of leaves (R80). -/
theorem Tree.code_length_lt (t : Tree) : ∀ p ∈ t.codes, p.2.length < t.leaves.length := by
  induction t with
  | leaf s w => simp [Tree.codes, Tree.leaves]
  | node l r hl hr =>
    intro p hp
    have hl1 := l.leaves_length_pos
    have hr1 := r.leaves_length_pos
    rw [Tree.leaves, List.length_append]
    rcases (Tree.mem_codes_node l r p).1 hp with ⟨q, hq, rfl⟩ | ⟨q, hq, rfl⟩
    · have := hl q hq
      simp only [List.length_cons]; omega
    · have := hr q hq
      simp only [List.length_cons]; omega

/-- No code begins another symbol's (R90): two codes part at the node where their paths do. -/
theorem Tree.codes_prefixFree (t : Tree) :
    ∀ p ∈ t.codes, ∀ q ∈ t.codes, p.1 ≠ q.1 → ¬ p.2 <+: q.2 := by
  induction t with
  | leaf s w => simp [Tree.codes]
  | node l r hl hr =>
    intro p hp q hq hne
    rcases (Tree.mem_codes_node l r p).1 hp with ⟨p', hp', rfl⟩ | ⟨p', hp', rfl⟩ <;>
      rcases (Tree.mem_codes_node l r q).1 hq with ⟨q', hq', rfl⟩ | ⟨q', hq', rfl⟩
    · simpa using hl p' hp' q' hq' hne
    · simp
    · simp
    · simpa using hr p' hp' q' hq' hne

/-- The Kraft sum of a tree is 1, in units of `2^(-K)` for any `K` that no code exceeds (R91). -/
theorem Tree.kraft (t : Tree) (K : Nat) (h : ∀ p ∈ t.codes, p.2.length ≤ K) :
    (t.codes.map (fun p => 2 ^ (K - p.2.length))).sum = 2 ^ K := by
  induction t generalizing K with
  | leaf s w => simp [Tree.codes]
  | node l r hl hr =>
    simp only [Tree.mem_codes_node] at h
    have hl' : ∀ q ∈ l.codes, q.2.length + 1 ≤ K := fun q hq => h _ (.inl ⟨q, hq, rfl⟩)
    have hr' : ∀ q ∈ r.codes, q.2.length + 1 ≤ K := fun q hq => h _ (.inr ⟨q, hq, rfl⟩)
    have hK : 1 ≤ K := by
      obtain ⟨q, hq⟩ := List.exists_mem_of_length_pos (l.codes_length ▸ l.leaves_length_pos)
      have := hl' q hq
      omega
    obtain ⟨K, rfl⟩ := Nat.exists_eq_add_of_le' hK
    have sl := hl K (fun q hq => Nat.le_of_succ_le_succ (hl' q hq))
    have sr := hr K (fun q hq => Nat.le_of_succ_le_succ (hr' q hq))
    simp only [Tree.codes, List.map_append, List.map_map, Function.comp_def, List.length_cons, Nat.add_sub_add_right,
      List.sum_append, sl, sr]
    omega

/-! The tree of a table (R72) -/

/-- A merge pass keeps the leaves of the live set (R72). -/
theorem mergeOnce_leaves (q : List Tree) : ((mergeOnce q).flatMap Tree.leaves).Perm (q.flatMap Tree.leaves) := by
  match q with
  | [] => exact .refl _
  | [_] => exact .refl _
  | t :: u :: us =>
    obtain ⟨lo, hi, rest, h, hp, -, -⟩ := mergeOnce_cons_cons t u us
    rw [h]
    simpa [Tree.leaves] using hp.flatMap_right Tree.leaves

theorem mergePasses_leaves (k : Nat) (q : List Tree) :
    ((mergePasses k q).flatMap Tree.leaves).Perm (q.flatMap Tree.leaves) := by
  induction k generalizing q with
  | zero => exact .refl _
  | succ k ih => exact (ih _).trans (mergeOnce_leaves q)

/-- Each pass shrinks the live set by one, down to one (R72). -/
theorem mergePasses_length (k : Nat) (q : List Tree) (h : k < q.length) : (mergePasses k q).length = q.length - k := by
  induction k generalizing q with
  | zero => rfl
  | succ k ih =>
    have hq : (mergeOnce q).length = q.length - 1 := by rw [mergeOnce_length, if_neg (by omega)]
    rw [mergePasses, ih _ (by omega), hq]
    omega

/-- The merge loop ends with one tree, unless the table is empty (R72, R86). -/
theorem buildTree_eq_some (f : FreqTable) (T : Tree) :
    buildTree f = some T ↔ mergePasses ((leafSet f).length - 1) (leafSet f) = [T] := by
  rw [buildTree]
  constructor
  · intro h
    obtain ⟨rest, hq⟩ := List.head?_eq_some_iff.1 h
    rcases Nat.eq_zero_or_pos (leafSet f).length with h0 | h0
    · rw [List.eq_nil_of_length_eq_zero h0] at hq
      cases hq
    · have := mergePasses_length _ (leafSet f) (Nat.sub_lt h0 Nat.one_pos)
      rw [hq, List.length_cons] at this
      rw [hq, List.eq_nil_of_length_eq_zero (l := rest) (by omega)]
  · intro h
    rw [h, List.head?_cons]

/-- No tree exactly for the empty table (R86). -/
theorem buildTree_eq_none (f : FreqTable) : buildTree f = none ↔ ftnOf f = 0 := by
  rw [buildTree, List.head?_eq_none_iff, ← leafSet_length]
  constructor
  · intro h
    by_contra h0
    have := mergePasses_length _ (leafSet f) (Nat.sub_lt (Nat.pos_of_ne_zero h0) Nat.one_pos)
    rw [h, List.length_nil] at this
    omega
  · intro h
    rw [List.eq_nil_of_length_eq_zero h]
    rfl

/-- The leaves of the tree are the symbols present, each once (R72). -/
theorem buildTree_leaves (f : FreqTable) (T : Tree) (h : buildTree f = some T) :
    (T.leaves.map Prod.fst).Perm (present f) := by
  have hp := mergePasses_leaves ((leafSet f).length - 1) (leafSet f)
  rw [(buildTree_eq_some f T).1 h] at hp
  simpa [leafSet, List.flatMap_map, Tree.leaves, List.map_flatMap] using hp.map Prod.fst

theorem buildTree_leaves_length (f : FreqTable) (T : Tree) (h : buildTree f = some T) : T.leaves.length = ftnOf f := by
  simpa [ftnOf] using (buildTree_leaves f T h).length_eq

theorem buildTree_codes_syms (f : FreqTable) (T : Tree) (h : buildTree f = some T) :
    (T.codes.map Prod.fst).Perm (present f) := T.codes_syms ▸ buildTree_leaves f T h

/-- No symbol has two codes (R82). -/
theorem buildTree_codes_nodup (f : FreqTable) (T : Tree) (h : buildTree f = some T) : (T.codes.map Prod.fst).Nodup :=
  (buildTree_codes_syms f T h).nodup_iff.2 (nodup_present f)

/-- A code has at most 255 bits (R80). -/
theorem buildTree_code_length (f : FreqTable) (T : Tree) (h : buildTree f = some T) :
    ∀ p ∈ T.codes, p.2.length ≤ 255 := by
  intro p hp
  have h1 := T.code_length_lt p hp
  have h2 := buildTree_leaves_length f T h
  have h3 := ftnOf_le f
  omega

/-! The code table of a tree (R83, R87) -/

/-- Writes to other symbols leave an entry alone. -/
theorem tableGet_foldl_tableSet_of_not_mem {α β : Type} (g : β → α) (l : List (Sym × β)) (c : Vector α Config.nsym)
    (x : Sym) (h : x ∉ l.map Prod.fst) :
    tableGet (l.foldl (fun c p => tableSet c p.1 (g p.2)) c) x = tableGet c x := by
  induction l generalizing c with
  | nil => rfl
  | cons p l ih =>
    rw [List.map_cons, List.mem_cons, not_or] at h
    rw [List.foldl_cons, ih _ h.2, tableGet_tableSet_ne _ _ h.1]

/-- After writes to distinct symbols each of them holds what was written. -/
theorem tableGet_foldl_tableSet_of_mem {α β : Type} (g : β → α) (l : List (Sym × β)) (c : Vector α Config.nsym)
    (hn : (l.map Prod.fst).Nodup) (p : Sym × β) (h : p ∈ l) :
    tableGet (l.foldl (fun c p => tableSet c p.1 (g p.2)) c) p.1 = g p.2 := by
  induction l generalizing c with
  | nil => cases h
  | cons q l ih =>
    rw [List.map_cons, List.nodup_cons] at hn
    rw [List.foldl_cons]
    rcases List.mem_cons.1 h with rfl | h
    · rw [tableGet_foldl_tableSet_of_not_mem g l _ _ hn.1, tableGet_tableSet_self]
    · exact ih _ hn.2 h

section
variable (T : Tree) (hn : (T.codes.map Prod.fst).Nodup)

theorem codeTableOf_of_not_mem (x : Sym) (h : x ∉ T.codes.map Prod.fst) :
    tableGet (codeTableOf T) x = CtEntry.absent := by
  rw [codeTableOf, tableGet_foldl_tableSet_of_not_mem _ _ _ _ h, tableGet_replicate]

include hn

theorem codeTableOf_of_mem (p : Sym × List Bool) (h : p ∈ T.codes) :
    tableGet (codeTableOf T) p.1 = CtEntry.ofString p.2 :=
  tableGet_foldl_tableSet_of_mem _ _ _ hn p h

theorem mem_coded_codeTableOf (x : Sym) : x ∈ coded (codeTableOf T) ↔ x ∈ T.codes.map Prod.fst := by
  rw [mem_coded]
  by_cases h : x ∈ T.codes.map Prod.fst
  · obtain ⟨p, hp, rfl⟩ := List.mem_map.1 h
    simp only [codeTableOf_of_mem T hn p hp, CtEntry.ofString_v, h]
  · simp [codeTableOf_of_not_mem T x h, CtEntry.absent, h]

/-- The symbols with a code are those of the tree's leaves (R71). -/
theorem coded_codeTableOf_perm : (coded (codeTableOf T)).Perm (T.codes.map Prod.fst) :=
  (List.perm_ext_iff_of_nodup (nodup_coded _) hn).2 (mem_coded_codeTableOf T hn)

end

section
variable (f : FreqTable) (T : Tree) (h : buildTree f = some T)
include h

/-- R17 (a), (b) of a build. -/
theorem ctStored_codeTableOf : CtStored (codeTableOf T) := by
  intro x
  by_cases hx : x ∈ T.codes.map Prod.fst
  · obtain ⟨p, hp, rfl⟩ := List.mem_map.1 hx
    rw [codeTableOf_of_mem T (buildTree_codes_nodup f T h) p hp]
    exact CtEntry.ofString_stored _ (buildTree_code_length f T h p hp)
  · rw [codeTableOf_of_not_mem T x hx]
    exact CtEntry.absent_stored

/-- R90 of a build. -/
theorem prefixFree_codeTableOf : PrefixFree (codeTableOf T) := by
  have hn := buildTree_codes_nodup f T h
  have hlen := buildTree_code_length f T h
  intro a ha b hb hne
  obtain ⟨p, hp, rfl⟩ := List.mem_map.1 ((mem_coded_codeTableOf T hn a).1 ha)
  obtain ⟨q, hq, rfl⟩ := List.mem_map.1 ((mem_coded_codeTableOf T hn b).1 hb)
  rw [codeTableOf_of_mem T hn p hp, codeTableOf_of_mem T hn q hq, CtEntry.ofString_str _ (hlen p hp),
    CtEntry.ofString_str _ (hlen q hq)]
  exact T.codes_prefixFree p hp q hq hne

/-- The Kraft equality of R91 of a build. -/
theorem kraftSum_codeTableOf : kraftSum (codeTableOf T) = 2 ^ Config.codeW := by
  have hn := buildTree_codes_nodup f T h
  have hlen := buildTree_code_length f T h
  rw [kraftSum, ((coded_codeTableOf_perm T hn).map _).sum_eq, List.map_map, ← T.kraft Config.codeW hlen]
  congr 1
  refine List.map_congr_left fun p hp => ?_
  rw [Function.comp_apply, codeTableOf_of_mem T hn p hp, CtEntry.ofString_len _ (hlen p hp)]

/-- `CTN` of a build is the number of symbols that were present (R71). -/
theorem ctnOf_codeTableOf : ctnOf (codeTableOf T) = ftnOf f :=
  ((coded_codeTableOf_perm T (buildTree_codes_nodup f T h)).trans (buildTree_codes_syms f T h)).length_eq

/-- A table with one code has the empty one (R84). -/
theorem len_codeTableOf_of_one (h1 : ctnOf (codeTableOf T) = 1) :
    ∀ x ∈ coded (codeTableOf T), (tableGet (codeTableOf T) x).len = 0 := by
  have hn := buildTree_codes_nodup f T h
  intro x hx
  obtain ⟨p, hp, rfl⟩ := List.mem_map.1 ((mem_coded_codeTableOf T hn x).1 hx)
  have hleaves : T.leaves.length = 1 := by rw [buildTree_leaves_length f T h, ← ctnOf_codeTableOf f T h, h1]
  have hp2 := T.code_length_lt p hp
  rw [codeTableOf_of_mem T hn p hp, List.eq_nil_of_length_eq_zero (l := p.2) (by omega)]
  rfl

/-- R17 (d), (e) of a build. -/
theorem ctCode_codeTableOf : CtCode (codeTableOf T) :=
  ⟨fun _ => ⟨prefixFree_codeTableOf f T h, kraftSum_codeTableOf f T h⟩, len_codeTableOf_of_one f T h⟩

end

end Sys2Proof.Machine
end

section
/-! The run of the sequencer (R73): what each phase does, and the working stores left when it is back in IDLE. -/

namespace Sys2Proof.Machine

/-! One phase at a time, by what `PHASE` says -/

section
variable (q : SeqState)

theorem seqStep_of_idle (h : q.st.work.phase = .idle) : seqStep q = q := by
  simp [seqStep, h]

/-- SCAN of a table with no symbol present is `E_EMPTY`. -/
theorem seqStep_of_scan_empty (h : q.st.work.phase = .scan) (h0 : (scanPhase q.st.ft q.st.work).nnext = 0) :
    seqStep q = { q with
      st := (q.st.setWork ((scanPhase q.st.ft q.st.work).setPhase .idle)).raise .empty
      n := (scanPhase q.st.ft q.st.work).nnext } := by
  simp [seqStep, h, h0]

theorem seqStep_of_scan (h : q.st.work.phase = .scan) (h0 : (scanPhase q.st.ft q.st.work).nnext ≠ 0) :
    seqStep q = { q with
      st := q.st.setWork ((scanPhase q.st.ft q.st.work).setPhase .merge)
      n := (scanPhase q.st.ft q.st.work).nnext } := by
  simp only [seqStep, h, h0, if_false]

theorem seqStep_of_merge (h : q.st.work.phase = .merge) :
    seqStep q = { q with
      st := q.st.setWork ((mergeWhile (Config.nsym - 1) q.st.work).setPhase .extract)
      root := (mergeWhile (Config.nsym - 1) q.st.work).heapAt 0 } := by
  simp only [seqStep, h]

theorem seqStep_of_extract (h : q.st.work.phase = .extract) :
    seqStep q = { q with
      st := { q.st.setWork (q.st.work.setPhase .finish) with ct := extractPhase q.st.work q.n q.root } } := by
  simp only [seqStep, h]

theorem seqStep_of_finish (h : q.st.work.phase = .finish) :
    seqStep q = { q with
      st := ((q.st.clearFt).setWork (q.st.work.setPhase .idle)).respond (q.n.zeroExtend Config.dataW) } := by
  simp only [seqStep, h]

end

/-- The working stores after SCAN. -/
def scanned (s : State) : Working := scanPhase s.ft (s.work.setPhase .scan)

/-- The working stores after MERGE. -/
def merged (s : State) : Working := mergeWhile (Config.nsym - 1) ((scanned s).setPhase .merge)

/-- On `E_EMPTY` the run leaves the stores as SCAN left them. -/
theorem runSequencer_work_of_empty (s : State) (h : (scanned s).nnext = 0) :
    (runSequencer s).work = (scanned s).setPhase .idle := by
  have h1 := seqStep_of_scan_empty (seqStart s) rfl h
  have hidle : seqStep (seqStep (seqStart s)) = seqStep (seqStart s) := seqStep_of_idle _ (by rw [h1]; rfl)
  rw [runSequencer, hidle, hidle, hidle, h1]
  rfl

/-- On success it leaves them as MERGE left them: EXTRACT and FINISH only move `PHASE` on. -/
theorem runSequencer_work_of_built (s : State) (h : (scanned s).nnext ≠ 0) :
    (runSequencer s).work = (merged s).setPhase .idle := by
  have h1 := seqStep_of_scan (seqStart s) rfl h
  have h2 := seqStep_of_merge (seqStep (seqStart s)) (by rw [h1]; rfl)
  have h3 := seqStep_of_extract (seqStep (seqStep (seqStart s))) (by rw [h2]; rfl)
  have h4 := seqStep_of_finish (seqStep (seqStep (seqStep (seqStart s)))) (by rw [h3]; rfl)
  rw [runSequencer, h4, h3, h2, h1]
  rfl

/-- The sequencer ends in IDLE (R73). -/
theorem runSequencer_phase (s : State) : (runSequencer s).work.phase = .idle := by
  by_cases h : (scanned s).nnext = 0
  · rw [runSequencer_work_of_empty s h, Working.setPhase_phase]
  · rw [runSequencer_work_of_built s h, Working.setPhase_phase]

end Sys2Proof.Machine
end

section
/-! The flags, the cleared tables, the responses and the status word. -/

namespace Sys2Proof.Machine

/-- Setting a flag leaves the others alone (R108). -/
theorem ErrFlags.flag_setFlag (f : ErrFlags) (e e' : ErrCode) :
    (f.setFlag e').flag e = (decide (e = e') || f.flag e) := by
  cases e <;> cases e' <;> rfl

/-! The cleared code table (R24, R87) -/

theorem ctStored_cleared : CtStored (Vector.replicate Config.nsym CtEntry.absent) := fun x => by
  rw [tableGet_replicate]
  exact CtEntry.absent_stored

theorem ctCode_cleared : CtCode (Vector.replicate Config.nsym CtEntry.absent) := by
  simp [CtCode]

/-! Legal responses (R54, R55) -/

theorem legalResponse_ok (d : Data) : LegalResponse (Rsp.make statusOk d) := ⟨_, _, rfl, .inl rfl⟩

theorem legalResponse_error (e : ErrCode) : LegalResponse (Rsp.make (errStatus e) 0) := ⟨_, _, rfl, .inr ⟨rfl, e, rfl⟩⟩

/-! The status word (R19) -/

section
open BitVec
variable (c : CodeTable) (f : FreqTable) (e : ErrFlags)

theorem statusWord_ctn : ((statusWord c f e).extractLsb' 0 9).toNat = ctnOf c := by
  have h := ctnOf_le c
  rw [statusWord_eq, extractLsb'_append_eq_of_add_le (by decide), extractLsb'_eq_self, toNat_ofNat]
  omega

theorem statusWord_reserved_low : (statusWord c f e).extractLsb' 9 7 = 0 := by
  rw [statusWord_eq, extractLsb'_append_eq_of_le (by decide), extractLsb'_append_eq_of_add_le (by decide)]
  rfl

theorem statusWord_ftn : ((statusWord c f e).extractLsb' 16 9).toNat = ftnOf f := by
  have h := ftnOf_le f
  rw [statusWord_eq, extractLsb'_append_eq_of_le (by decide), extractLsb'_append_eq_of_le (by decide),
    extractLsb'_append_eq_of_add_le (by decide), extractLsb'_eq_self, toNat_ofNat]
  omega

theorem statusWord_reserved_high : (statusWord c f e).extractLsb' 25 3 = 0 := by
  rw [statusWord_eq, extractLsb'_append_eq_of_le (by decide), extractLsb'_append_eq_of_le (by decide),
    extractLsb'_append_eq_of_le (by decide), extractLsb'_append_eq_of_add_le (by decide)]
  rfl

theorem statusWord_flags : (statusWord c f e).getLsbD 28 = e.empty ∧ (statusWord c f e).getLsbD 29 = e.illegal ∧
    (statusWord c f e).getLsbD 30 = e.cntovf ∧ (statusWord c f e).getLsbD 31 = e.noent := by
  rw [statusWord_eq]
  simp only [getLsbD_append, getLsbD_ofBool]
  simp

end

/-- The status word where both tables are empty and no flag is set. -/
theorem statusWord_reset : statusWord State.reset.ct State.reset.ft State.reset.err = 0 := by
  rw [statusWord_eq, State.reset_ct, State.reset_ft, ctnOf_replicate, ftnOf_replicate]
  rfl

end Sys2Proof.Machine
end

section
/-! What a command, a word and a step can do, each said once. -/

namespace Sys2Proof.Machine

/-- The possible ends of a command from state `s` (R60): one constructor per branch of the commands' meanings. -/
inductive CommandEnd (s : State) : Instr → State → Prop where
  | init : CommandEnd s .init (s.clearFt.clearCt.clearErr.respond 0)
  | clrf : CommandEnd s .clrf (s.clearFt.respond 0)
  | setf (x : Sym) (c : Count) : CommandEnd s (.setf x c) ((s.writeFt x c).respond 0)
  | incfOverflow (x : Sym) (h : tableGet s.ft x = Config.maxCount) : CommandEnd s (.incf x) (s.raise .cntovf)
  | incf (x : Sym) (h : tableGet s.ft x ≠ Config.maxCount) :
      CommandEnd s (.incf x) ((s.writeFt x (tableGet s.ft x + 1)).respond (tableGet s.ft x + 1))
  | buildEmpty (h : buildTree s.ft = none) :
      CommandEnd s .build ((s.setWork (runSequencer s).work).raise .empty)
  | build (T : Tree) (h : buildTree s.ft = some T) :
      CommandEnd s .build (({ s.setWork (runSequencer s).work with ct := codeTableOf T }).clearFt.respond
        (BitVec.ofNat Config.dataW s.ftn))
  | rdf (x : Sym) : CommandEnd s (.rdf x) (s.respond (tableGet s.ft x))
  | rdl (x : Sym) : CommandEnd s (.rdl x) (s.respond (lengthWord (tableGet s.ct x)))
  | rdc (x : Sym) (k : ChunkIdx) (h : (tableGet s.ct x).v = true) :
      CommandEnd s (.rdc x k) (s.respond (codeChunk (tableGet s.ct x).code k))
  | rdcAbsent (x : Sym) (k : ChunkIdx) (h : (tableGet s.ct x).v = false) : CommandEnd s (.rdc x k) (s.raise .noent)
  | rdst : CommandEnd s .rdst (s.respond s.status)

/-- Each end is what the command answers. -/
theorem CommandEnd.exec_eq {s t : State} {i : Instr} (h : CommandEnd s i t) : exec i s = .next t := by
  cases h with
  | incfOverflow x h => exact if_pos h
  | incf x h => exact if_neg h
  | buildEmpty h => exact execBuild_none s h
  | build T h => exact execBuild_some s T h
  | rdc x k h => exact if_pos h
  | rdcAbsent x k h => exact if_neg (by simp [h])
  | _ => rfl

/-- Every command has an end in every state. -/
theorem exists_commandEnd (i : Instr) (s : State) : ∃ t, CommandEnd s i t := by
  cases i with
  | init => exact ⟨_, .init⟩
  | clrf => exact ⟨_, .clrf⟩
  | setf x c => exact ⟨_, .setf x c⟩
  | incf x =>
    by_cases h : tableGet s.ft x = Config.maxCount
    · exact ⟨_, .incfOverflow x h⟩
    · exact ⟨_, .incf x h⟩
  | build =>
    cases h : buildTree s.ft with
    | none => exact ⟨_, .buildEmpty h⟩
    | some T => exact ⟨_, .build T h⟩
  | rdf x => exact ⟨_, .rdf x⟩
  | rdl x => exact ⟨_, .rdl x⟩
  | rdc x k =>
    cases h : (tableGet s.ct x).v with
    | false => exact ⟨_, .rdcAbsent x k h⟩
    | true => exact ⟨_, .rdc x k h⟩
  | rdst => exact ⟨_, .rdst⟩

/-- `exec` answers a next state exactly at an end of the command. -/
theorem exec_eq_next {i : Instr} {s t : State} : exec i s = .next t ↔ CommandEnd s i t := by
  refine ⟨fun h => ?_, CommandEnd.exec_eq⟩
  obtain ⟨u, hu⟩ := exists_commandEnd i s
  exact Host.Outcome.next.inj (hu.exec_eq.symm.trans h) ▸ hu

section
variable {s t : State} {i : Instr}

/-- What a command does to the code table (R15, R42). -/
theorem CommandEnd.ct_cases (h : CommandEnd s i t) :
    t.ct = s.ct ∨ (i = .init ∧ t.ct = Vector.replicate Config.nsym CtEntry.absent) ∨
      (i = .build ∧ ∃ T, buildTree s.ft = some T ∧ t.ct = codeTableOf T) := by
  cases h
  case init => exact .inr (.inl ⟨rfl, rfl⟩)
  case build T h => exact .inr (.inr ⟨rfl, T, h, rfl⟩)
  all_goals exact .inl rfl

/-- Which commands change the frequency table (R13, R42). -/
theorem CommandEnd.ft_cases (h : CommandEnd s i t) :
    t.ft = s.ft ∨ i = .init ∨ i = .clrf ∨ i = .build ∨ (∃ x c, i = .setf x c) ∨ ∃ x, i = .incf x := by
  cases h <;> simp

/-- What a command does to the flags (R18, R108). -/
theorem CommandEnd.err_cases (h : CommandEnd s i t) :
    t.err = s.err ∨ i = .init ∨ ∃ e, t.err = s.err.setFlag e := by
  cases h
  case init => exact .inr (.inl rfl)
  case incfOverflow => exact .inr (.inr ⟨.cntovf, rfl⟩)
  case buildEmpty => exact .inr (.inr ⟨.empty, rfl⟩)
  case rdcAbsent => exact .inr (.inr ⟨.noent, rfl⟩)
  all_goals exact .inl rfl

/-- Every command leaves one legal response (R54, R55). -/
theorem CommandEnd.response (h : CommandEnd s i t) : ∃ r, t.rspreg = some r ∧ LegalResponse r := by
  cases h
  case incfOverflow => exact ⟨_, rfl, legalResponse_error .cntovf⟩
  case buildEmpty => exact ⟨_, rfl, legalResponse_error .empty⟩
  case rdcAbsent => exact ⟨_, rfl, legalResponse_error .noent⟩
  all_goals exact ⟨_, rfl, legalResponse_ok _⟩

/-- `PHASE` is IDLE after a command (R22, R73). -/
theorem CommandEnd.phase (h : CommandEnd s i t) (hs : s.work.phase = .idle) : t.work.phase = .idle := by
  cases h
  case buildEmpty => exact runSequencer_phase s
  case build => exact runSequencer_phase s
  all_goals exact hs

end

/-! A word (R52, R60) -/

/-- A word that runs to a next state is an illegal one or ends as its command does. -/
theorem commandEnd_of_runCommand {w : Cmd} {s t : State} (h : runCommand w s = .next t) :
    t = s.raise .illegal ∨ ∃ i, decode w = .ok i ∧ CommandEnd s i t := by
  cases hd : decode w with
  | error e =>
    rw [runCommand_error w s e hd] at h
    exact .inl (Host.Outcome.next.inj h).symm
  | ok i => exact .inr ⟨i, rfl, exec_eq_next.1 (runCommand_ok w s i hd ▸ h)⟩

/-- Every word leaves one legal response (R54, R55). -/
theorem runCommand_response {w : Cmd} {s t : State} (h : runCommand w s = .next t) :
    ∃ r, t.rspreg = some r ∧ LegalResponse r := by
  rcases commandEnd_of_runCommand h with rfl | ⟨i, -, hend⟩
  · exact ⟨_, rfl, legalResponse_error .illegal⟩
  · exact hend.response

theorem runCommand_phase {w : Cmd} {s t : State} (h : runCommand w s = .next t) (hs : s.work.phase = .idle) :
    t.work.phase = .idle := by
  rcases commandEnd_of_runCommand h with rfl | ⟨i, -, hend⟩
  · exact hs
  · exact hend.phase hs

/-- No word touches the ports (R57: acceptance and taking are the handshake's). -/
theorem runCommand_samePorts {w : Cmd} {s t : State} (h : runCommand w s = .next t) : SamePorts s t := by
  cases hd : decode w with
  | error e => rw [runCommand_error w s e hd] at h; cases h; exact ⟨rfl, rfl, rfl, rfl⟩
  | ok i => exact exec_samePorts i s t (runCommand_ok w s i hd ▸ h)

/-! A step (R57, R125) -/

/-- The possible ends of a step from state `s` that answers a next state. -/
inductive StepEnd (s : State) : State → Prop where
  | noEdge : StepEnd s s
  | reset (rest : List PortIn) (h : s.resetsNext = true) : StepEnd s (State.hardReset { s with inputs := rest })
  | accept (rest : List PortIn) (w : Cmd) (t : State) (hw : s.acceptedWord = some w)
      (h : runCommand w (State.accept { s with inputs := rest }) = .next t) : StepEnd s t
  | wait (rest : List PortIn) (p : PortIn) :
      StepEnd s ((State.takeResponse { s with inputs := rest } p.rspReady).holdCommand p)

theorem stepEnd_of_step {s t : State} (h : step s = .next t) : StepEnd s t := by
  cases hin : s.inputs with
  | nil =>
    rw [step_no_edge s hin] at h
    cases h
    exact .noEdge
  | cons p rest =>
    rw [step_edge s p rest hin] at h
    rcases clockEdge_cases p { s with inputs := rest } with
      ⟨hr, hc⟩ | ⟨-, -, hc⟩ | ⟨hr, hh, hv, hb, hc⟩ | ⟨-, -, -, hc⟩ <;> rw [hc] at h
    · cases h
      exact .reset rest (by simp [State.resetsNext, hin, hr])
    · cases h
    · refine .accept rest p.cmd t ?_ h
      have hh' : s.handshakeBrokenBy p = false := hh
      have hb' : s.busy = false := hb
      simp [State.acceptedWord, State.accepts, hin, hr, hh', hv, hb']
    · cases h
      exact .wait rest p

section
variable {s t : State}

/-- What a step does to the code table: only reset, `INIT` and a `BUILD` of a non-empty table change it (R15, R42). -/
theorem StepEnd.ct_cases (h : StepEnd s t) :
    t.ct = s.ct ∨
    (t.ct = Vector.replicate Config.nsym CtEntry.absent ∧
      (s.resetsNext = true ∨ ∃ w, s.acceptedWord = some w ∧ decode w = .ok .init)) ∨
    ∃ w T, s.acceptedWord = some w ∧ decode w = .ok .build ∧ buildTree s.ft = some T ∧ t.ct = codeTableOf T := by
  cases h with
  | noEdge => exact .inl rfl
  | reset rest h => exact .inr (.inl ⟨rfl, .inl h⟩)
  | wait rest p => exact .inl (State.takeResponse_ct _ _)
  | accept rest w t hw hrun =>
    rcases commandEnd_of_runCommand hrun with rfl | ⟨i, hi, hend⟩
    · exact .inl rfl
    · rcases hend.ct_cases with hct | ⟨rfl, hct⟩ | ⟨rfl, T, hT, hct⟩
      · exact .inl hct
      · exact .inr (.inl ⟨hct, .inr ⟨w, hw, hi⟩⟩)
      · exact .inr (.inr ⟨w, T, hw, hi, hT, hct⟩)

/-- What steps change the frequency table (R13, R42). -/
theorem StepEnd.ft_cases (h : StepEnd s t) :
    t.ft = s.ft ∨ s.resetsNext = true ∨ ∃ w i, s.acceptedWord = some w ∧ decode w = .ok i ∧
      (i = .init ∨ i = .clrf ∨ i = .build ∨ (∃ x c, i = .setf x c) ∨ ∃ x, i = .incf x) := by
  cases h with
  | noEdge => exact .inl rfl
  | reset rest h => exact .inr (.inl h)
  | wait rest p => exact .inl (State.takeResponse_ft _ _)
  | accept rest w t hw hrun =>
    rcases commandEnd_of_runCommand hrun with rfl | ⟨i, hi, hend⟩
    · exact .inl rfl
    · exact hend.ft_cases.imp_right fun hc => .inr ⟨w, i, hw, hi, hc⟩

/-- What a step does to the flags (R18, R110). -/
theorem StepEnd.err_cases (h : StepEnd s t) :
    t.err = s.err ∨ (∃ e, t.err = s.err.setFlag e) ∨ s.resetsNext = true ∨
      ∃ w, s.acceptedWord = some w ∧ decode w = .ok .init := by
  cases h with
  | noEdge => exact .inl rfl
  | reset rest h => exact .inr (.inr (.inl h))
  | wait rest p => exact .inl (State.takeResponse_err _ _)
  | accept rest w t hw hrun =>
    rcases commandEnd_of_runCommand hrun with rfl | ⟨i, hi, hend⟩
    · exact .inr (.inl ⟨.illegal, rfl⟩)
    · rcases hend.err_cases with herr | rfl | herr
      · exact .inl herr
      · exact .inr (.inr (.inr ⟨w, hw, hi⟩))
      · exact .inr (.inl herr)

/-- An invariant of the code table alone: it holds of the cleared table and of every build's, so every step keeps it. -/
theorem StepEnd.ct_invariant (P : CodeTable → Prop) (hclear : P (Vector.replicate Config.nsym CtEntry.absent))
    (hbuild : ∀ f T, buildTree f = some T → P (codeTableOf T)) (h : StepEnd s t) (hs : P s.ct) : P t.ct := by
  rcases h.ct_cases with hct | ⟨hct, -⟩ | ⟨-, T, -, -, hT, hct⟩
  · exact hct ▸ hs
  · exact hct ▸ hclear
  · exact hct ▸ hbuild s.ft T hT

end

/-- A response that waits is taken with `BUSY`, so the ports keep their invariant (R57 (e)). -/
theorem portInv_takeResponse (s : State) (b : Bool) (h : PortInv s) : PortInv (s.takeResponse b) := by
  cases b with
  | false => rwa [State.takeResponse_false]
  | true =>
    cases hr : s.rspreg with
    | none => rwa [State.takeResponse_none s true hr]
    | some r =>
      obtain ⟨-, hphase, hwait, htaken⟩ := h
      rw [State.takeResponse_some s r hr]
      refine ⟨by simp, hphase, by simp, fun q hq => ?_⟩
      rcases List.mem_append.1 hq with hq | hq
      · exact htaken q hq
      · exact List.mem_singleton.1 hq ▸ hwait r hr

theorem StepEnd.portInv {s t : State} (h : StepEnd s t) (hs : PortInv s) : PortInv t := by
  cases h with
  | noEdge => exact hs
  | reset rest h =>
    obtain ⟨-, -, -, htaken⟩ := hs
    exact ⟨by simp, rfl, by simp, htaken⟩
  | wait rest p => exact portInv_takeResponse { s with inputs := rest } p.rspReady hs
  | accept rest w t hw hrun =>
    obtain ⟨-, hphase, -, htaken⟩ := hs
    obtain ⟨hbusy, -, -, htaken'⟩ := runCommand_samePorts hrun
    obtain ⟨r, hr, hlegal⟩ := runCommand_response hrun
    refine ⟨by simp [hbusy, hr], runCommand_phase hrun hphase, ?_, htaken' ▸ htaken⟩
    rintro q hq
    rw [hr] at hq
    exact Option.some.inj hq ▸ hlegal

/-! Two states with the same tables (R18, R26) -/

/-- How far what `s` and `s'` end in agrees when the two start with the same tables; `reads` says that the flags are
read out. -/
structure EndsAgree (reads : Prop) (s s' t t' : State) : Prop where
  ft : t.ft = t'.ft
  ct : t.ct = t'.ct
  rspreg : ¬ reads ∨ s.err = s'.err → t.rspreg = t'.rspreg
  err : s.err = s'.err → t.err = t'.err

/-- The tests of every command are on the tables alone, so from the same tables it takes the same branch. -/
theorem CommandEnd.agree {i : Instr} {s s' t : State} (h : CommandEnd s i t) (hft : s.ft = s'.ft) (hct : s.ct = s'.ct) :
    ∃ t', CommandEnd s' i t' ∧ EndsAgree (i = .rdst) s s' t t' := by
  cases h with
  | init => exact ⟨_, .init, rfl, rfl, fun _ => rfl, fun _ => rfl⟩
  | clrf => exact ⟨_, .clrf, rfl, hct, fun _ => rfl, id⟩
  | setf x c => exact ⟨_, .setf x c, by simp [hft], hct, fun _ => rfl, id⟩
  | incfOverflow x h => exact ⟨_, .incfOverflow x (hft ▸ h), hft, hct, fun _ => rfl, by simp +contextual⟩
  | incf x h => exact ⟨_, .incf x (hft ▸ h), by simp [hft], hct, by simp [hft], id⟩
  | buildEmpty h => exact ⟨_, .buildEmpty (hft ▸ h), hft, hct, fun _ => rfl, by simp +contextual⟩
  | build T h => exact ⟨_, .build T (hft ▸ h), rfl, rfl, by simp [State.ftn, hft], id⟩
  | rdf x => exact ⟨_, .rdf x, hft, hct, by simp [hft], id⟩
  | rdl x => exact ⟨_, .rdl x, hft, hct, by simp [hct], id⟩
  | rdc x k h => exact ⟨_, .rdc x k (hct ▸ h), hft, hct, by simp [hct], id⟩
  | rdcAbsent x k h => exact ⟨_, .rdcAbsent x k (hct ▸ h), hft, hct, fun _ => rfl, by simp +contextual⟩
  | rdst => exact ⟨_, .rdst, hft, hct, by simp +contextual [State.status, hft, hct], id⟩

/-- The same for a word: an illegal one is `raise E_ILLEGAL` from either state. -/
theorem runCommand_agree (w : Cmd) (s s' : State) (hft : s.ft = s'.ft) (hct : s.ct = s'.ct) :
    ∃ t t', runCommand w s = .next t ∧ runCommand w s' = .next t' ∧ EndsAgree (decode w = .ok .rdst) s s' t t' := by
  cases h : decode w with
  | error e =>
    exact ⟨_, _, runCommand_error w s e h, runCommand_error w s' e h, hft, hct, fun _ => rfl, by simp +contextual⟩
  | ok i =>
    obtain ⟨t, hend⟩ := exists_commandEnd i s
    obtain ⟨t', hend', hagree⟩ := hend.agree hft hct
    refine ⟨t, t', (runCommand_ok w s i h).trans hend.exec_eq, (runCommand_ok w s' i h).trans hend'.exec_eq, ?_⟩
    simpa using hagree

/-- R26 for one word. -/
theorem afterWord_agree (w : Cmd) (s s' : State) (h : SameArchitecture s s') :
    (s.afterWord w).rspreg = (s'.afterWord w).rspreg ∧ SameArchitecture (s.afterWord w) (s'.afterWord w) := by
  obtain ⟨hft, hct, herr⟩ := h
  obtain ⟨t, t', ht, ht', hagree⟩ := runCommand_agree w s s' hft hct
  simp only [State.afterWord, ht, ht']
  exact ⟨hagree.rspreg (.inr herr), hagree.ft, hagree.ct, hagree.err herr⟩

end Sys2Proof.Machine
end

section
/-! The statements on the state, its invariants and what changes it (spec/10_state.md). -/

namespace Sys2Proof.Machine

/-- Settles O3: the code table is cleared, kept, or the one of a build, whose entries are stored strings. -/
theorem everyStepKeepsTheStoredForm : Obligations.EveryStepKeepsTheStoredForm := fun _ _ hs h =>
  (stepEnd_of_step h).ct_invariant CtStored ctStored_cleared ctStored_codeTableOf hs

/-- Settles O4: the code table is cleared, kept, or the one of a build, whose codes are the paths of a tree. -/
theorem everyStepKeepsThePrefixCode : Obligations.EveryStepKeepsThePrefixCode := fun _ _ hs h =>
  (stepEnd_of_step h).ct_invariant CtCode ctCode_cleared ctCode_codeTableOf hs

/-- Settles O5: an accepted word fills the response register as `BUSY` rises, and taking the response lowers both. -/
theorem everyStepKeepsThePortInvariant : Obligations.EveryStepKeepsThePortInvariant := fun _ _ hs h =>
  (stepEnd_of_step h).portInv hs

/-- Settles O50, by induction on the words: no command reads the working stores. -/
theorem workingStoresAreNotObservable : Obligations.WorkingStoresAreNotObservable := by
  intro ws
  induction ws with
  | nil => exact fun s s' h => ⟨rfl, h⟩
  | cons w ws ih =>
    intro s s' h
    obtain ⟨hrsp, hsame⟩ := afterWord_agree w s s' h
    obtain ⟨hsession, hend⟩ := ih _ _ hsame
    exact ⟨by rw [session, session, hrsp, hsession], hend⟩

/-- Settles O29: a string of at most 255 bits fits both fields of its entry. -/
theorem storedFormGivesTheStringBack : Obligations.StoredFormGivesTheStringBack := by
  intro t ht
  refine ⟨CtEntry.ofString_str t ht, CtEntry.ofString_stored t ht, CtEntry.ofString_len t ht,
    CtEntry.ofString_code t ht, ?_⟩
  intro b hb
  rw [CtEntry.ofString_code _ (by simpa using hb), CtEntry.ofString_code t ht, strVal_cons, Nat.add_comm]

/-- Settles O54: a step only sets flags, unless it is a reset or an `INIT`. -/
theorem flagsAreSticky : Obligations.FlagsAreSticky := by
  intro s t e h hset hclear
  rcases (stepEnd_of_step h).err_cases with herr | ⟨e', herr⟩ | hinit
  · rw [herr, hset] at hclear
    cases hclear
  · rw [herr, ErrFlags.flag_setFlag, hset, Bool.or_true] at hclear
    cases hclear
  · exact hinit

/-- Settles O55: no command but `RDST` reads the flags. -/
theorem flagsDoNotChangeBehaviour : Obligations.FlagsDoNotChangeBehaviour := by
  intro w s e
  obtain ⟨t, t', ht, ht', hagree⟩ := runCommand_agree w s { s with err := e } rfl rfl
  exact ⟨t, t', ht, ht', hagree.ft, hagree.ct, fun hw => hagree.rspreg (.inl hw)⟩

/-- Settles O56, from what a step can do to each table. -/
theorem tablesChangeOnlyByTheirCommands : Obligations.TablesChangeOnlyByTheirCommands := by
  intro s t h
  refine ⟨fun hct => ?_, fun hft => ?_⟩
  · rcases (stepEnd_of_step h).ct_cases with hsame | ⟨-, hreset | ⟨w, hw, hi⟩⟩ | ⟨w, T, hw, hi, hT, -⟩
    · exact absurd hsame hct
    · exact .inl hreset
    · exact .inr ⟨w, hw, .inl hi⟩
    · have hne : s.ftn ≠ 0 := fun h0 => by simp [(buildTree_eq_none s.ft).2 h0] at hT
      exact .inr ⟨w, hw, .inr ⟨hi, hne⟩⟩
  · rcases (stepEnd_of_step h).ft_cases with hsame | hreset | ⟨w, i, hw, hi, hc⟩
    · exact absurd hsame hft
    · exact .inl hreset
    · refine .inr ⟨w, hw, ?_⟩
      rw [hi]
      simpa using hc

/-- Settles O1: reset and `INIT` write the same cleared tables and flags. -/
theorem resetLeavesTheStatedValues : Obligations.ResetLeavesTheStatedValues :=
  ⟨fun x => tableGet_replicate 0 x, fun x => tableGet_replicate CtEntry.absent x, rfl, statusWord_reset, rfl, rfl, rfl,
    fun s => ⟨_, (CommandEnd.init (s := s)).exec_eq, rfl, rfl, rfl, statusWord_reset, rfl⟩⟩

/-- Settles O2: a cleared code table has no codes, and no response waits. -/
theorem resetMeetsTheInvariants : Obligations.ResetMeetsTheInvariants :=
  ⟨ctStored_cleared, ctCode_cleared, by simp, rfl, by simp, by simp⟩

/-- Settles O26, field by field of R19. -/
theorem rdstAnswersTheStatusWord : Obligations.RdstAnswersTheStatusWord := by
  refine ⟨congrArg (some ∘ Rsp.make statusOk) statusWord_reset,
    fun s => congrArg (some ∘ Rsp.make statusOk) statusWord_reset, fun s => ?_⟩
  obtain ⟨hempty, hillegal, hcntovf, hnoent⟩ := statusWord_flags s.ct s.ft s.err
  exact ⟨s.respond s.status, s.status, rfl, rfl, statusWord_ctn _ _ _, statusWord_reserved_low _ _ _,
    statusWord_ftn _ _ _, statusWord_reserved_high _ _ _, hempty, hillegal, hcntovf, hnoent, rfl, rfl, rfl,
    rfl, rfl, rfl, rfl, rfl⟩

end Sys2Proof.Machine
end

section
/-! What the heap holds (R21, R76, R77): push adds an entry, pop takes the top out, and the loops of both only permute
the rest, whatever the order of the heap. -/

namespace Sys2Proof.Machine

theorem Working.heapAt_swapHeap (w : Working) (p q r : Nat) (hp : p < Config.nheap) (hq : q < Config.nheap) :
    (w.swapHeap p q).heapAt r = w.heapAt (Equiv.swap p q r) := by
  simp only [Working.swapHeap, Working.heapAt_setHeap, hp, hq, and_true, Equiv.swap_apply_def]
  split_ifs with h1 h2 h2
  · rw [← h1, h2]
  all_goals rfl

theorem map_swap_range_perm (n p q : Nat) (hp : p < n) (hq : q < n) :
    ((List.range n).map (Equiv.swap p q)).Perm (List.range n) := by
  refine (List.perm_ext_iff_of_nodup (List.nodup_range.map (Equiv.injective _)) List.nodup_range).2 fun r => ?_
  rw [List.mem_map_of_involutive (Equiv.swap_apply_self p q), List.mem_range, List.mem_range, Equiv.swap_apply_def]
  split_ifs <;> omega

theorem live_swapHeap (w : Working) (p q : Nat) (hp : p < w.hsize.toNat) (hq : q < w.hsize.toNat)
    (hs : w.hsize.toNat ≤ 256) : (w.swapHeap p q).live.Perm w.live := by
  have hcongr : (w.swapHeap p q).live = ((List.range w.hsize.toNat).map (Equiv.swap p q)).map w.heapAt := by
    rw [List.map_map]
    exact List.map_congr_left fun r _ => w.heapAt_swapHeap p q r (hp.trans_le hs) (hq.trans_le hs)
  rw [hcongr]
  exact (map_swap_range_perm _ p q hp hq).map _

theorem live_siftUp (n p : Nat) (w : Working) (hp : p < w.hsize.toNat) (hs : w.hsize.toNat ≤ 256) :
    (siftUp n p w).live.Perm w.live := by
  induction n generalizing p w with
  | zero => exact .refl _
  | succ n ih =>
    unfold siftUp
    split_ifs
    · have hq : (p - 1) / 2 < w.hsize.toNat := by omega
      exact (ih _ (w.swapHeap p _) hq hs).trans (live_swapHeap w p _ hp hq hs)
    · exact .refl _
    · exact .refl _

theorem siftChoice_lt (p : Nat) (w : Working) (hp : p < w.hsize.toNat) : siftChoice p w < w.hsize.toNat := by
  simp only [siftChoice]
  split_ifs with h1 h2 h2
  · exact h2.1
  · exact h1.1
  · exact h2.1
  · exact hp

theorem live_siftDown (n p : Nat) (w : Working) (hp : p < w.hsize.toNat) (hs : w.hsize.toNat ≤ 256) :
    (siftDown n p w).live.Perm w.live := by
  induction n generalizing p w with
  | zero => exact .refl _
  | succ n ih =>
    have hq := siftChoice_lt p w hp
    unfold siftDown
    split_ifs
    · exact .refl _
    · exact (ih _ (w.swapHeap p _) hq hs).trans (live_swapHeap w p _ hp hq hs)

theorem NIdx.toNat_succ_of_lt (i : NIdx) (h : i.toNat < 511) : (i + 1).toNat = i.toNat + 1 := by
  rw [NIdx.toNat_succ]; omega

theorem NIdx.toNat_pred_of_pos (i : NIdx) (h : 0 < i.toNat) : (i - 1).toNat = i.toNat - 1 := by
  have := NIdx.toNat_lt i
  rw [NIdx.toNat_pred]; omega

/-- Push adds its index (R76). -/
theorem live_heapPush (i : NIdx) (w : Working) (hs : w.hsize.toNat < 256) :
    (heapPush i w).live.Perm (i :: w.live) := by
  have hsize : (w.hsize + 1).toNat = w.hsize.toNat + 1 := NIdx.toNat_succ_of_lt _ (by omega)
  have happend : Working.live { w.setHeap w.hsize.toNat i with hsize := w.hsize + 1 } = w.live ++ [i] := by
    have hat (r : Nat) : Working.heapAt { w.setHeap w.hsize.toNat i with hsize := w.hsize + 1 } r =
        if r = w.hsize.toNat ∧ w.hsize.toNat < Config.nheap then i else w.heapAt r := w.heapAt_setHeap _ r i
    rw [Working.live, hsize, List.range_succ, List.map_append, List.map_singleton, hat, if_pos ⟨rfl, hs⟩]
    congr 1
    refine List.map_congr_left fun r hr => ?_
    rw [hat, if_neg fun h => absurd (List.mem_range.1 hr) (by omega)]
  have hsift := live_siftUp w.hsize.toNat w.hsize.toNat { w.setHeap w.hsize.toNat i with hsize := w.hsize + 1 }
    (hsize ▸ Nat.lt_succ_self _) (hsize ▸ hs)
  exact hsift.trans (happend ▸ List.perm_append_singleton i w.live)

theorem live_eq_cons (w : Working) (k : Nat) (hk : w.hsize.toNat = k + 1) :
    w.live = w.heapAt 0 :: (List.range k).map (fun r => w.heapAt (r + 1)) := by
  rw [Working.live, hk, List.range_succ_eq_map, List.map_cons, List.map_map]
  rfl

theorem live_setHeap_zero (w : Working) (k : Nat) (i : NIdx) (hk : w.hsize.toNat = k + 1) :
    (w.setHeap 0 i).live = i :: (List.range k).map (fun r => w.heapAt (r + 1)) := by
  rw [live_eq_cons (w.setHeap 0 i) k hk]
  simp [Working.heapAt_setHeap]

/-- Pop takes the top out (R77). -/
theorem live_heapPop (w : Working) (h1 : 1 ≤ w.hsize.toNat) (hs : w.hsize.toNat ≤ 256) :
    w.live.Perm (w.heapAt 0 :: (heapPop w).2.live) := by
  have hsize : (w.hsize - 1).toNat = w.hsize.toNat - 1 := NIdx.toNat_pred_of_pos _ h1
  obtain ⟨k, hk⟩ := Nat.exists_eq_add_of_le' h1
  rw [hk, Nat.add_sub_cancel] at hsize
  rw [live_eq_cons w k hk, heapPop]
  refine .cons _ ?_
  cases k with
  | zero =>
    dsimp only
    rw [hsize, if_neg (Nat.lt_irrefl 0), Working.live, hsize]
    exact .refl _
  | succ j =>
    have hlast : ((List.range (j + 1)).map (fun r => w.heapAt (r + 1))).Perm
        (w.heapAt (j + 1) :: (List.range j).map (fun r => w.heapAt (r + 1))) := by
      rw [List.range_succ, List.map_append]
      exact List.perm_append_singleton _ _
    have hdown := live_siftDown (j + 1) 0 (Working.setHeap { w with hsize := w.hsize - 1 } 0 (w.heapAt (j + 1)))
      ((Nat.succ_pos j).trans_eq hsize.symm) (hsize.trans_le (by omega))
    rw [live_setHeap_zero { w with hsize := w.hsize - 1 } j _ hsize] at hdown
    dsimp only
    rw [hsize, if_pos (Nat.succ_pos j)]
    exact hlast.trans hdown.symm

end Sys2Proof.Machine
end

section
/-! The forest of a build in progress (R20, R78): every node that has left the heap is a child of its parent, on the
side its `pbit` names. -/

namespace Sys2Proof.Machine

/-- Node `i` is the child of its parent that its `pbit` names. -/
def Working.Linked (w : Working) (i : NIdx) : Prop :=
  if (w.nodeAt i).pbit then (w.nodeAt (w.nodeAt i).parent).right = i else (w.nodeAt (w.nodeAt i).parent).left = i

/-- The nodes made so far: those in the heap, the newest among them, are roots; the others are linked to a parent. -/
structure Forest (w : Working) : Prop where
  nodup : w.live.Nodup
  lt : ∀ i ∈ w.live, i.toNat < w.nnext.toNat
  newest : w.nnext ≠ 0 → w.nnext - 1 ∈ w.live
  linked : ∀ i : NIdx, i.toNat < w.nnext.toNat → i ∉ w.live →
    (w.nodeAt i).parent.toNat < w.nnext.toNat ∧ w.Linked i

/-- Linkage depends on the node store alone. -/
theorem nodeAt_congr {w u : Working} (h : u.node = w.node) (i : NIdx) : u.nodeAt i = w.nodeAt i := by
  rw [Working.nodeAt, Working.nodeAt, h]

theorem linked_congr {w u : Working} (h : u.node = w.node) (i : NIdx) : u.Linked i ↔ w.Linked i := by
  simp only [Working.Linked, nodeAt_congr h]

theorem Forest.setPhase {w : Working} (h : Forest w) (p : Phase) : Forest (w.setPhase p) :=
  ⟨h.nodup, h.lt, h.newest, h.linked⟩

/-- Pushing the next node keeps the forest, when all the nodes out of the heap are linked, also to it. -/
theorem forest_push (u : Working) (hs : u.hsize.toNat < 256) (hn : u.nnext.toNat < 511) (hnodup : u.live.Nodup)
    (hlt : ∀ i ∈ u.live, i.toNat < u.nnext.toNat)
    (hlinked : ∀ i : NIdx, i.toNat < u.nnext.toNat → i ∉ u.live →
      (u.nodeAt i).parent.toNat ≤ u.nnext.toNat ∧ u.Linked i) :
    Forest { heapPush u.nnext u with nnext := u.nnext + 1 } := by
  have hlive := live_heapPush u.nnext u hs
  have hsucc := NIdx.toNat_succ_of_lt _ hn
  obtain ⟨hnode, -, -, -⟩ := heapPush_frame u.nnext u
  have hfresh : u.nnext ∉ u.live := fun h => absurd (hlt _ h) (Nat.lt_irrefl _)
  refine ⟨hlive.nodup_iff.2 (List.nodup_cons.2 ⟨hfresh, hnodup⟩), fun i hi => ?_, fun _ => ?_, fun i hi hout => ?_⟩
  · rcases List.mem_cons.1 (hlive.subset hi) with rfl | hi
    · exact hsucc ▸ Nat.lt_succ_self _
    · exact hsucc ▸ Nat.lt_succ_of_lt (hlt i hi)
  · refine hlive.symm.subset ?_
    simp
  · have hout' : i ∉ u.nnext :: u.live := fun h => hout (hlive.symm.subset h)
    rw [List.mem_cons, not_or] at hout'
    have hne : i.toNat ≠ u.nnext.toNat := fun h => hout'.1 (BitVec.eq_of_toNat_eq h)
    have hi' : i.toNat < u.nnext.toNat + 1 := hsucc ▸ hi
    obtain ⟨hparent, hlink⟩ := hlinked i (by omega) hout'.2
    refine ⟨?_, (linked_congr hnode i).2 hlink⟩
    have := nodeAt_congr (u := { heapPush u.nnext u with nnext := u.nnext + 1 }) hnode i
    rw [this]
    exact hsucc ▸ Nat.lt_succ_of_le hparent

/-! SCAN (R73) -/

theorem forest_scanLeaf (x : Sym) (c : Count) (w : Working) (h : Forest w) (hs : w.hsize.toNat < 256)
    (hn : w.nnext.toNat < 511) : Forest (scanLeaf x c w) := by
  refine forest_push (w.setNode w.nnext _) hs hn h.nodup h.lt fun i hi hout => ?_
  obtain ⟨hparent, hlink⟩ := h.linked i hi hout
  have hne (j : NIdx) (hj : j.toNat < w.nnext.toNat) (n : Node) : (w.setNode w.nnext n).nodeAt j = w.nodeAt j := by
    rw [Working.nodeAt_setNode, if_neg]
    rintro ⟨rfl, -⟩
    exact Nat.lt_irrefl _ hj
  rw [Working.Linked, hne i hi, hne _ hparent]
  exact ⟨Nat.le_of_lt hparent, hlink⟩

/-- SCAN over `l` makes a node and a heap entry for each symbol. -/
theorem forest_foldl_scanLeaf (l : List (Sym × Count)) (w : Working) (h : Forest w)
    (hs : w.hsize.toNat + l.length ≤ 256) (hn : w.nnext.toNat = w.hsize.toNat) :
    Forest (l.foldl (fun w p => scanLeaf p.1 p.2 w) w) ∧
    (l.foldl (fun w p => scanLeaf p.1 p.2 w) w).hsize.toNat = w.hsize.toNat + l.length ∧
    (l.foldl (fun w p => scanLeaf p.1 p.2 w) w).nnext.toNat = w.hsize.toNat + l.length := by
  induction l generalizing w with
  | nil => exact ⟨h, rfl, hn⟩
  | cons p l ih =>
    rw [List.length_cons] at hs
    obtain ⟨hsize, hnext, -⟩ := scanLeaf_frame p.1 p.2 w
    have hsize' : (scanLeaf p.1 p.2 w).hsize.toNat = w.hsize.toNat + 1 := by
      rw [hsize, NIdx.toNat_succ_of_lt _ (by omega)]
    have hnext' : (scanLeaf p.1 p.2 w).nnext.toNat = w.nnext.toNat + 1 := by
      rw [hnext, NIdx.toNat_succ_of_lt _ (by omega)]
    have := ih (scanLeaf p.1 p.2 w) (forest_scanLeaf p.1 p.2 w h (by omega) (by omega)) (by omega) (by omega)
    rwa [hsize', Nat.add_assoc, Nat.add_comm 1] at this

theorem scanPhase_eq_foldl (f : FreqTable) (w : Working) :
    scanPhase f w = ((entries f).filter (fun p => decide (p.2 ≠ 0))).foldl (fun w p => scanLeaf p.1 p.2 w)
      { w with hsize := 0, nnext := 0 } := by
  rw [List.foldl_filter]
  simp only [scanPhase, decide_eq_true_eq]

/-- SCAN makes a leaf, and a heap entry, for every symbol present (R73). -/
theorem forest_scanPhase (f : FreqTable) (w : Working) :
    Forest (scanPhase f w) ∧ (scanPhase f w).hsize.toNat = ftnOf f ∧ (scanPhase f w).nnext.toNat = ftnOf f := by
  have hlen : ((entries f).filter (fun p => decide (p.2 ≠ 0))).length = ftnOf f := by
    rw [ftnOf, present, symsWhere, List.length_map]
  have hempty : Forest { w with hsize := 0, nnext := 0 } :=
    ⟨List.nodup_nil, fun _ h => (nomatch h), fun h => absurd rfl h, fun _ h => absurd h (Nat.not_lt_zero _)⟩
  have := forest_foldl_scanLeaf ((entries f).filter (fun p => decide (p.2 ≠ 0))) _ hempty
    (by rw [hlen]; simpa using ftnOf_le f) rfl
  rw [← scanPhase_eq_foldl, hlen] at this
  simpa using this

/-! MERGE (R78) -/

/-- The node store after `merge(lo, hi)`: the new node above its two children. -/
def Working.join (w : Working) (lo hi : NIdx) : Working :=
  let w1 := w.setNode w.nnext
    { w.nodeAt w.nnext with
      w := (w.nodeAt lo).w + (w.nodeAt hi).w
      tag := minSym (w.nodeAt lo).tag (w.nodeAt hi).tag
      leaf := false
      sym := 0
      left := lo
      right := hi }
  let w2 := w1.setNode lo { w1.nodeAt lo with parent := w.nnext, pbit := false }
  w2.setNode hi { w2.nodeAt hi with parent := w.nnext, pbit := true }

theorem mergeNodes_eq (lo hi : NIdx) (w : Working) :
    mergeNodes lo hi w = { heapPush w.nnext (w.join lo hi) with nnext := w.nnext + 1 } := rfl

section
variable (w : Working) (lo hi : NIdx) (hlo : lo.toNat < w.nnext.toNat) (hhi : hi.toNat < w.nnext.toNat)
  (hn : w.nnext.toNat < 511)
include hlo hhi hn

/-- A child of the new node is linked to it; every other node's link is as it was. -/
theorem join_link (hne : lo ≠ hi) (i : NIdx) (hi' : i.toNat < w.nnext.toNat) :
    ((w.join lo hi).nodeAt i).parent = (if i = lo ∨ i = hi then w.nnext else (w.nodeAt i).parent) ∧
    ((w.join lo hi).nodeAt i).pbit = (if i = lo then false else if i = hi then true else (w.nodeAt i).pbit) := by
  have h1 : i ≠ w.nnext := fun e => absurd (e ▸ hi') (Nat.lt_irrefl _)
  have h2 : lo.toNat < Config.nnode := hlo.trans hn
  have h3 : hi.toNat < Config.nnode := hhi.trans hn
  simp only [Working.join, Working.nodeAt_setNode, h2, h3, h1, and_true, false_and, if_false]
  split_ifs <;> simp_all

/-- The new node has the two children; the children of every other node are as they were. -/
theorem join_children (i : NIdx) :
    ((w.join lo hi).nodeAt i).left = (if i = w.nnext then lo else (w.nodeAt i).left) ∧
    ((w.join lo hi).nodeAt i).right = (if i = w.nnext then hi else (w.nodeAt i).right) := by
  have h1 : w.nnext.toNat < Config.nnode := hn
  simp only [Working.join, Working.nodeAt_setNode]
  split_ifs <;> simp_all

end

/-- Merging two roots that have left the heap keeps the forest (R78). -/
theorem forest_mergeNodes (w u : Working) (lo hi : NIdx) (h : Forest w) (hnode : u.node = w.node)
    (hnext : u.nnext = w.nnext) (hlive : w.live.Perm (lo :: hi :: u.live)) (hs : u.hsize.toNat < 256)
    (hn : u.nnext.toNat < 511) : Forest (mergeNodes lo hi u) := by
  have hlt : ∀ i ∈ lo :: hi :: u.live, i.toNat < u.nnext.toNat := fun i hmem =>
    hnext ▸ h.lt i (hlive.symm.subset hmem)
  have hnodup := hlive.nodup_iff.1 h.nodup
  have hlo := hlt lo (by simp)
  have hhi := hlt hi (by simp)
  have hne : lo ≠ hi := fun e => by simp [e] at hnodup
  rw [mergeNodes_eq]
  refine forest_push (u.join lo hi) hs hn hnodup.of_cons.of_cons (fun i hmem => hlt i (.tail _ (.tail _ hmem))) ?_
  intro i hi' hout
  obtain ⟨hparent, hpbit⟩ := join_link u lo hi hlo hhi hn hne i hi'
  rw [Working.Linked, hpbit, hparent]
  by_cases hchild : i = lo ∨ i = hi
  · rw [if_pos hchild, (join_children u lo hi hlo hhi hn u.nnext).1, (join_children u lo hi hlo hhi hn u.nnext).2]
    refine ⟨Nat.le_refl _, ?_⟩
    rcases hchild with rfl | rfl
    · simp
    · simp [hne.symm]
  · rw [not_or] at hchild
    have hout' : i ∉ w.live := fun hmem => by
      have := hlive.subset hmem
      simp only [List.mem_cons, hchild, false_or] at this
      exact hout this
    obtain ⟨hlt', hlink⟩ := h.linked i (hnext ▸ hi') hout'
    rw [← nodeAt_congr hnode, ← hnext] at hlt'
    have hp : (u.nodeAt i).parent ≠ u.nnext := fun e => absurd (e ▸ hlt') (Nat.lt_irrefl _)
    rw [← linked_congr hnode] at hlink
    simp only [hchild, or_self, if_false, join_children u lo hi hlo hhi hn, hp]
    exact ⟨Nat.le_of_lt hlt', hlink⟩

/-- One pass of the MERGE loop: one root less, one node more. -/
theorem forest_mergePass (w : Working) (h : Forest w) (h2 : 2 ≤ w.hsize.toNat) (hs : w.hsize.toNat ≤ 256)
    (hn : w.nnext.toNat < 511) :
    Forest (mergePass w) ∧ (mergePass w).hsize.toNat = w.hsize.toNat - 1 ∧
      (mergePass w).nnext.toNat = w.nnext.toNat + 1 := by
  obtain ⟨hnode1, hsize1, hnext1, -⟩ := heapPop_frame w
  obtain ⟨hnode2, hsize2, hnext2, -⟩ := heapPop_frame (heapPop w).2
  obtain ⟨hsize3, hnext3, -⟩ := mergeNodes_frame (heapPop w).1 (heapPop (heapPop w).2).1 (heapPop (heapPop w).2).2
  have hs1 : (heapPop w).2.hsize.toNat = w.hsize.toNat - 1 := by rw [hsize1, NIdx.toNat_pred_of_pos _ (by omega)]
  have hs2 : (heapPop (heapPop w).2).2.hsize.toNat = w.hsize.toNat - 2 := by
    rw [hsize2, NIdx.toNat_pred_of_pos _ (by omega)]
    omega
  have hlive := (live_heapPop w (by omega) hs).trans (.cons _ (live_heapPop (heapPop w).2 (by omega) (by omega)))
  refine ⟨forest_mergeNodes w _ _ _ h (hnode2.trans hnode1) (hnext2.trans hnext1) hlive (by omega) ?_, ?_, ?_⟩
  · rwa [hnext2, hnext1]
  · rw [mergePass, hsize3, NIdx.toNat_succ_of_lt _ (by omega)]
    omega
  · rw [mergePass, hnext3, hnext2, hnext1, NIdx.toNat_succ_of_lt _ hn]

/-- MERGE ends with one root (R73, R80): each pass trades two roots for one. -/
theorem forest_mergeWhile (n : Nat) (w : Working) (h : Forest w) (h1 : 1 ≤ w.hsize.toNat) (hs : w.hsize.toNat ≤ n + 1)
    (h256 : w.hsize.toNat ≤ 256) (hn : w.nnext.toNat + w.hsize.toNat ≤ 512) :
    Forest (mergeWhile n w) ∧ (mergeWhile n w).hsize.toNat = 1 ∧
      (mergeWhile n w).nnext.toNat + 1 = w.nnext.toNat + w.hsize.toNat := by
  induction n generalizing w with
  | zero => exact ⟨h, by rw [mergeWhile]; omega, by rw [mergeWhile]; omega⟩
  | succ n ih =>
    rw [mergeWhile]
    split_ifs with hgt
    · obtain ⟨hf, hsize, hnext⟩ := forest_mergePass w h hgt h256 (by omega)
      obtain ⟨hf', hsize', hnext'⟩ := ih (mergePass w) hf (by omega) (by omega) (by omega) (by omega)
      exact ⟨hf', hsize', by omega⟩
    · exact ⟨h, by omega, by omega⟩

/-- In a forest with one root every older node is linked. -/
theorem Forest.linked_of_lt {w : Working} (h : Forest w) (h1 : w.hsize.toNat = 1) (i : NIdx)
    (hi : i.toNat + 1 < w.nnext.toNat) : w.Linked i := by
  have hpred : (w.nnext - 1).toNat = w.nnext.toNat - 1 := NIdx.toNat_pred_of_pos _ (by omega)
  refine (h.linked i (by omega) fun hmem => ?_).2
  have hroot : w.nnext - 1 ∈ w.live := h.newest fun h0 => by simp [h0] at hi
  rw [live_eq_cons w 0 h1] at hmem hroot
  have e : i = w.nnext - 1 := (List.mem_singleton.1 hmem).trans (List.mem_singleton.1 hroot).symm
  rw [e] at hi
  omega

/-- The node store after a build of `n` symbols is a forest of `2n - 1` nodes with one root (R79). -/
theorem forest_merged (s : State) (h : s.ftn ≠ 0) :
    Forest (merged s) ∧ (merged s).hsize.toNat = 1 ∧ (merged s).nnext.toNat + 1 = 2 * s.ftn := by
  obtain ⟨hf, hsize, hnext⟩ := forest_scanPhase s.ft (s.work.setPhase .scan)
  have hle := ftnOf_le s.ft
  have hpos : 1 ≤ ftnOf s.ft := Nat.one_le_iff_ne_zero.2 h
  have hmerge := forest_mergeWhile (Config.nsym - 1) ((scanned s).setPhase .merge) (hf.setPhase .merge)
    (hsize.symm ▸ hpos) (hsize.trans_le hle) (hsize.trans_le hle)
    (show (scanned s).nnext.toNat + (scanned s).hsize.toNat ≤ 512 by rw [scanned, hsize, hnext]; omega)
  obtain ⟨hf', hsize', hnext'⟩ := hmerge
  refine ⟨hf', hsize', hnext'.trans ?_⟩
  show (scanned s).nnext.toNat + (scanned s).hsize.toNat = 2 * ftnOf s.ft
  rw [scanned, hsize, hnext]
  omega

/-- The working stores after a `BUILD` of a non-empty table (R73). -/
theorem exec_build_work {s t : State} (h0 : s.ftn ≠ 0) (h : exec .build s = .next t) :
    t.work = (merged s).setPhase .idle := by
  have hscan : (scanned s).nnext ≠ 0 := fun e => h0 <| by
    rw [State.ftn, ← (forest_scanPhase s.ft (s.work.setPhase .scan)).2.2]
    exact congrArg BitVec.toNat e
  rw [← runSequencer_work_of_built s hscan]
  cases exec_eq_next.1 h with
  | buildEmpty => rfl
  | build => rfl

/-- Settles O49: the root of the build is its newest node, and the forest links every other. -/
theorem branchBitsMatchTheChildren : Obligations.BranchBitsMatchTheChildren := by
  intro s t m h0 h hm
  obtain ⟨hf, hsize, hnext⟩ := forest_merged s h0
  have hlt := NIdx.toNat_lt (merged s).nnext
  have hm' : (BitVec.ofNat Config.nidxW m).toNat = m := by rw [NIdx.toNat_ofNat]; omega
  rw [exec_build_work h0 h]
  exact (hf.setPhase .idle).linked_of_lt hsize _ (show (BitVec.ofNat Config.nidxW m).toNat + 1 < _ by
    rw [hm', Working.setPhase_nnext]; omega)

end Sys2Proof.Machine
end

section
/-! A host's session on the ports (R38, R39, R57): what the block does at each edge of a turn, and what it has done after
the turn. -/

namespace Sys2Proof.Machine

/-! Words (R38, R60) -/

theorem SameArchitecture.trans {s t u : State} (h : SameArchitecture s t) (h' : SameArchitecture t u) :
    SameArchitecture s u := by
  obtain ⟨hft, hct, herr⟩ := h
  obtain ⟨hft', hct', herr'⟩ := h'
  exact ⟨hft.trans hft', hct.trans hct', herr.trans herr'⟩

/-- Every word runs to a next state, the one `afterWord` names (R60). -/
theorem runCommand_eq_afterWord (w : Cmd) (s : State) : runCommand w s = .next (s.afterWord w) := by
  obtain ⟨t, -, h, -⟩ := runCommand_agree w s s rfl rfl
  rw [State.afterWord, h]

/-- What a word does depends on no sample still to come. -/
theorem afterWord_withInputs (w : Cmd) (s : State) (l : List PortIn) :
    (State.afterWord { s with inputs := l } w).rspreg = (s.afterWord w).rspreg ∧
      SameArchitecture (State.afterWord { s with inputs := l } w) (s.afterWord w) :=
  afterWord_agree w { s with inputs := l } s ⟨rfl, rfl, rfl⟩

/-- Every word is answered by one response (R54). -/
theorem exists_afterWord_rspreg (w : Cmd) (s : State) : ∃ r, (s.afterWord w).rspreg = some r := by
  obtain ⟨r, hr, -⟩ := runCommand_response (runCommand_eq_afterWord w s)
  exact ⟨r, hr⟩

/-- A session has one response for each word (R57 (f)). -/
theorem session_length (ws : List Cmd) (s : State) : (session ws s).length = ws.length := by
  induction ws generalizing s with
  | nil => rfl
  | cons w ws ih =>
    obtain ⟨r, hr⟩ := exists_afterWord_rspreg w s
    rw [session, hr, List.length_append, ih, List.length_cons, Nat.add_comm]
    rfl

/-! Edges (R57) -/

/-- The block is ready, no response waits, and the host waits for nothing. -/
structure State.Ready (s : State) : Prop where
  busy : s.busy = false
  rspreg : s.rspreg = none
  held : s.held = none

theorem State.Ready.withInputs {s : State} (hs : s.Ready) (l : List PortIn) : State.Ready { s with inputs := l } :=
  ⟨hs.busy, hs.rspreg, hs.held⟩

/-- The ready block accepts the word presented (R57 (a)). -/
theorem clockEdge_of_present (s : State) (w : Cmd) (b : Bool) (hs : s.Ready) :
    clockEdge ⟨false, true, w, b⟩ s = runCommand w s.accept := by
  simp [clockEdge, State.pins, State.handshake_kept s _ (.inl hs.held), hs.busy]

/-- Where no command is presented, and none waits, an edge can only take a response (R57 (d), (e)). -/
theorem step_of_no_command (s : State) (c : Cmd) (b : Bool) (rest : List PortIn) (hheld : s.held = none)
    (hin : s.inputs = ⟨false, false, c, b⟩ :: rest) : step s = .next (State.takeResponse { s with inputs := rest } b) := by
  have hhold : (State.takeResponse { s with inputs := rest } b).holdCommand ⟨false, false, c, b⟩ =
      State.takeResponse { s with inputs := rest } b := by
    have htake : (State.takeResponse { s with inputs := rest } b).held = none :=
      (State.takeResponse_held _ _).trans hheld
    rw [State.holdCommand, ← htake]
    rfl
  rw [step_edge s _ rest hin]
  simp [clockEdge, State.handshake_kept s _ (.inl hheld), hhold]

/-- A quiet edge only passes. -/
theorem step_of_quiet (s : State) (rest : List PortIn) (hheld : s.held = none)
    (hin : s.inputs = PortIn.quiet :: rest) : step s = .next { s with inputs := rest } := by
  rw [step_of_no_command s 0 false rest hheld hin, State.takeResponse_false]

/-- A word presented to the ready block is accepted and run: its response waits, and the tables and flags are as it left
them (R57 (a), R60). -/
theorem step_of_present (s : State) (w : Cmd) (b : Bool) (rest : List PortIn) (hs : s.Ready)
    (hin : s.inputs = ⟨false, true, w, b⟩ :: rest) :
    ∃ t, step s = .next t ∧ t.inputs = rest ∧ t.held = none ∧ t.taken = s.taken ∧
      t.rspreg = (s.afterWord w).rspreg ∧ SameArchitecture t (s.afterWord w) := by
  have hrun := runCommand_eq_afterWord w (State.accept { s with inputs := rest })
  obtain ⟨hrsp, hsame⟩ := afterWord_agree w (State.accept { s with inputs := rest }) s ⟨rfl, rfl, rfl⟩
  obtain ⟨-, hheld, hinputs, htaken⟩ := runCommand_samePorts hrun
  refine ⟨_, ?_, hinputs, hheld, htaken, hrsp, hsame⟩
  rw [step_edge s _ rest hin, clockEdge_of_present _ w b (hs.withInputs rest), hrun]

/-- A waiting response is taken (R57 (e)). -/
theorem step_of_take (s : State) (r : Rsp) (rest : List PortIn) (hheld : s.held = none) (hr : s.rspreg = some r)
    (hin : s.inputs = ⟨false, false, 0, true⟩ :: rest) :
    step s = .next { s with inputs := rest, rspreg := none, busy := false, taken := s.taken ++ [r] } := by
  rw [step_of_no_command s 0 true rest hheld hin, State.takeResponse_some { s with inputs := rest } r hr]

/-! Runs, of any machine -/

section
variable {M : Host.Core} {s t u : M.State} {m n : Nat}

/-- A run that reaches a state made its first step and ran on from there. -/
theorem run_succ_eq_next : M.run (n + 1) s = .next t ↔ ∃ u, M.step s = .next u ∧ M.run n u = .next t := by
  rw [Host.Core.run]
  cases M.step s <;> simp

theorem run_one (h : M.step s = .next t) : M.run 1 s = .next t := run_succ_eq_next.2 ⟨t, h, rfl⟩

/-- Two runs one after the other. -/
theorem run_trans (hm : M.run m s = .next u) (hn : M.run n u = .next t) : M.run (m + n) s = .next t := by
  induction m generalizing s with
  | zero =>
    cases hm
    rwa [Nat.zero_add]
  | succ m ih =>
    obtain ⟨v, hv, hm⟩ := run_succ_eq_next.1 hm
    rw [Nat.add_right_comm]
    exact run_succ_eq_next.2 ⟨v, hv, ih hm⟩

end

/-! A turn of the host -/

theorem run_quiet (n : Nat) (s : State) (rest : List PortIn) (hheld : s.held = none)
    (hin : s.inputs = List.replicate n PortIn.quiet ++ rest) : core.run n s = .next { s with inputs := rest } := by
  induction n generalizing s with
  | zero =>
    have hin' : s.inputs = rest := hin
    rw [← hin']
    rfl
  | succ n ih => exact run_succ_eq_next.2 ⟨_, step_of_quiet s _ hheld hin, ih _ hheld rfl⟩

/-- A word run with `n` quiet edges before its response is taken: the block is ready again, has given that response, and
holds what the word left. -/
theorem run_word (w : Cmd) (n : Nat) (s : State) (rest : List PortIn) (hs : s.Ready)
    (hin : s.inputs = ⟨false, true, w, false⟩ :: (List.replicate n PortIn.quiet ++ ⟨false, false, 0, true⟩ :: rest)) :
    ∃ t : State, core.run (1 + n + 1) s = .next t ∧ t.Ready ∧ t.inputs = rest ∧
      t.taken = s.taken ++ (s.afterWord w).rspreg.toList ∧ SameArchitecture t (s.afterWord w) := by
  obtain ⟨u, haccept, huin, huheld, hutaken, hursp, husame⟩ := step_of_present s w false _ hs hin
  obtain ⟨r, hr⟩ := exists_afterWord_rspreg w s
  have hquiet := run_quiet n u _ huheld huin
  have htake := step_of_take { u with inputs := ⟨false, false, 0, true⟩ :: rest } r rest huheld (hursp.trans hr) rfl
  refine ⟨_, run_trans (run_trans (run_one haccept) hquiet) (run_one htake), ⟨rfl, rfl, huheld⟩, rfl, ?_, husame⟩
  rw [hr, hutaken]
  rfl

/-- One turn of the host. -/
theorem run_hostTurn (p : Nat × Cmd × Nat) (s : State) (rest : List PortIn) (hs : s.Ready)
    (hin : s.inputs = hostTurn p ++ rest) :
    ∃ t : State, core.run (hostTurn p).length s = .next t ∧ t.Ready ∧ t.inputs = rest ∧
      t.taken = s.taken ++ (s.afterWord p.2.1).rspreg.toList ∧ SameArchitecture t (s.afterWord p.2.1) := by
  obtain ⟨before, w, after⟩ := p
  have hlength : (hostTurn (before, w, after)).length = before + (1 + after + 1) := by
    simp only [hostTurn, List.length_append, List.length_replicate, List.length_singleton, Nat.add_assoc]
  simp only [hostTurn, List.append_assoc, List.singleton_append] at hin
  have hquiet := run_quiet before s _ hs.held hin
  obtain ⟨t, hrun, hready, htin, htaken, hsame⟩ := run_word w after _ rest (hs.withInputs _) rfl
  refine ⟨t, hlength ▸ run_trans hquiet hrun, hready, htin, ?_, hsame.trans (afterWord_withInputs w s _).2⟩
  rw [htaken, (afterWord_withInputs w s _).1]

/-- Settles O17, by induction on the turns: each gives its word's response and leaves the tables and flags the rest of
the session starts from; what else a turn leaves is not observable (R26). -/
theorem hostSessionRunsTheWordsInOrder : Obligations.HostSessionRunsTheWordsInOrder := by
  intro l s hbusy hrspreg hheld hin
  have hs : s.Ready := ⟨hbusy, hrspreg, hheld⟩
  clear hbusy hrspreg hheld
  induction l generalizing s with
  | nil => exact ⟨s, rfl, hin, hs.busy, hs.rspreg, (List.append_nil _).symm, rfl, rfl, rfl, rfl⟩
  | cons p l ih =>
    obtain ⟨u, hrun, hu, huin, hutaken, husame⟩ := run_hostTurn p s (hostTrace l) hs hin
    obtain ⟨t, ht, htin, htbusy, htrsp, httaken, -, htsame⟩ := ih u huin hu
    obtain ⟨hsession, hend⟩ := workingStoresAreNotObservable (l.map (fun p => p.2.1)) u _ husame
    refine ⟨t, ?_, htin, htbusy, htrsp, ?_, by rw [session_length, List.length_map], htsame.trans hend⟩
    · rw [hostTrace, List.flatMap_cons, List.length_append]
      exact run_trans hrun ht
    · rw [httaken, hutaken, hsession, List.append_assoc]
      rfl

end Sys2Proof.Machine
end

section
/-! Reads (R34, R95) and the chunks of a code (R36). -/

namespace Sys2Proof.Machine

theorem sameOutside_respond (s : State) (d : Data) : SameOutside s (s.respond d) := ⟨rfl, rfl, rfl, rfl, rfl⟩

theorem sameOutside_raise (s : State) (e : ErrCode) : SameOutside s (s.raise e) := ⟨rfl, rfl, rfl, rfl, rfl⟩

/-- Setting a flag twice is setting it once (R18). -/
theorem ErrFlags.setFlag_setFlag (f : ErrFlags) (e : ErrCode) : (f.setFlag e).setFlag e = f.setFlag e := by
  cases e <;> rfl

/-- The four read commands (R95). -/
def IsRead (i : Instr) : Prop := i = .rdst ∨ (∃ x, i = .rdf x) ∨ (∃ x, i = .rdl x) ∨ ∃ x k, i = .rdc x k

/-- The answer of a read that does not fail is one word, fixed by the tables and flags (R34). -/
theorem exec_read_of_same (i : Instr) (s : State) (hi : IsRead i)
    (hv : ∀ x k, i = .rdc x k → (tableGet s.ct x).v = true) :
    ∃ d, ∀ u, SameArchitecture u s → exec i u = .next (u.respond d) := by
  rcases hi with rfl | ⟨x, rfl⟩ | ⟨x, rfl⟩ | ⟨x, k, rfl⟩
  · refine ⟨s.status, fun u ⟨hft, hct, herr⟩ => ?_⟩
    have hstatus : u.status = s.status := by rw [State.status, State.status, hft, hct, herr]
    exact hstatus ▸ CommandEnd.rdst.exec_eq
  · exact ⟨tableGet s.ft x, fun u ⟨hft, _, _⟩ => hft ▸ (CommandEnd.rdf x).exec_eq⟩
  · exact ⟨lengthWord (tableGet s.ct x), fun u ⟨_, hct, _⟩ => hct ▸ (CommandEnd.rdl x).exec_eq⟩
  · exact ⟨codeChunk (tableGet s.ct x).code k, fun u ⟨_, hct, _⟩ =>
      hct ▸ (CommandEnd.rdc x k (hct ▸ hv x k rfl)).exec_eq⟩

/-- Settles O27: a read that does not fail only answers, and one that fails sets a flag that no `RDC` reads. -/
theorem readsAreIdempotent : Obligations.ReadsAreIdempotent := by
  intro i s hi
  by_cases hv : ∀ x k, i = .rdc x k → (tableGet s.ct x).v = true
  · obtain ⟨d, hd⟩ := exec_read_of_same i s hi hv
    refine ⟨s.respond d, hd s ⟨rfl, rfl, rfl⟩, rfl, rfl, sameOutside_respond s d, fun x k hx h0 => ?_, fun _ => rfl,
      fun u hft hct herr => ⟨u.respond d, hd u ⟨hft, hct, herr⟩, rfl, rfl, rfl, rfl, sameOutside_respond u d⟩⟩
    exact absurd (hv x k hx) (by simp [h0])
  · push Not at hv
    obtain ⟨x, k, rfl, hv⟩ := hv
    have h0 : (tableGet s.ct x).v = false := Bool.eq_false_iff.2 hv
    refine ⟨s.raise .noent, (CommandEnd.rdcAbsent x k h0).exec_eq, rfl, rfl, sameOutside_raise s .noent,
      fun _ _ _ _ => ⟨rfl, rfl⟩, fun h => absurd (h x k rfl) hv, fun u hft hct herr => ?_⟩
    have hu : CommandEnd u (.rdc x k) (u.raise .noent) := .rdcAbsent x k (hct ▸ h0)
    have herr' : u.err.setFlag .noent = u.err := by
      rw [herr, State.raise_err, ErrFlags.setFlag_setFlag]
    exact ⟨u.raise .noent, hu.exec_eq, rfl, rfl, rfl, herr', sameOutside_raise u .noent⟩

/-! The chunks of a code (R36) -/

/-- Bit `i` of chunk `k` is bit `32 k + i` of the code. -/
theorem codeChunk_getLsbD (c : Code) (k : ChunkIdx) (i : Nat) (hi : i < 32) :
    (codeChunk c k).getLsbD i = c.getLsbD (32 * k.toNat + i) := by
  have hk := ChunkIdx.toNat_lt k
  have hlt : 32 * k.toNat + i < Config.nchunk * Config.chunkW :=
    show 32 * k.toNat + i < 256 by omega
  rw [codeChunk, BitVec.getLsbD_extractLsb', BitVec.zeroExtend, BitVec.getLsbD_setWidth]
  simp [hi, hlt]

/-- Chunk `k` is digit `k` of the code in base `2^32`. -/
theorem codeChunk_toNat (c : Code) (k : ChunkIdx) : (codeChunk c k).toNat = c.toNat / 2 ^ (32 * k.toNat) % 2 ^ 32 := by
  have hc : c.toNat < 2 ^ (Config.nchunk * Config.chunkW) := c.isLt.trans (by decide)
  rw [codeChunk, BitVec.extractLsb'_toNat, BitVec.zeroExtend, BitVec.toNat_setWidth, Nat.mod_eq_of_lt hc,
    Nat.shiftRight_eq_div_pow]

/-- The lowest `m` digits in base `2^w`, put together. -/
theorem sum_digits_two_pow (w n m : Nat) :
    ((List.range m).map (fun k => n / 2 ^ (w * k) % 2 ^ w * 2 ^ (w * k))).sum = n % 2 ^ (w * m) := by
  induction m with
  | zero => simp [Nat.mod_one]
  | succ m ih =>
    rw [List.range_succ, List.map_append, List.sum_append, ih, List.map_singleton, List.sum_singleton, Nat.mul_succ,
      Nat.pow_add, Nat.mod_mul, Nat.mul_comm (2 ^ (w * m))]

theorem ChunkIdx.toNat_ofNat (k : Nat) (hk : k < 8) : (BitVec.ofNat 3 k).toNat = k := Nat.mod_eq_of_lt hk

/-- Settles O28: the chunks are the digits of the code in base `2^32`. -/
theorem chunksReassembleTheCode : Obligations.ChunksReassembleTheCode := by
  intro c
  refine ⟨?_, ?_, fun i hi => ?_, fun len hc k hk => ?_⟩
  · have hdigits : (List.range 8).map (fun k => (codeChunk c (BitVec.ofNat 3 k)).toNat * 2 ^ (32 * k)) =
        (List.range 8).map (fun k => c.toNat / 2 ^ (32 * k) % 2 ^ 32 * 2 ^ (32 * k)) :=
      List.map_congr_left fun k hk => by
        rw [codeChunk_toNat, ChunkIdx.toNat_ofNat k (List.mem_range.1 hk)]
    rw [hdigits, sum_digits_two_pow]
    exact Nat.mod_eq_of_lt (c.isLt.trans (by decide))
  · rw [codeChunk_getLsbD c 7 31 (by decide)]
    exact BitVec.getLsbD_of_ge c _ (by decide)
  · rw [codeChunk_getLsbD c _ _ (Nat.mod_lt i (by decide)), ChunkIdx.toNat_ofNat _ (by omega), Nat.div_add_mod]
  · refine BitVec.eq_of_toNat_eq ?_
    rw [codeChunk_toNat, Nat.div_eq_of_lt (hc.trans_le (Nat.pow_le_pow_right two_pos hk))]
    rfl

end Sys2Proof.Machine
end

section
/-! The command word (R45 to R52): which words decode, and to what. -/

namespace Sys2Proof

/-- A word is given by its three fields (R45). -/
theorem Cmd.make_eq_iff {o : BitVec 8} {s : Sym} {d : Data} {w : Cmd} :
    Cmd.make o s d = w ↔ w.op = o ∧ w.sym = s ∧ w.data = d := by
  constructor
  · rintro rfl
    simp
  · rintro ⟨rfl, rfl, rfl⟩
    exact Cmd.make_fields w

/-! Format `SK`: a chunk index and 29 reserved bits in the data field (R46) -/

theorem Cmd.data_toNat (w : Cmd) : w.data.toNat = w.toNat % 4294967296 := BitVec.extractLsb'_toNat 0 32 w

theorem Cmd.chunk_toNat (w : Cmd) : w.chunk.toNat = w.data.toNat % 8 := by
  have h : w.chunk.toNat = w.toNat % 8 := BitVec.extractLsb'_toNat 0 3 w
  rw [h, Cmd.data_toNat]
  omega

theorem Cmd.dataHigh_toNat (w : Cmd) : w.dataHigh.toNat = w.data.toNat / 8 := by
  have h : w.dataHigh.toNat = w.toNat / 8 % 536870912 := by
    rw [← Nat.shiftRight_eq_div_pow _ 3]
    exact BitVec.extractLsb'_toNat 3 29 w
  rw [h, Cmd.data_toNat]
  omega

/-- The reserved bits are 0 exactly when the data is a chunk index, 0 to 7. -/
theorem Cmd.dataHigh_eq_zero (w : Cmd) : w.dataHigh = 0 ↔ w.data.toNat < 8 := by
  have h : w.dataHigh = 0 ↔ w.dataHigh.toNat = 0 := BitVec.toNat_eq
  rw [h, Cmd.dataHigh_toNat]
  omega

theorem ChunkIdx.toNat_data (k : ChunkIdx) : (k.setWidth Config.dataW).toNat = k.toNat := by
  rw [BitVec.toNat_setWidth]
  exact Nat.mod_eq_of_lt ((ChunkIdx.toNat_lt k).trans (by decide))

/-- Such data is its own chunk index, zero-extended. -/
theorem Cmd.data_eq_chunk (w : Cmd) : w.data = w.chunk.setWidth Config.dataW ↔ w.data.toNat < 8 := by
  rw [← BitVec.toNat_inj, ChunkIdx.toNat_data, Cmd.chunk_toNat]
  omega

@[simp] theorem Cmd.chunk_make (o : BitVec 8) (s : Sym) (k : ChunkIdx) :
    (Cmd.make o s (k.setWidth Config.dataW)).chunk = k := by
  rw [← BitVec.toNat_inj, Cmd.chunk_toNat, Cmd.data_make, ChunkIdx.toNat_data]
  exact Nat.mod_eq_of_lt (ChunkIdx.toNat_lt k)

@[simp] theorem Cmd.dataHigh_make (o : BitVec 8) (s : Sym) (k : ChunkIdx) :
    (Cmd.make o s (k.setWidth Config.dataW)).dataHigh = 0 := by
  rw [Cmd.dataHigh_eq_zero, Cmd.data_make, ChunkIdx.toNat_data]
  exact ChunkIdx.toNat_lt k

/-! Each format: the word it reads as a command, and what it rejects (R46, R51, R52 (b)) -/

section
variable {w : Cmd} {i j : Instr}

theorem encode_of_decodeN (hi : encode i = Cmd.make w.op 0 0) (h : decodeN w i = .ok j) :
    encode j = w := by
  rw [decodeN] at h
  split at h
  · next hw =>
    cases h
    exact hi.trans (Cmd.make_eq_iff.2 ⟨rfl, hw⟩)
  · cases h

theorem encode_of_decodeS (hi : encode i = Cmd.make w.op w.sym 0) (h : decodeS w i = .ok j) :
    encode j = w := by
  rw [decodeS] at h
  split at h
  · next hw =>
    cases h
    exact hi.trans (Cmd.make_eq_iff.2 ⟨rfl, rfl, hw⟩)
  · cases h

theorem encode_of_decodeSK (hi : encode i = Cmd.make w.op w.sym (w.chunk.zeroExtend Config.dataW))
    (h : decodeSK w i = .ok j) : encode j = w := by
  rw [decodeSK] at h
  split at h
  · next hw =>
    cases h
    have hdata := (Cmd.data_eq_chunk w).2 ((Cmd.dataHigh_eq_zero w).1 hw)
    exact hi.trans (Cmd.make_eq_iff.2 ⟨rfl, rfl, hdata⟩)
  · cases h

theorem decodeN_eq_error : (∃ e, decodeN w i = .error e) ↔ w.sym ≠ 0 ∨ w.data ≠ 0 := by
  rw [decodeN, ← not_and_or]
  split <;> simp_all

theorem decodeS_eq_error : (∃ e, decodeS w i = .error e) ↔ w.data ≠ 0 := by
  rw [decodeS]
  split <;> simp_all

theorem decodeSK_eq_error : (∃ e, decodeSK w i = .error e) ↔ w.data.toNat ≥ 8 := by
  rw [decodeSK, ge_iff_le, ← not_lt, ← Cmd.dataHigh_eq_zero]
  split <;> simp_all

end

/-- Every command's encoding decodes to it: no operand bit is lost. -/
theorem decode_encode (i : Instr) : decode (encode i) = .ok i := by
  cases i
  case rdc s k => simp [encode, decode, decodeSK]
  all_goals simp [encode, decode, decodeN, decodeS]

/-- How the decoder reads a word: by the format that the table of R48 gives its opcode. -/
inductive DecodeCase (w : Cmd) (r : Except Illegal Instr) : Prop where
  | n (i : Instr) (hop : w.op ∈ [0x01#8, 0x02#8, 0x08#8, 0x13#8]) (hi : encode i = Cmd.make w.op 0 0)
      (hr : r = decodeN w i)
  | sd (hop : w.op = 0x03#8) (hr : r = .ok (.setf w.sym w.data))
  | s (i : Instr) (hop : w.op ∈ [0x04#8, 0x10#8, 0x11#8]) (hi : encode i = Cmd.make w.op w.sym 0)
      (hr : r = decodeS w i)
  | sk (hop : w.op = 0x12#8) (hr : r = decodeSK w (.rdc w.sym w.chunk))
  | undefined (hop : w.op ∉ [0x01#8, 0x02#8, 0x03#8, 0x04#8, 0x08#8, 0x10#8, 0x11#8, 0x12#8, 0x13#8])
      (hr : r = .error .undefinedOpcode)

theorem decodeCase (w : Cmd) : DecodeCase w (decode w) := by
  refine iteInduction (fun h => .n .init (by simp [h]) (h ▸ rfl) rfl) fun h1 => ?_
  refine iteInduction (fun h => .n .clrf (by simp [h]) (h ▸ rfl) rfl) fun h2 => ?_
  refine iteInduction (fun h => .sd h rfl) fun h3 => ?_
  refine iteInduction (fun h => .s (.incf w.sym) (by simp [h]) (h ▸ rfl) rfl) fun h4 => ?_
  refine iteInduction (fun h => .n .build (by simp [h]) (h ▸ rfl) rfl) fun h8 => ?_
  refine iteInduction (fun h => .s (.rdf w.sym) (by simp [h]) (h ▸ rfl) rfl) fun h10 => ?_
  refine iteInduction (fun h => .s (.rdl w.sym) (by simp [h]) (h ▸ rfl) rfl) fun h11 => ?_
  refine iteInduction (fun h => .sk h rfl) fun h12 => ?_
  refine iteInduction (fun h => .n .rdst (by simp [h]) (h ▸ rfl) rfl) fun h13 => ?_
  exact .undefined (by simp [*]) rfl

/-- A word that decodes is its command's encoding: the opcode names the command, and the format leaves no other bit. -/
theorem encode_of_decode {w : Cmd} {i : Instr} (h : decode w = .ok i) : encode i = w := by
  cases decodeCase w with
  | n j hop hj hr => exact encode_of_decodeN hj (hr.symm.trans h)
  | sd hop hr =>
    cases hr.symm.trans h
    exact Cmd.make_eq_iff.2 ⟨hop, rfl, rfl⟩
  | s j hop hj hr => exact encode_of_decodeS hj (hr.symm.trans h)
  | sk hop hr => exact encode_of_decodeSK (hop ▸ rfl) (hr.symm.trans h)
  | undefined hop hr => cases hr.symm.trans h

/-- Settles O6: each opcode stands for one command, and each format keeps its operands and fixes every other bit. -/
theorem decodeAndEncodeAgree : Obligations.DecodeAndEncodeAgree := fun _ i =>
  ⟨encode_of_decode, fun h => h ▸ decode_encode i⟩

/-- A word is illegal exactly when it is no command. -/
theorem decode_error_iff_no_command (w : Cmd) : (∃ e, decode w = .error e) ↔ ∀ i, decode w ≠ .ok i := by
  cases decode w <;> simp

/-- The illegal words (R51, R52): each branch of the decoder fixes the opcode, and the opcode the format. -/
theorem decode_eq_error (w : Cmd) : (∃ e, decode w = .error e) ↔
    (w.op ∉ [0x01#8, 0x02#8, 0x03#8, 0x04#8, 0x08#8, 0x10#8, 0x11#8, 0x12#8, 0x13#8]) ∨
    (w.op ∈ [0x01#8, 0x02#8, 0x08#8, 0x13#8] ∧ (w.sym ≠ 0 ∨ w.data ≠ 0)) ∨
    (w.op ∈ [0x04#8, 0x10#8, 0x11#8] ∧ w.data ≠ 0) ∨ (w.op = 0x12#8 ∧ w.data.toNat ≥ 8) := by
  cases decodeCase w with
  | n i hop hi hr =>
    rw [hr, decodeN_eq_error]
    simp only [List.mem_cons, List.not_mem_nil, or_false] at hop
    rcases hop with hop | hop | hop | hop <;> simp [hop]
  | sd hop hr => simp [hr, hop]
  | s i hop hi hr =>
    rw [hr, decodeS_eq_error]
    simp only [List.mem_cons, List.not_mem_nil, or_false] at hop
    rcases hop with hop | hop | hop <;> simp [hop]
  | sk hop hr =>
    rw [hr, decodeSK_eq_error]
    simp [hop]
  | undefined hop hr => exact iff_of_true ⟨_, hr⟩ (.inl hop)

end Sys2Proof
end

section
/-! The match and mask table (R49, R50): a word hits a row exactly when it is a command of that row. -/

namespace Sys2Proof

/-- A mnemonic names one row. -/
theorem opcodeTable_mnemonic_inj : ∀ r ∈ opcodeTable, ∀ r' ∈ opcodeTable, r.mnemonic = r'.mnemonic → r = r' := by
  decide

/-- Every command hits a row of its mnemonic. -/
theorem encode_hits_row (i : Instr) : Laws.EncodeRow.Statement i := by
  cases i with
  | init => exact Laws.EncodeRow.init
  | clrf => exact Laws.EncodeRow.clrf
  | setf s c => exact Laws.EncodeRow.setf s c
  | incf s => exact Laws.EncodeRow.incf s
  | build => exact Laws.EncodeRow.build
  | rdf s => exact Laws.EncodeRow.rdf s
  | rdl s => exact Laws.EncodeRow.rdl s
  | rdc s k => exact Laws.EncodeRow.rdc s k
  | rdst => exact Laws.EncodeRow.rdst

section
variable {w : Cmd} {o : BitVec 8} {sm : Sym} {dm : Data}

/-- What a row whose mask covers the opcode compares, field by field. -/
theorem hits_fields :
    w &&& Cmd.make 0xFF sm dm = Cmd.make o 0 0 ↔ w.op = o ∧ w.sym &&& sm = 0 ∧ w.data &&& dm = 0 := by
  have hop : w.op &&& 0xFF = w.op := BitVec.and_allOnes
  have hand : w &&& Cmd.make 0xFF sm dm = Cmd.make w.op (w.sym &&& sm) (w.data &&& dm) := by
    conv_lhs => rw [← Cmd.make_fields w, Cmd.make_and, hop]
  rw [hand, Cmd.make_eq_iff, Cmd.op_make, Cmd.sym_make, Cmd.data_make, eq_comm, eq_comm (a := 0), eq_comm (a := 0)]

/-! The word that hits a row, by the row's format (R46) -/

theorem make_of_hits_n (h : w &&& Cmd.make 0xFF 0xFF 0xFFFFFFFF = Cmd.make o 0 0) : Cmd.make o 0 0 = w := by
  obtain ⟨hop, hsym, hdata⟩ := hits_fields.1 h
  exact Cmd.make_eq_iff.2 ⟨hop, BitVec.and_allOnes.symm.trans hsym, BitVec.and_allOnes.symm.trans hdata⟩

theorem make_of_hits_s (h : w &&& Cmd.make 0xFF 0 0xFFFFFFFF = Cmd.make o 0 0) : Cmd.make o w.sym 0 = w := by
  obtain ⟨hop, -, hdata⟩ := hits_fields.1 h
  exact Cmd.make_eq_iff.2 ⟨hop, rfl, BitVec.and_allOnes.symm.trans hdata⟩

theorem make_of_hits_sd (h : w &&& Cmd.make 0xFF 0 0 = Cmd.make o 0 0) : Cmd.make o w.sym w.data = w := by
  obtain ⟨hop, -, -⟩ := hits_fields.1 h
  exact Cmd.make_eq_iff.2 ⟨hop, rfl, rfl⟩

/-- Data whose upper 29 bits are 0 is a chunk index. -/
theorem toNat_lt_of_and_eq_zero {d : Data} (h : d &&& 0xFFFFFFF8 = 0) : d.toNat < 8 := by
  have hd : d = d &&& 7 := calc
    d = d &&& (0xFFFFFFF8 ||| 7) := BitVec.and_allOnes.symm
    _ = d &&& 7 := by rw [BitVec.and_or_distrib_left, h, BitVec.ofNat_eq_ofNat, BitVec.zero_or]
  rw [hd, BitVec.toNat_and]
  exact Nat.lt_succ_of_le Nat.and_le_right

theorem make_of_hits_sk (h : w &&& Cmd.make 0xFF 0 0xFFFFFFF8 = Cmd.make o 0 0) :
    Cmd.make o w.sym (w.chunk.setWidth Config.dataW) = w := by
  obtain ⟨hop, -, hdata⟩ := hits_fields.1 h
  exact Cmd.make_eq_iff.2 ⟨hop, rfl, (Cmd.data_eq_chunk w).2 (toNat_lt_of_and_eq_zero hdata)⟩

end

/-- A word that hits a row is a command of the row's mnemonic. -/
theorem exists_encode_of_hits {r : OpcodeRow} {w : Cmd} (hr : r ∈ opcodeTable) (h : r.hits w) :
    ∃ i, encode i = w ∧ i.mnemonic = r.mnemonic := by
  simp only [opcodeTable, List.mem_cons, List.not_mem_nil, or_false] at hr
  rcases hr with rfl | rfl | rfl | rfl | rfl | rfl | rfl | rfl | rfl
  · exact ⟨.init, make_of_hits_n h, rfl⟩
  · exact ⟨.clrf, make_of_hits_n h, rfl⟩
  · exact ⟨.setf w.sym w.data, make_of_hits_sd h, rfl⟩
  · exact ⟨.incf w.sym, make_of_hits_s h, rfl⟩
  · exact ⟨.build, make_of_hits_n h, rfl⟩
  · exact ⟨.rdf w.sym, make_of_hits_s h, rfl⟩
  · exact ⟨.rdl w.sym, make_of_hits_s h, rfl⟩
  · exact ⟨.rdc w.sym w.chunk, make_of_hits_sk h, rfl⟩
  · exact ⟨.rdst, make_of_hits_n h, rfl⟩

/-- R49 for one word and one row. -/
theorem hits_iff_decode {r : OpcodeRow} (hr : r ∈ opcodeTable) (w : Cmd) :
    r.hits w ↔ ∃ i, decode w = .ok i ∧ i.mnemonic = r.mnemonic := by
  constructor
  · intro h
    obtain ⟨i, rfl, hi⟩ := exists_encode_of_hits hr h
    exact ⟨i, decode_encode i, hi⟩
  · rintro ⟨i, hd, hi⟩
    obtain ⟨r', hr', hi', h⟩ := encode_hits_row i
    have heq : r' = r := opcodeTable_mnemonic_inj r' hr' r hr (hi'.trans hi)
    rwa [heq, encode_of_decode hd] at h

/-- Settles O7: each row compares the opcode and the reserved fields of its command's format, and nothing else. -/
theorem decoderFollowsMatchAndMask : Obligations.DecoderFollowsMatchAndMask :=
  ⟨fun w _ hr => (hits_iff_decode hr w).symm, rfl, rfl, rfl, rfl, rfl⟩

/-- Settles O8: a word that hits two rows is one command, and its mnemonic names one row. -/
theorem opcodeRowsAreDisjoint : Obligations.OpcodeRowsAreDisjoint := by
  refine ⟨by decide, fun r hr r' hr' w h h' => ?_, fun w => ?_⟩
  · obtain ⟨i, hi, hm⟩ := (hits_iff_decode hr w).1 h
    obtain ⟨i', hi', hm'⟩ := (hits_iff_decode hr' w).1 h'
    have hii : i = i' := Except.ok.inj (hi.symm.trans hi')
    exact opcodeTable_mnemonic_inj r hr r' hr' (hm.symm.trans (hii ▸ hm'))
  · rw [decode_error_iff_no_command]
    constructor
    · intro hno r hr h
      obtain ⟨i, hi, -⟩ := (hits_iff_decode hr w).1 h
      exact hno i hi
    · intro hno i hi
      obtain ⟨r, hr, -, h⟩ := encode_hits_row i
      exact hno r hr (encode_of_decode hi ▸ h)

end Sys2Proof
end

section
/-! One edge of the ports (R57): which branch of the handshake it takes, and what that branch does to the responses. -/

namespace Sys2Proof.Machine

section
variable {s : State} {p : PortIn} {rest : List PortIn}

/-- A word presented to the block that is not busy is accepted and run (R57 (a), (d)). -/
theorem clockEdge_of_accept (hrst : p.rst = false) (hvalid : p.cmdValid = true) (hbusy : s.busy = false)
    (hkept : s.handshakeBrokenBy p = false) : clockEdge p s = runCommand p.cmd s.accept := by
  simp [clockEdge, State.pins, hrst, hvalid, hbusy, hkept]

/-- At an edge of a busy block a response is taken or held, and a word presented waits (R57 (c), (d), (e)). -/
theorem clockEdge_of_busy (hrst : p.rst = false) (hbusy : s.busy = true) (hkept : s.handshakeBrokenBy p = false) :
    clockEdge p s = .next ((s.takeResponse p.rspReady).holdCommand p) := by
  simp [clockEdge, State.pins, hrst, hbusy, hkept]

theorem step_of_accept (hin : s.inputs = p :: rest) (hrst : p.rst = false) (hvalid : p.cmdValid = true)
    (hbusy : s.busy = false) (hheld : s.held = none ∨ s.held = some p.cmd) :
    step s = runCommand p.cmd (State.accept { s with inputs := rest }) := by
  have hkept : s.handshakeBrokenBy p = false := s.handshake_kept p (hheld.imp_right fun h => ⟨hvalid, h⟩)
  exact (step_edge s p rest hin).trans (clockEdge_of_accept hrst hvalid hbusy hkept)

theorem step_of_busy (hin : s.inputs = p :: rest) (hrst : p.rst = false) (hbusy : s.busy = true)
    (hheld : s.held = none ∨ (p.cmdValid = true ∧ s.held = some p.cmd)) :
    step s = .next ((State.takeResponse { s with inputs := rest } p.rspReady).holdCommand p) := by
  have hkept : s.handshakeBrokenBy p = false := s.handshake_kept p hheld
  exact (step_edge s p rest hin).trans (clockEdge_of_busy hrst hbusy hkept)

end

/-- Settles O12: the edge accepts the word, and a word that decodes is its command. -/
theorem stepRunsTheDecodedCommand : Obligations.StepRunsTheDecodedCommand := by
  intro s p rest i hin hrst hvalid hbusy hheld hdecode
  rw [step_of_accept hin hrst hvalid hbusy hheld, runCommand_ok _ _ i hdecode]
  rfl

/-- Settles O9: what each format reserves, and the edge that accepts an illegal word. -/
theorem illegalWordsRaiseIllegal : Obligations.IllegalWordsRaiseIllegal := by
  refine ⟨decode_eq_error, ?_, ⟨.undefinedOpcode, by decide⟩, ⟨.undefinedOpcode, by decide⟩, by decide +kernel⟩
  rintro s p rest hin hrst hvalid hbusy hheld ⟨e, hdecode⟩
  rw [step_of_accept hin hrst hvalid hbusy hheld, runCommand_error _ _ e hdecode]
  rfl

/-- Settles O13: a busy block accepts no word, so the edge takes the response or leaves it. -/
theorem responseIsHeldUntilTaken : Obligations.ResponseIsHeldUntilTaken := by
  intro s p rest r hin hrst hbusy hrsp hheld
  have hstep := step_of_busy hin hrst hbusy hheld
  refine ⟨fun hready => ?_, fun hready => ?_⟩
  · rw [hready, State.takeResponse_false] at hstep
    exact hstep
  · rw [hready, State.takeResponse_some { s with inputs := rest } r hrsp] at hstep
    exact ⟨_, hstep, rfl, rfl, rfl, rfl, rfl, rfl, rfl, rfl⟩

/-- Settles O51: every word leaves a legal response. -/
theorem everyWordGetsALegalResponse : Obligations.EveryWordGetsALegalResponse := by
  intro w s
  have hrun := runCommand_eq_afterWord w s
  obtain ⟨r, hr, st, d, rfl, hlegal⟩ := runCommand_response hrun
  refine ⟨_, st, d, hrun, hr, ?_⟩
  rcases hlegal with rfl | ⟨hd, e, rfl⟩
  · exact ⟨.inl rfl, fun h => absurd rfl h⟩
  · refine ⟨?_, fun _ => hd⟩
    cases e <;> decide

/-! The accounting of one edge (R54, R57 (f)) -/

/-- Responses given so far, oldest first: those taken and then the one that waits. -/
def State.given (s : State) : List Rsp := s.taken ++ s.rspreg.toList

/-- Taking a response moves it from the register to the host. -/
theorem State.given_takeResponse (s : State) (b : Bool) : (s.takeResponse b).given = s.given := by
  cases b with
  | false => rw [State.takeResponse_false]
  | true =>
    cases hr : s.rspreg with
    | none => rw [State.takeResponse_none s true hr]
    | some r =>
      rw [State.takeResponse_some s r hr]
      simp [State.given, hr]

theorem State.length_acceptedWord (s : State) :
    s.acceptedWord.toList.length = if s.accepts then 1 else 0 := by
  cases hin : s.inputs with
  | nil => simp [State.acceptedWord, State.accepts, hin]
  | cons p rest =>
    simp only [State.acceptedWord, hin]
    split <;> rfl

/-- The word accepted, by the sample of the edge. -/
theorem State.acceptedWord_of_sample {s : State} {p : PortIn} {rest : List PortIn} (hin : s.inputs = p :: rest)
    (hrst : p.rst = false) (hkept : s.handshakeBrokenBy p = false) :
    s.acceptedWord = if p.cmdValid = true ∧ s.busy = false then some p.cmd else none := by
  simp [State.acceptedWord, State.accepts, hin, hrst, hkept]

/-- The possible ends of a step that samples no `rst = 1`: it accepts a word and runs it, or it leaves the tables, the
flags and the responses given as they are. -/
inductive EdgeEnd (s t : State) : Prop where
  | idle (hword : s.acceptedWord = none) (hgiven : t.given = s.given) (hsame : SameArchitecture t s)
  | word (w : Cmd) (hword : s.acceptedWord = some w) (hbusy : s.busy = false)
      (hrun : runCommand w (State.accept { s with inputs := s.inputs.tail }) = .next t)

theorem edgeEnd_of_step {s t : State} (hreset : s.resetsNext = false) (h : step s = .next t) : EdgeEnd s t := by
  cases hin : s.inputs with
  | nil =>
    rw [step_no_edge s hin] at h
    cases h
    exact .idle (by simp [State.acceptedWord, hin]) rfl ⟨rfl, rfl, rfl⟩
  | cons p rest =>
    have hrst : p.rst = false := by simpa [State.resetsNext, hin] using hreset
    rw [step_edge s p rest hin] at h
    rcases clockEdge_cases p { s with inputs := rest } with
      ⟨hr, -⟩ | ⟨-, -, hc⟩ | ⟨-, hkept, hvalid, hbusy, hc⟩ | ⟨-, hkept, hno, hc⟩
    · exact absurd hr (by simp [hrst])
    · cases hc.symm.trans h
    · have hword := (State.acceptedWord_of_sample hin hrst hkept).trans (if_pos ⟨hvalid, hbusy⟩)
      exact .word p.cmd hword hbusy (by simpa [hin] using hc.symm.trans h)
    · have hnot : ¬ (p.cmdValid = true ∧ s.busy = false) := fun ⟨hvalid, hbusy⟩ =>
        hno.elim (by simp [hvalid]) (absurd · (by simp [hbusy]))
      cases hc.symm.trans h
      refine .idle ((State.acceptedWord_of_sample hin hrst hkept).trans (if_neg hnot)) ?_ ?_
      · exact State.given_takeResponse { s with inputs := rest } p.rspReady
      · exact ⟨State.takeResponse_ft _ _, State.takeResponse_ct _ _, State.takeResponse_err _ _⟩

/-- Every step uses up the sample it acts on. -/
theorem step_inputs {s t : State} (h : step s = .next t) : t.inputs = s.inputs.tail := by
  cases hin : s.inputs with
  | nil =>
    rw [step_no_edge s hin] at h
    cases h
    exact hin
  | cons p rest =>
    rw [step_edge s p rest hin] at h
    rcases clockEdge_cases p { s with inputs := rest } with
      ⟨-, hc⟩ | ⟨-, -, hc⟩ | ⟨-, -, -, -, hc⟩ | ⟨-, -, -, hc⟩
    · cases hc.symm.trans h
      rfl
    · cases hc.symm.trans h
    · obtain ⟨-, -, hinputs, -⟩ := runCommand_samePorts (hc.symm.trans h)
      exact hinputs
    · cases hc.symm.trans h
      exact State.takeResponse_inputs _ _

/-- No response waits in a block that is not busy. -/
theorem PortInv.rspreg_eq_none {s : State} (hs : PortInv s) (hbusy : s.busy = false) : s.rspreg = none := by
  obtain ⟨hbusy', -⟩ := hs
  simpa [hbusy] using hbusy'

/-- A step that samples no `rst = 1` gives the response of the word it accepts and leaves what that word leads to; one that
accepts none gives nothing and changes nothing. -/
theorem EdgeEnd.given_eq {s t : State} (h : EdgeEnd s t) (hs : PortInv s) :
    t.given = s.given ++ session s.acceptedWord.toList s ∧ SameArchitecture t (s.afterWords s.acceptedWord.toList) := by
  cases h with
  | idle hword hgiven hsame =>
    rw [hword]
    exact ⟨hgiven.trans (List.append_nil _).symm, hsame⟩
  | word w hword hbusy hrun =>
    rw [hword]
    obtain ⟨-, -, -, htaken⟩ := runCommand_samePorts hrun
    obtain rfl := Host.Outcome.next.inj ((runCommand_eq_afterWord _ _).symm.trans hrun)
    obtain ⟨hrsp, hsame⟩ := afterWord_agree w (State.accept { s with inputs := s.inputs.tail }) s ⟨rfl, rfl, rfl⟩
    refine ⟨?_, hsame⟩
    rw [State.given, htaken, hrsp, State.given, hs.rspreg_eq_none hbusy]
    simp [session]

/-- Settles O16: a step gives one response for the word it accepts, and a session has one response for each word. -/
theorem oneResponsePerAcceptedWord : Obligations.OneResponsePerAcceptedWord := by
  intro s t hs hreset h
  obtain ⟨hgiven, -⟩ := (edgeEnd_of_step hreset h).given_eq hs
  have hlength := congrArg List.length hgiven
  rwa [List.length_append, session_length, State.length_acceptedWord, State.given, State.given, List.length_append,
    List.length_append] at hlength

/-! The accounting of a run (R38, R57 (f)) -/

theorem afterWords_append (ws ws' : List Cmd) (s : State) :
    s.afterWords (ws ++ ws') = (s.afterWords ws).afterWords ws' := List.foldl_append

theorem session_append (ws ws' : List Cmd) (s : State) :
    session (ws ++ ws') s = session ws s ++ session ws' (s.afterWords ws) := by
  induction ws generalizing s with
  | nil => rfl
  | cons w ws ih =>
    rw [List.cons_append, session, session, ih, List.append_assoc]
    rfl

theorem wordsAccepted_succ {s t : State} (h : step s = .next t) (n : Nat) :
    s.wordsAccepted (n + 1) = s.acceptedWord.toList ++ t.wordsAccepted n := by
  rw [State.wordsAccepted, h]

/-- Without a sample of `rst = 1` among the next `n + 1`, the next edge does not reset and neither do the `n` after it. -/
theorem no_reset_succ {s : State} {n : Nat} (h : ∀ p ∈ s.inputs.take (n + 1), p.rst = false) :
    s.resetsNext = false ∧ ∀ p ∈ s.inputs.tail.take n, p.rst = false := by
  cases hin : s.inputs with
  | nil => simp [State.resetsNext, hin]
  | cons p rest => simpa [State.resetsNext, hin] using h

/-- Settles O60, by induction on the edges: each gives the response of the word it accepts and leaves the tables and flags
the rest of the session starts from; what else it leaves is not observable (R26). -/
theorem anySessionAnswersTheAcceptedWords : Obligations.AnySessionAnswersTheAcceptedWords := by
  intro n
  induction n with
  | zero =>
    intro s t _ _ hrun
    cases hrun
    exact ⟨(List.append_nil _).symm, rfl, rfl, rfl, rfl⟩
  | succ n ih =>
    intro s t hs hrst hrun
    obtain ⟨u, hstep, hrest⟩ := run_succ_eq_next.1 hrun
    obtain ⟨hreset, hrst'⟩ := no_reset_succ hrst
    obtain ⟨hgiven, hsame⟩ := (edgeEnd_of_step hreset hstep).given_eq hs
    obtain ⟨htaken, -, harch⟩ := ih u t ((stepEnd_of_step hstep).portInv hs) (step_inputs hstep ▸ hrst') hrest
    obtain ⟨hsession, hend⟩ := workingStoresAreNotObservable (u.wordsAccepted n) u _ hsame
    refine ⟨?_, session_length _ _, ?_⟩
    · calc t.taken ++ t.rspreg.toList
        _ = u.given ++ session (u.wordsAccepted n) u := htaken
        _ = s.given ++ session (s.wordsAccepted (n + 1)) s := by
          rw [hgiven, hsession, List.append_assoc, ← session_append, wordsAccepted_succ hstep]
    · rw [wordsAccepted_succ hstep, afterWords_append]
      exact harch.trans hend

end Sys2Proof.Machine
end

section
/-! The assembler (R58, R59): which lines it rejects, and the words of every other line. -/

namespace Sys2Proof

/-! Encodings as numbers (R45, R46) -/

theorem Cmd.make_eq_ofNat (o : BitVec 8) (s : Sym) (d : Data) :
    Cmd.make o s d = BitVec.ofNat 48 (o.toNat * 2 ^ 40 + s.toNat * 2 ^ 32 + d.toNat) := by
  have hs : s.toNat < 2 ^ 8 := s.isLt
  have hd : d.toNat < 2 ^ 32 := d.isLt
  have hmake : (Cmd.make o s d).toNat = (o.toNat * 2 ^ 8 + s.toNat) * 2 ^ 32 + d.toNat := by
    rw [Cmd.make, BitVec.toNat_append, BitVec.toNat_append, ← Nat.shiftLeft_add_eq_or_of_lt hs,
      ← Nat.shiftLeft_add_eq_or_of_lt hd, Nat.shiftLeft_eq, Nat.shiftLeft_eq]
  refine BitVec.eq_of_toNat_eq (hmake.trans (.trans ?_ (BitVec.toNat_ofNat _ 48).symm))
  omega

theorem Cmd.make_zero_eq_ofNat (o : BitVec 8) (s : Sym) :
    Cmd.make o s 0 = BitVec.ofNat 48 (o.toNat * 2 ^ 40 + s.toNat * 2 ^ 32) := by
  simp [Cmd.make_eq_ofNat]

theorem encode_setf_eq_ofNat (s : Sym) (c : Count) :
    encode (.setf s c) = BitVec.ofNat 48 (0x03 * 2 ^ 40 + s.toNat * 2 ^ 32 + c.toNat) := Cmd.make_eq_ofNat 0x03 s c

theorem encode_incf_eq_ofNat (s : Sym) : encode (.incf s) = BitVec.ofNat 48 (0x04 * 2 ^ 40 + s.toNat * 2 ^ 32) :=
  Cmd.make_zero_eq_ofNat 0x04 s

theorem encode_rdf_eq_ofNat (s : Sym) : encode (.rdf s) = BitVec.ofNat 48 (0x10 * 2 ^ 40 + s.toNat * 2 ^ 32) :=
  Cmd.make_zero_eq_ofNat 0x10 s

theorem encode_rdl_eq_ofNat (s : Sym) : encode (.rdl s) = BitVec.ofNat 48 (0x11 * 2 ^ 40 + s.toNat * 2 ^ 32) :=
  Cmd.make_zero_eq_ofNat 0x11 s

theorem encode_rdc_eq_ofNat (s : Sym) (k : ChunkIdx) :
    encode (.rdc s k) = BitVec.ofNat 48 (0x12 * 2 ^ 40 + s.toNat * 2 ^ 32 + k.toNat) := by
  rw [← ChunkIdx.toNat_data k]
  exact Cmd.make_eq_ofNat 0x12 s (k.setWidth Config.dataW)

/-! Operands (R58) -/

/-- A symbol operand in range, and the byte it means. -/
structure SymArg.Means (a : SymArg) (n : Nat) : Prop where
  wellFormed : a.wellFormed = true
  toSym : a.toSym.toNat = n

theorem SymArg.means_of_inRange {a : SymArg} {n : Nat}
    (h : (a = .num n ∧ n ≤ 255) ∨ (∃ ch : Char, a = .chr ch ∧ ch.toNat = n ∧ n < 128)) : a.Means n := by
  rcases h with ⟨rfl, hn⟩ | ⟨ch, rfl, rfl, hn⟩
  · exact ⟨decide_eq_true (Nat.lt_succ_of_le hn), Nat.mod_eq_of_lt (Nat.lt_succ_of_le hn)⟩
  · exact ⟨decide_eq_true hn, Nat.mod_eq_of_lt (hn.trans (by decide))⟩

theorem SymArg.wellFormed_eq_false {a : SymArg}
    (h : (∃ n, a = .num n ∧ n > 255) ∨ (∃ ch : Char, a = .chr ch ∧ ch.toNat ≥ 128)) : a.wellFormed = false := by
  rcases h with ⟨n, rfl, hn⟩ | ⟨ch, rfl, hn⟩
  · exact decide_eq_false (Nat.not_lt.2 hn)
  · exact decide_eq_false (Nat.not_lt.2 hn)

/-! Lines (R58, R59) -/

/-- A line with an operand out of range is rejected. -/
theorem assemble_eq_none {l : AsmLine} (h : l.wellFormed = false) : assemble l = none := by
  simp [assemble, h]

/-- The commands a line stands for; a literal word stands for none. -/
def AsmLine.commands : AsmLine → Option (List Instr)
  | .init => some [.init]
  | .clrf => some [.clrf]
  | .setf s c => some [.setf s.toSym (BitVec.ofNat Config.cntW c)]
  | .incf s => some [.incf s.toSym]
  | .build => some [.build]
  | .rdf s => some [.rdf s.toSym]
  | .rdl s => some [.rdl s.toSym]
  | .rdc s k => some [.rdc s.toSym (BitVec.ofNat Config.chunkIdxW k)]
  | .rdst => some [.rdst]
  | .word _ => none
  | .count text => some (pseudoCount text)
  | .rdcode s => some (pseudoRdcode s.toSym)

/-- A well-formed line gives the encodings of the commands it stands for. -/
theorem assemble_eq_encode {l : AsmLine} {cmds : List Instr} (hl : l.wellFormed = true) (h : l.commands = some cmds) :
    assemble l = some (cmds.map encode) := by
  cases l <;> cases h <;> simp [assemble, hl]

theorem exists_commands {l : AsmLine} (h : ∀ w, l ≠ .word w) : ∃ cmds, l.commands = some cmds := by
  cases l <;> simp [AsmLine.commands] at h ⊢

section
variable {a : SymArg} {n : Nat} (ha : a.Means n)
include ha

theorem assemble_setf (c : Nat) : assemble (.setf a c) =
    if c ≤ 4294967295 then some [BitVec.ofNat 48 (0x03 * 2 ^ 40 + n * 2 ^ 32 + c)] else none := by
  have hl : (AsmLine.setf a c).wellFormed = decide (c < 4294967296) := by
    rw [AsmLine.wellFormed, ha.wellFormed, Bool.true_and]
    rfl
  split
  · next hc =>
    have hc' : c < 4294967296 := Nat.lt_succ_of_le hc
    rw [assemble_eq_encode (hl.trans (decide_eq_true hc')) rfl, List.map_singleton, encode_setf_eq_ofNat, ha.toSym,
      Count.toNat_ofNat, Nat.mod_eq_of_lt hc']
  · next hc => exact assemble_eq_none (hl.trans (decide_eq_false (by omega)))

theorem assemble_rdc (k : Nat) : assemble (.rdc a k) =
    if k ≤ 7 then some [BitVec.ofNat 48 (0x12 * 2 ^ 40 + n * 2 ^ 32 + k)] else none := by
  have hl : (AsmLine.rdc a k).wellFormed = decide (k < 8) := by
    rw [AsmLine.wellFormed, ha.wellFormed, Bool.true_and]
    rfl
  split
  · next hk =>
    have hk' : k < 8 := Nat.lt_succ_of_le hk
    rw [assemble_eq_encode (hl.trans (decide_eq_true hk')) rfl, List.map_singleton, encode_rdc_eq_ofNat, ha.toSym,
      Machine.ChunkIdx.toNat_ofNat k hk']
  · next hk => exact assemble_eq_none (hl.trans (decide_eq_false (by omega)))

theorem assemble_incf : assemble (.incf a) = some [BitVec.ofNat 48 (0x04 * 2 ^ 40 + n * 2 ^ 32)] := by
  rw [assemble_eq_encode (l := .incf a) ha.wellFormed rfl, List.map_singleton, encode_incf_eq_ofNat, ha.toSym]

theorem assemble_rdf : assemble (.rdf a) = some [BitVec.ofNat 48 (0x10 * 2 ^ 40 + n * 2 ^ 32)] := by
  rw [assemble_eq_encode (l := .rdf a) ha.wellFormed rfl, List.map_singleton, encode_rdf_eq_ofNat, ha.toSym]

theorem assemble_rdl : assemble (.rdl a) = some [BitVec.ofNat 48 (0x11 * 2 ^ 40 + n * 2 ^ 32)] := by
  rw [assemble_eq_encode (l := .rdl a) ha.wellFormed rfl, List.map_singleton, encode_rdl_eq_ofNat, ha.toSym]

theorem assemble_rdcode : assemble (.rdcode a) = some (BitVec.ofNat 48 (0x11 * 2 ^ 40 + n * 2 ^ 32) ::
    [0, 1, 2, 3, 4, 5, 6, 7].map (fun k => BitVec.ofNat 48 (0x12 * 2 ^ 40 + n * 2 ^ 32 + k))) := by
  have hchunk : (List.range Config.nchunk).map (fun k => encode (.rdc a.toSym (BitVec.ofNat Config.chunkIdxW k))) =
      (List.range Config.nchunk).map (fun k => BitVec.ofNat 48 (0x12 * 2 ^ 40 + n * 2 ^ 32 + k)) :=
    List.map_congr_left fun k hk => by
      rw [encode_rdc_eq_ofNat, ha.toSym, Machine.ChunkIdx.toNat_ofNat k (List.mem_range.1 hk)]
  rw [assemble_eq_encode (l := .rdcode a) ha.wellFormed rfl, pseudoRdcode, List.map_cons, List.map_map,
    encode_rdl_eq_ofNat, ha.toSym]
  exact congrArg (fun ws => some (_ :: ws)) hchunk

end

theorem assemble_word (w : Nat) : assemble (.word w) = if w < 16 ^ 12 then some [BitVec.ofNat 48 w] else none := by
  split
  · next hw => exact if_pos (decide_eq_true hw)
  · next hw => exact assemble_eq_none (decide_eq_false hw)

theorem assemble_count (text : List Sym) : assemble (.count text) =
    some (text.map (fun b => BitVec.ofNat 48 (0x04 * 2 ^ 40 + b.toNat * 2 ^ 32))) := by
  rw [assemble_eq_encode rfl rfl, pseudoCount, List.map_map]
  exact congrArg some (List.map_congr_left fun b _ => encode_incf_eq_ofNat b)

/-- Every word of a line other than a literal word is legal. -/
theorem decode_of_mem_assemble {l : AsmLine} {ws : List Cmd} (h : assemble l = some ws) (hl : ∀ w, l ≠ .word w)
    {w : Cmd} (hw : w ∈ ws) : ∃ i, decode w = .ok i := by
  cases hwf : l.wellFormed with
  | false => cases (assemble_eq_none hwf).symm.trans h
  | true =>
    obtain ⟨cmds, hcmds⟩ := exists_commands hl
    cases (assemble_eq_encode hwf hcmds).symm.trans h
    obtain ⟨i, -, rfl⟩ := List.mem_map.1 hw
    exact ⟨i, decode_encode i⟩

/-- Settles O11: a line that is not rejected gives the encodings of its commands, and these decode. -/
theorem assemblerProducesLegalWords : Obligations.AssemblerProducesLegalWords := by
  refine ⟨⟨rfl, rfl, rfl, rfl⟩, fun a n h => ?_, fun a h => ?_, assemble_word, assemble_count,
    fun l ws h hl w hw => decode_of_mem_assemble h hl hw⟩
  · have ha := SymArg.means_of_inRange h
    exact ⟨assemble_setf ha, assemble_incf ha, assemble_rdf ha, assemble_rdl ha, assemble_rdc ha, assemble_rdcode ha⟩
  · have ha := SymArg.wellFormed_eq_false h
    exact ⟨fun c => assemble_eq_none (by simp [AsmLine.wellFormed, ha]), assemble_eq_none ha, assemble_eq_none ha,
      assemble_eq_none ha, fun k => assemble_eq_none (by simp [AsmLine.wellFormed, ha]), assemble_eq_none ha⟩

end Sys2Proof
end

section
/-! The commands that load the frequency table (R61 to R65): what each leaves in it, and what a sequence of them does. -/

namespace Sys2Proof.Machine

/-- Only `BUILD` touches more than the tables, the flags and the response register (R32, R57). -/
theorem CommandEnd.sameOutside {i : Instr} {s t : State} (h : CommandEnd s i t) (hi : i ≠ .build) : SameOutside s t :=
  ⟨exec_work i s t h.exec_eq hi, exec_samePorts i s t h.exec_eq⟩

/-- The state after a command is its end. -/
theorem CommandEnd.after_eq {i : Instr} {s t : State} (h : CommandEnd s i t) : s.after i = t := by
  rw [State.after, h.exec_eq]

/-- A count below the largest does not wrap (R64). -/
theorem Count.toNat_succ_of_ne_max {c : Count} (h : c ≠ Config.maxCount) : (c + 1).toNat = c.toNat + 1 := by
  have hlt := Count.toNat_lt c
  have hne : c.toNat ≠ 4294967295 := fun e => h (BitVec.eq_of_toNat_eq e)
  rw [Count.toNat_succ, Nat.mod_eq_of_lt (by omega)]

/-- Giving an absent symbol a count adds it to the present ones (R13). -/
theorem present_tableSet_perm {f : FreqTable} {x : Sym} {c : Count} (hx : tableGet f x = 0) (hc : c ≠ 0) :
    (present (tableSet f x c)).Perm (x :: present f) := by
  have hnotin : x ∉ present f := fun h => (mem_present f x).1 h hx
  refine (List.perm_ext_iff_of_nodup (nodup_present _) (List.nodup_cons.2 ⟨hnotin, nodup_present f⟩)).2 fun y => ?_
  rw [List.mem_cons, mem_present, mem_present, tableGet_tableSet]
  by_cases hy : y = x
  · simpa [hy] using hc
  · simp [hy]

/-- An absent symbol that gets a count raises `FTN` by one (R14). -/
theorem ftnOf_tableSet_of_absent {f : FreqTable} {x : Sym} {c : Count} (hx : tableGet f x = 0) (hc : c ≠ 0) :
    ftnOf (tableSet f x c) = ftnOf f + 1 :=
  (present_tableSet_perm hx hc).length_eq

/-! Sequences of commands (R65) -/

/-- `INCF x` is a saturating count of `x`: below the largest count it adds one, at it the count stays (R64). -/
theorem after_incf_toNat (s : State) (x y : Sym) :
    (tableGet (s.after (.incf x)).ft y).toNat = min ((tableGet s.ft y).toNat + [x].count y) 4294967295 := by
  have hy := Count.toNat_lt (tableGet s.ft y)
  by_cases hmax : tableGet s.ft x = Config.maxCount
  · rw [(CommandEnd.incfOverflow x hmax).after_eq, State.raise_ft]
    by_cases hxy : y = x
    · rw [hxy, hmax, Config.maxCount_eq]
      exact (Nat.min_eq_right (Nat.le_add_right _ _)).symm
    · rw [List.count_singleton, if_neg (by simpa using Ne.symm hxy)]
      omega
  · rw [(CommandEnd.incf x hmax).after_eq, State.respond_ft, State.writeFt_ft, tableGet_tableSet, List.count_singleton]
    by_cases hxy : y = x
    · have hlt := Count.toNat_lt (tableGet s.ft x + 1)
      rw [Count.toNat_succ_of_ne_max hmax] at hlt
      rw [if_pos hxy, Count.toNat_succ_of_ne_max hmax, hxy, if_pos (beq_self_eq_true x)]
      omega
    · rw [if_neg hxy, if_neg (by simpa using Ne.symm hxy)]
      omega

/-- Counting a text adds to each count the occurrences of its symbol, up to the largest count (R65). -/
theorem afterAll_incf_toNat (text : List Sym) (s : State) (y : Sym) :
    (tableGet (s.afterAll (text.map .incf)).ft y).toNat =
      min ((tableGet s.ft y).toNat + text.count y) 4294967295 := by
  induction text generalizing s with
  | nil =>
    have hy := Count.toNat_lt (tableGet s.ft y)
    exact (Nat.min_eq_left (Nat.le_of_lt_succ hy)).symm
  | cons x text ih =>
    have hcount : (x :: text).count y = [x].count y + text.count y := List.count_append (l₁ := [x])
    have hrest : s.afterAll ((x :: text).map .incf) = (s.after (.incf x)).afterAll (text.map .incf) := rfl
    rw [hrest, ih, after_incf_toNat, hcount]
    omega

/-- Counting a text in any order gives the same table, overflow or not (R65). -/
theorem afterAll_incf_ft_of_perm {text text' : List Sym} (h : text'.Perm text) (s : State) :
    (s.afterAll (text'.map .incf)).ft = (s.afterAll (text.map .incf)).ft :=
  table_ext fun y => BitVec.eq_of_toNat_eq (by rw [afterAll_incf_toNat, afterAll_incf_toNat, h.count_eq y])

/-- `SETF` commands write their entries one after another (R63). -/
theorem afterAll_setf_ft (l : List (Sym × Count)) (s : State) :
    (s.afterAll (l.map (fun p => .setf p.1 p.2))).ft = l.foldl (fun f p => tableSet f p.1 p.2) s.ft := by
  induction l generalizing s with
  | nil => rfl
  | cons p l ih => exact ih (s.after (.setf p.1 p.2))

/-- Writes to distinct symbols can come in any order. -/
theorem foldl_tableSet_of_perm {α : Type} {l l' : List (Sym × α)} (hn : (l.map Prod.fst).Nodup) (h : l'.Perm l)
    (f : Vector α Config.nsym) :
    l'.foldl (fun f p => tableSet f p.1 p.2) f = l.foldl (fun f p => tableSet f p.1 p.2) f := by
  have hkeys := h.map Prod.fst
  refine table_ext fun x => ?_
  by_cases hx : x ∈ l.map Prod.fst
  · obtain ⟨p, hp, rfl⟩ := List.mem_map.1 hx
    exact (tableGet_foldl_tableSet_of_mem id l' f (hkeys.nodup_iff.2 hn) p (h.mem_iff.2 hp)).trans
      (tableGet_foldl_tableSet_of_mem id l f hn p hp).symm
  · exact (tableGet_foldl_tableSet_of_not_mem id l' f x (hkeys.mem_iff.not.2 hx)).trans
      (tableGet_foldl_tableSet_of_not_mem id l f x hx).symm

/-- Settles O22: the counts after `INCF`s depend on the numbers of occurrences, and `SETF`s to distinct symbols write distinct
entries. -/
theorem loadingOrderDoesNotMatter : Obligations.LoadingOrderDoesNotMatter := by
  refine ⟨fun s text hfit => ⟨fun x => ?_, fun text' hperm => afterAll_incf_ft_of_perm hperm s⟩, fun s l l' hn hperm => ?_⟩
  · have hx := hfit x
    rw [afterAll_incf_toNat]
    omega
  · rw [afterAll_setf_ft, afterAll_setf_ft, foldl_tableSet_of_perm hn hperm]

/-! The commands one by one (R61 to R64) -/

/-- A word with the opcode of `INIT` and a reserved field that is not zero is illegal (R51, R61). -/
theorem decode_init_opcode_eq_error {w : Cmd} (hop : w.op = 0x01) (hw : w ≠ encode .init) : ∃ e, decode w = .error e := by
  refine (decode_eq_error w).2 (.inr (.inl ⟨by simp [hop], ?_⟩))
  by_contra! hzero
  exact hw (Cmd.make_eq_iff.2 ⟨hop, hzero⟩).symm

/-- Only `INIT` clears a flag (R18, R61). -/
theorem CommandEnd.init_of_flag_cleared {i : Instr} {s t : State} {e : ErrCode} (h : CommandEnd s i t)
    (hset : s.err.flag e = true) (hclear : t.err.flag e = false) : i = .init := by
  rcases h.err_cases with herr | hinit | ⟨e', herr⟩
  · simp [herr, hset] at hclear
  · exact hinit
  · simp [herr, ErrFlags.flag_setFlag, hset] at hclear

/-- Settles O18: `INIT` writes the cleared tables and flags, and its one word has no reserved bit set. -/
theorem initClearsTablesAndFlags : Obligations.InitClearsTablesAndFlags := by
  refine ⟨rfl, fun s => ?_, fun w s hop hw => ?_, fun i s t e h => (exec_eq_next.1 h).init_of_flag_cleared⟩
  · have hend := CommandEnd.init (s := s)
    exact ⟨_, hend.exec_eq, tableGet_replicate 0, tableGet_replicate CtEntry.absent, rfl, rfl, hend.sameOutside nofun⟩
  · obtain ⟨e, he⟩ := decode_init_opcode_eq_error hop hw
    exact runCommand_error w s e he

/-- Settles O19: `CLRF` replaces the frequency table by the cleared one. -/
theorem clrfClearsOnlyTheFrequencyTable : Obligations.ClrfClearsOnlyTheFrequencyTable := by
  refine ⟨rfl, fun s => ?_⟩
  have hend := CommandEnd.clrf (s := s)
  exact ⟨_, hend.exec_eq, tableGet_replicate 0, rfl, rfl, rfl, hend.sameOutside nofun⟩

/-- Settles O20: `SETF` is one write to the table, and its format has no reserved bit. -/
theorem setfWritesOneCount : Obligations.SetfWritesOneCount := by
  refine ⟨fun x c s => ?_, fun w hop => ?_⟩
  · have hend := CommandEnd.setf (s := s) x c
    exact ⟨_, hend.exec_eq, tableGet_tableSet_self _ x c, fun y hy => tableGet_tableSet_ne _ c hy, rfl, rfl, rfl,
      hend.sameOutside nofun⟩
  · have hword : encode (.setf w.sym w.data) = w := Cmd.make_eq_iff.2 ⟨hop, rfl, rfl⟩
    exact (decodeAndEncodeAgree w _).2 hword

/-- Settles O21: below the largest count the sum does not wrap, so the new count is not 0; at it `INCF` only raises. -/
theorem incfCountsOneOccurrence : Obligations.IncfCountsOneOccurrence := by
  refine fun x s => ⟨fun hne => ?_, fun hmax => ?_⟩
  · have hend := CommandEnd.incf x (Config.maxCount_eq ▸ hne)
    have hsucc : (tableGet s.ft x + 1).toNat = (tableGet s.ft x).toNat + 1 := Count.toNat_succ_of_ne_max hne
    have hpos : tableGet s.ft x + 1 ≠ 0 := fun h0 => by
      rw [h0] at hsucc
      exact Nat.succ_ne_zero _ hsucc.symm
    have hself := tableGet_tableSet_self s.ft x (tableGet s.ft x + 1)
    exact ⟨_, hend.exec_eq, (congrArg BitVec.toNat hself).trans hsucc, fun y hy => tableGet_tableSet_ne _ _ hy, rfl, rfl,
      congrArg (some ∘ Rsp.make statusOk) hself.symm, hself.trans_ne hpos, hend.sameOutside nofun,
      fun h0 => ftnOf_tableSet_of_absent h0 hpos⟩
  · have hend := CommandEnd.incfOverflow x (hmax.trans Config.maxCount_eq.symm)
    exact ⟨_, hend.exec_eq, rfl, rfl, rfl, rfl, hend.sameOutside nofun⟩

end Sys2Proof.Machine
end

section
/-! The live set of the merge loop (R72, R75): its keys differ, so every correct queue extracts the same trees. -/

namespace Sys2Proof.Machine

/-- No symbol stands at two leaves of the live set. -/
def LiveDistinct (q : List Tree) : Prop := ((q.flatMap Tree.leaves).map Prod.fst).Nodup

/-- The leaves of the initial live set are the symbols present with their counts (R72). -/
theorem leafSet_leaves (f : FreqTable) :
    (leafSet f).flatMap Tree.leaves = (present f).map (fun x => (x, (tableGet f x).toNat)) := by
  simp [leafSet, List.flatMap_map, Tree.leaves, ← List.map_eq_flatMap]

theorem liveDistinct_leafSet (f : FreqTable) : LiveDistinct (leafSet f) := by
  rw [LiveDistinct, leafSet_leaves, List.map_map]
  exact (List.map_id _).symm ▸ nodup_present f

theorem LiveDistinct.mergePasses {q : List Tree} (h : LiveDistinct q) (k : Nat) : LiveDistinct (mergePasses k q) :=
  ((mergePasses_leaves k q).map Prod.fst).nodup_iff.2 h

theorem LiveDistinct.perm {q q' : List Tree} (h : LiveDistinct q) (hp : q'.Perm q) : LiveDistinct q' :=
  ((hp.flatMap_right Tree.leaves).map Prod.fst).nodup_iff.2 h

theorem LiveDistinct.tail {t : Tree} {q : List Tree} (h : LiveDistinct (t :: q)) : LiveDistinct q := by
  rw [LiveDistinct, List.flatMap_cons, List.map_append] at h
  exact h.of_append_right

/-- A tag is a symbol of its own leaves, so the tags of the live set differ (R75). -/
theorem LiveDistinct.tags_nodup {q : List Tree} (h : LiveDistinct q) : (q.map Tree.tag).Nodup := by
  rw [LiveDistinct, List.map_flatMap, List.nodup_flatMap] at h
  obtain ⟨-, hdisjoint⟩ := h
  refine List.pairwise_map.2 (hdisjoint.imp ?_)
  intro t u hd htag
  exact hd t.tag_mem (htag ▸ u.tag_mem)

/-- With distinct tags, "not greater" is "less" (R75). -/
theorem LiveDistinct.lt_of_not_gt {lo : Tree} {r : List Tree} (h : LiveDistinct (lo :: r))
    (hle : ∀ u ∈ r, u.key.lt lo.key = false) : ∀ u ∈ r, lo.key.lt u.key = true := by
  intro u hu
  have htags := h.tags_nodup
  rw [List.map_cons, List.nodup_cons] at htags
  have hne : lo.tag ≠ u.tag := fun e => htags.1 (e ▸ List.mem_map_of_mem hu)
  exact Key.lt_of_tag_ne hne (hle u hu)

/-- The least element of a live set is unique (R75). -/
theorem eq_of_least {lo lo' : Tree} {r r' : List Tree} (hp : (lo :: r).Perm (lo' :: r'))
    (h : ∀ u ∈ r, lo.key.lt u.key = true) (h' : ∀ u ∈ r', u.key.lt lo'.key = false) : lo = lo' ∧ r.Perm r' := by
  have heq : lo = lo' := by
    rcases List.mem_cons.1 (hp.symm.subset List.mem_cons_self) with e | hlo'
    · exact e.symm
    rcases List.mem_cons.1 (hp.subset List.mem_cons_self) with e | hlo
    · exact e
    exact absurd (h lo' hlo') (by simp [h' lo hlo])
  subst heq
  exact ⟨rfl, hp.cons_inv⟩

/-- The leaves of the tree are the symbols present with their counts (R72). -/
theorem buildTree_leaves_perm {f : FreqTable} {T : Tree} (h : buildTree f = some T) :
    T.leaves.Perm ((present f).map (fun x => (x, (tableGet f x).toNat))) := by
  have hp := mergePasses_leaves ((leafSet f).length - 1) (leafSet f)
  rwa [(buildTree_eq_some f T).1 h, leafSet_leaves, List.flatMap_singleton] at hp

theorem exists_buildTree {f : FreqTable} (h : ftnOf f ≠ 0) : ∃ T, buildTree f = some T :=
  Option.ne_none_iff_exists'.1 fun e => h ((buildTree_eq_none f).1 e)

/-! The merge loop with any correct queue (R72) -/

/-- A run in any arrangement of the live set ends where the merge loop does: both extract the same two trees. -/
theorem MergeRun.mergePasses_eq {q : List Tree} {T : Tree} (h : MergeRun q T) :
    ∀ q', q'.Perm q → mergePasses (q'.length - 1) q' = [T] := by
  induction h with
  | done t =>
    rintro q' hq
    rw [List.perm_singleton.1 hq]
    rfl
  | pass q lo hi rest T hp hlo hhi _ ih =>
    intro q' hq
    have hp' := hq.trans hp
    match q', hp'.length_eq with
    | t :: u :: us, hlen =>
      obtain ⟨lo', hi', rest', hmerge, hperm, hlo', hhi'⟩ := mergeOnce_cons_cons t u us
      obtain ⟨rfl, hp2⟩ := eq_of_least (hp'.symm.trans hperm.symm) hlo hlo'
      obtain ⟨rfl, hp3⟩ := eq_of_least hp2 hhi hhi'
      have hstep := ih (.node lo hi :: rest') (hp3.symm.cons _)
      rw [← hmerge, mergeOnce_length, if_neg (by simp)] at hstep
      exact hstep

/-- The merge loop of R72 is a run. -/
theorem mergeRun_of_mergePasses (n : Nat) (q : List Tree) (T : Tree) (hd : LiveDistinct q) (hn : q.length = n + 1)
    (h : mergePasses n q = [T]) : MergeRun q T := by
  induction n generalizing q with
  | zero =>
    rw [mergePasses] at h
    exact h ▸ .done T
  | succ n ih =>
    match q, hn with
    | t :: u :: us, hn =>
      obtain ⟨lo, hi, rest, hmerge, hperm, hlo, hhi⟩ := mergeOnce_cons_cons t u us
      have hd' : LiveDistinct (lo :: hi :: rest) := hd.perm hperm
      have hnext := hd.mergePasses 1
      rw [mergePasses] at h
      rw [mergePasses, mergePasses] at hnext
      refine .pass _ lo hi rest T hperm.symm (hd'.lt_of_not_gt hlo) (hd'.tail.lt_of_not_gt hhi) (hmerge ▸ ih _ hnext ?_ h)
      rw [mergeOnce_length, hn, if_neg (by omega)]
      rfl

/-- Settles O37: the keys differ, so the least tree, and the least of the rest, is the same in every arrangement. -/
theorem anyCorrectQueueGivesTheTree : Obligations.AnyCorrectQueueGivesTheTree := by
  intro f T
  rw [buildTree_eq_some]
  refine ⟨fun h => h.mergePasses_eq _ (.refl _), fun h => ?_⟩
  have hpos : 0 < (leafSet f).length := by
    by_contra h0
    rw [List.eq_nil_of_length_eq_zero (l := leafSet f) (by omega)] at h
    cases h
  exact mergeRun_of_mergePasses _ _ _ (liveDistinct_leafSet f) (by omega) h

/-- The order in which a live set is listed does not matter to a run. -/
theorem MergeRun.perm {q q' : List Tree} {T : Tree} (h : MergeRun q T) (hq : q'.Perm q) : MergeRun q' T := by
  cases h with
  | done => exact List.perm_singleton.1 hq ▸ .done T
  | pass _ lo hi rest _ hp hlo hhi hrun => exact .pass q' lo hi rest T (hq.trans hp) hlo hhi hrun

/-- A run from the leaves of the symbols present, in any arrangement, gives the tree. -/
theorem buildTree_of_mergeRun {f : FreqTable} {q : List Tree} {T : Tree} (hq : (leafSet f).Perm q) (h : MergeRun q T) :
    buildTree f = some T :=
  (buildTree_eq_some f T).2 (h.mergePasses_eq _ hq)

/-- Settles O36: the passes only rearrange the leaves. -/
theorem liveKeysAreDistinct : Obligations.LiveKeysAreDistinct := by
  intro f k
  have hd := (liveDistinct_leafSet f).mergePasses k
  refine ⟨hd.tags_nodup, hd, fun t _ => t.tag_mem, fun t ht u hu hne => ?_⟩
  have htag : t.key.tag ≠ u.key.tag := fun e => hne (List.inj_on_of_nodup_map hd.tags_nodup ht hu e)
  cases hlt : u.key.lt t.key with
  | false => exact Key.lt_of_tag_ne htag hlt
  | true => exact Key.lt_asymm hlt

/-! The size and the weights of the tree (R80, R94) -/

/-- A tree has one internal node less than leaves (R80). -/
theorem Tree.internal_count (t : Tree) : (t.subtrees.filter Tree.isNode).length + 1 = t.leaves.length := by
  induction t with
  | leaf s w => rfl
  | node l r hl hr =>
    simp only [Tree.subtrees, Tree.leaves, Tree.isNode, List.filter_cons, List.filter_append, List.length_append,
      if_true, List.length_cons]
    omega

/-- Settles O38: each pass shrinks the live set by one, and the tree has the leaves of the symbols present. -/
theorem mergeLoopMakesOneTree : Obligations.MergeLoopMakesOneTree := by
  intro f h0
  obtain ⟨T, hT⟩ := exists_buildTree h0
  have hleaves := buildTree_leaves_length f T hT
  refine ⟨fun k hk => ?_, T, hT, buildTree_leaves f T hT, fun p hp => ?_, ?_⟩
  · rw [mergePasses_length k _ (by rwa [leafSet_length]), leafSet_length]
  · have := T.code_length_lt p hp
    exact ⟨by omega, buildTree_code_length f T hT p hp⟩
  · have := T.internal_count
    omega

theorem Tree.self_mem_subtrees (t : Tree) : t ∈ t.subtrees := by
  cases t <;> simp [Tree.subtrees]

/-- No sub-tree weighs more than the tree, and none weighs less than its leaves do (R94). -/
theorem Tree.weight_bounds (t : Tree) (h : ∀ p ∈ t.leaves, 1 ≤ p.2) :
    ∀ u ∈ t.subtrees, 1 ≤ u.weight ∧ u.weight ≤ t.weight ∧ (u.isNode = true → 2 ≤ u.weight) := by
  induction t with
  | leaf s w =>
    intro u hu
    rw [Tree.subtrees, List.mem_singleton] at hu
    subst hu
    exact ⟨h (s, w) (by simp [Tree.leaves]), Nat.le_refl _, nofun⟩
  | node l r ihl ihr =>
    have hl := ihl fun p hp => h p (List.mem_append_left _ hp)
    have hr := ihr fun p hp => h p (List.mem_append_right _ hp)
    obtain ⟨hl1, -, -⟩ := hl l l.self_mem_subtrees
    obtain ⟨hr1, -, -⟩ := hr r r.self_mem_subtrees
    intro u hu
    rw [Tree.subtrees, List.mem_cons, List.mem_append] at hu
    simp only [Tree.weight]
    rcases hu with rfl | hu | hu
    · simp only [Tree.weight]
      omega
    · obtain ⟨h1, h2, h3⟩ := hl u hu
      exact ⟨h1, by omega, h3⟩
    · obtain ⟨h1, h2, h3⟩ := hr u hu
      exact ⟨h1, by omega, h3⟩

/-- The counts of at most 256 symbols add up to less than `2^40` (R6, R94). -/
theorem sum_counts_le (f : FreqTable) : ((present f).map (fun x => (tableGet f x).toNat)).sum ≤ 2 ^ 40 - 256 := by
  have hsum := List.sum_le_card_nsmul ((present f).map (fun x => (tableGet f x).toNat)) (2 ^ 32 - 1) (by
    intro n hn
    obtain ⟨x, -, rfl⟩ := List.mem_map.1 hn
    have := Count.toNat_lt (tableGet f x)
    omega)
  have hlen : (present f).length ≤ 256 := ftnOf_le f
  rw [List.length_map, smul_eq_mul] at hsum
  omega

/-- Settles O39: every count is at least 1, and the leaves' weights are the counts. -/
theorem weightsFitFortyBits : Obligations.WeightsFitFortyBits := by
  intro f T hT
  have hleaves := buildTree_leaves_perm hT
  have hsum : T.weight = ((present f).map (fun x => (tableGet f x).toNat)).sum := by
    rw [Tree.weight_eq_sum, (hleaves.map Prod.snd).sum_eq, List.map_map]
    rfl
  refine ⟨hsum, hsum.trans_le (sum_counts_le f), T.weight_bounds fun p hp => ?_⟩
  obtain ⟨x, hx, rfl⟩ := List.mem_map.1 (hleaves.subset hp)
  exact Nat.one_le_iff_ne_zero.2 fun h0 => (mem_present f x).1 hx (BitVec.eq_of_toNat_eq h0)

end Sys2Proof.Machine
end

section
/-! What a `BUILD` leaves (R71, R83 to R91): the tables and the response, and the codes as strings. -/

namespace Sys2Proof.Machine

/-! The two ends of a `BUILD` (R71, R86) -/

/-- A `BUILD` of a non-empty table writes the tree's codes, clears the counts and answers their number (R71, R87, R88). -/
structure BuildDone (s t : State) (T : Tree) : Prop where
  exec_eq : exec .build s = .next t
  ct : t.ct = codeTableOf T
  ft : t.ft = Vector.replicate Config.nsym 0
  err : t.err = s.err
  answers : Answers t 0x00 (BitVec.ofNat 32 s.ftn)
  ports : SamePorts s t

/-- A `BUILD` of an empty table only raises `E_EMPTY` (R86). -/
structure BuildRefused (s t : State) : Prop where
  exec_eq : exec .build s = .next t
  ct : t.ct = s.ct
  ft : t.ft = s.ft
  err : t.err = { s.err with empty := true }
  answers : Answers t 0x01 0
  ports : SamePorts s t

theorem BuildDone.answers_of {s t : State} {T : Tree} {n : Nat} (h : BuildDone s t T) (hn : s.ftn = n) :
    Answers t 0x00 (BitVec.ofNat 32 n) := hn ▸ h.answers

theorem exists_buildDone {s : State} {T : Tree} (hT : buildTree s.ft = some T) : ∃ t, BuildDone s t T :=
  ⟨_, (CommandEnd.build T hT).exec_eq, rfl, rfl, rfl, rfl, rfl, rfl, rfl, rfl⟩

theorem exists_buildRefused {s : State} (h : s.ftn = 0) : ∃ t, BuildRefused s t :=
  ⟨_, (CommandEnd.buildEmpty ((buildTree_eq_none s.ft).2 h)).exec_eq, rfl, rfl, rfl, rfl, rfl, rfl, rfl, rfl⟩

/-- Settles O32: a table with every count 0 has no symbol. -/
theorem buildOnAnEmptyTableRaisesEmpty : Obligations.BuildOnAnEmptyTableRaisesEmpty := by
  intro s h
  obtain ⟨t, ht⟩ := exists_buildRefused ((ftnOf_eq_zero s.ft).2 h)
  exact ⟨t, ht.exec_eq, ht.answers, ht.ft, ht.ct, ht.err, ht.ports⟩

/-- Settles O35: the tree and the response are functions of the counts. -/
theorem buildDependsOnlyOnTheCounts : Obligations.BuildDependsOnlyOnTheCounts := by
  intro s s' hft
  have hftn : s'.ftn = s.ftn := congrArg ftnOf hft.symm
  by_cases h0 : s.ftn = 0
  · obtain ⟨t, ht⟩ := exists_buildRefused h0
    obtain ⟨t', ht'⟩ := exists_buildRefused (hftn.trans h0)
    exact ⟨t, t', ht.exec_eq, ht'.exec_eq, ht.answers.trans ht'.answers.symm, by rw [ht.ft, ht'.ft, hft],
      .inr ⟨ht.ct, ht'.ct, h0⟩⟩
  · obtain ⟨T, hT⟩ := exists_buildTree h0
    obtain ⟨t, ht⟩ := exists_buildDone hT
    obtain ⟨t', ht'⟩ := exists_buildDone (s := s') (hft ▸ hT)
    exact ⟨t, t', ht.exec_eq, ht'.exec_eq, ht.answers.trans (hftn ▸ ht'.answers.symm), ht.ft.trans ht'.ft.symm,
      .inl ⟨ht.ct.trans ht'.ct.symm, h0⟩⟩

/-! The entry of a symbol after a build (R83, R87) -/

section
variable {f : FreqTable} {T : Tree} (hT : buildTree f = some T)
include hT

theorem codeTableOf_of_code {x : Sym} {c : List Bool} (hc : (x, c) ∈ T.codes) :
    tableGet (codeTableOf T) x = CtEntry.ofString c :=
  codeTableOf_of_mem T (buildTree_codes_nodup f T hT) (x, c) hc

theorem len_codeTableOf_of_code {x : Sym} {c : List Bool} (hc : (x, c) ∈ T.codes) :
    (tableGet (codeTableOf T) x).len.toNat = c.length := by
  rw [codeTableOf_of_code hT hc, CtEntry.ofString_len c (buildTree_code_length f T hT _ hc)]

theorem str_codeTableOf_of_code {x : Sym} {c : List Bool} (hc : (x, c) ∈ T.codes) :
    (tableGet (codeTableOf T) x).str = c := by
  rw [codeTableOf_of_code hT hc, CtEntry.ofString_str c (buildTree_code_length f T hT _ hc)]

/-- Every symbol present has a code (R82). -/
theorem exists_code_of_present {x : Sym} (hx : x ∈ present f) : ∃ c, (x, c) ∈ T.codes := by
  obtain ⟨p, hp, rfl⟩ := List.mem_map.1 ((buildTree_codes_syms f T hT).symm.subset hx)
  exact ⟨p.2, hp⟩

theorem present_of_code {x : Sym} {c : List Bool} (hc : (x, c) ∈ T.codes) : x ∈ present f :=
  (buildTree_codes_syms f T hT).subset (List.mem_map_of_mem hc)

theorem codeTableOf_of_absent {x : Sym} (hx : x ∉ present f) : tableGet (codeTableOf T) x = ⟨false, 0, 0⟩ :=
  codeTableOf_of_not_mem T x fun h => hx ((buildTree_codes_syms f T hT).subset h)

end

/-! Tables of a few symbols (R84, R85) -/

theorem present_perm_of_iff {f : FreqTable} {l : List Sym} (hn : l.Nodup) (h : ∀ x, tableGet f x ≠ 0 ↔ x ∈ l) :
    (present f).Perm l :=
  (List.perm_ext_iff_of_nodup (nodup_present f) hn).2 fun x => (mem_present f x).trans (h x)

/-- To find the tree of a table, list its symbols in any order and run the merge loop on their leaves. -/
theorem buildTree_of_symbols {f : FreqTable} {l : List Sym} {T : Tree} (hl : (present f).Perm l)
    (h : MergeRun (l.map fun x => .leaf x (tableGet f x).toNat) T) : buildTree f = some T :=
  buildTree_of_mergeRun (hl.map _) h

/-- Two trees alone are merged with the lesser on the bit-0 side (R72). -/
theorem mergeRun_pair {lo hi : Tree} (h : lo.key.lt hi.key = true) : MergeRun [lo, hi] (.node lo hi) :=
  .pass _ lo hi [] _ (.refl _) (by simpa using h) (by simp) (.done _)

theorem Tree.code_ne_nil {t : Tree} (h : 2 ≤ t.leaves.length) : ∀ p ∈ t.codes, p.2 ≠ [] := by
  cases t with
  | leaf s w => exact absurd h (by simp [Tree.leaves])
  | node l r =>
    intro p hp
    rcases (Tree.mem_codes_node l r p).1 hp with ⟨q, -, rfl⟩ | ⟨q, -, rfl⟩ <;> exact List.cons_ne_nil _ _

/-- Settles O33: one leaf has the empty path, and the paths of a larger tree have a branch. -/
theorem singletonGetsTheEmptyCode : Obligations.SingletonGetsTheEmptyCode := by
  refine ⟨fun s a ha => ?_, fun s h2 => ?_⟩
  · have hl : (present s.ft).Perm [a] := present_perm_of_iff (List.nodup_singleton a) (by simpa using ha)
    have hT : buildTree s.ft = some (.leaf a (tableGet s.ft a).toNat) := buildTree_of_symbols hl (.done _)
    have hn : s.ftn = 1 := hl.length_eq
    obtain ⟨t, ht⟩ := exists_buildDone hT
    refine ⟨t, ht.exec_eq, ?_, fun x hx => ?_, ht.answers_of hn⟩
    · rw [ht.ct, codeTableOf_of_code hT (c := []) (by simp [Tree.codes])]
      rfl
    · rw [ht.ct, codeTableOf_of_absent hT fun h => hx (List.mem_singleton.1 (hl.subset h))]
  · obtain ⟨T, hT⟩ := exists_buildTree (f := s.ft) (Nat.ne_zero_of_lt h2)
    obtain ⟨t, ht⟩ := exists_buildDone hT
    refine ⟨t, ht.exec_eq, fun x hx h0 => ?_⟩
    obtain ⟨c, hc⟩ := exists_code_of_present hT hx
    have hlen := len_codeTableOf_of_code hT hc
    rw [← ht.ct, h0] at hlen
    exact Tree.code_ne_nil (h2.trans_eq (buildTree_leaves_length _ T hT).symm) _ hc
      (List.eq_nil_of_length_eq_zero hlen.symm)

/-- Settles O34: the leaf with the smaller key is extracted first. -/
theorem twoSymbolsGetOneBitEach : Obligations.TwoSymbolsGetOneBitEach := by
  intro s a b hab hpresent hlt
  have hl : (present s.ft).Perm [a, b] := present_perm_of_iff (by simpa using hab) (by simpa using hpresent)
  have hkey : (Tree.leaf a (tableGet s.ft a).toNat).key.lt (Tree.leaf b (tableGet s.ft b).toNat).key = true :=
    (Key.lt_iff _ _).2 (hlt.imp_right fun ⟨hc, h⟩ => ⟨congrArg BitVec.toNat hc, h⟩)
  have hT := buildTree_of_symbols hl (mergeRun_pair hkey)
  have hn : s.ftn = 2 := hl.length_eq
  obtain ⟨t, ht⟩ := exists_buildDone hT
  refine ⟨t, ht.exec_eq, ?_, ?_, fun x hxa hxb => ?_, ht.answers_of hn⟩
  · rw [ht.ct, codeTableOf_of_code hT (c := [false]) (by simp [Tree.codes])]
    rfl
  · rw [ht.ct, codeTableOf_of_code hT (c := [true]) (by simp [Tree.codes])]
    rfl
  · rw [ht.ct, codeTableOf_of_absent hT fun h => by simpa [hxa, hxb] using hl.subset h]

/-! The effect of `BUILD` on both tables (R71) -/

/-- The example of R71: `A` and `B` are merged first, and `AB` ties with `C` and has the smaller tag. -/
theorem buildTree_of_example {f : FreqTable} (hA : tableGet f 0x41 = 1) (hB : tableGet f 0x42 = 1)
    (hC : tableGet f 0x43 = 2) (h0 : ∀ x : Sym, x ≠ 0x41 → x ≠ 0x42 → x ≠ 0x43 → tableGet f x = 0) :
    (present f).Perm [0x41, 0x42, 0x43] ∧
      buildTree f = some (.node (.node (.leaf 0x41 1) (.leaf 0x42 1)) (.leaf 0x43 2)) := by
  have hl : (present f).Perm [0x41, 0x42, 0x43] := by
    refine present_perm_of_iff (by decide) fun x => ?_
    simp only [List.mem_cons, List.not_mem_nil, or_false]
    constructor
    · intro hx
      by_contra! hout
      exact hx (h0 x hout.1 hout.2.1 hout.2.2)
    · rintro (rfl | rfl | rfl)
      · exact hA.trans_ne (by decide)
      · exact hB.trans_ne (by decide)
      · exact hC.trans_ne (by decide)
  refine ⟨hl, buildTree_of_symbols hl ?_⟩
  rw [List.map_cons, List.map_cons, List.map_singleton, hA, hB, hC]
  exact .pass _ (.leaf 0x41 1) (.leaf 0x42 1) [.leaf 0x43 2] _ (.refl _) (by decide) (by decide)
    (mergeRun_pair (by decide))

theorem exec_build_of_example {s : State} (hA : tableGet s.ft 0x41 = 1) (hB : tableGet s.ft 0x42 = 1)
    (hC : tableGet s.ft 0x43 = 2) (h0 : ∀ x : Sym, x ≠ 0x41 → x ≠ 0x42 → x ≠ 0x43 → tableGet s.ft x = 0) :
    ∃ t, exec .build s = .next t ∧ Answers t 0x00 3 ∧ tableGet t.ct 0x41 = ⟨true, 2, 0b00⟩ ∧
      tableGet t.ct 0x42 = ⟨true, 2, 0b01⟩ ∧ tableGet t.ct 0x43 = ⟨true, 1, 0b1⟩ := by
  obtain ⟨hl, hT⟩ := buildTree_of_example hA hB hC h0
  have hn : s.ftn = 3 := hl.length_eq
  obtain ⟨t, ht⟩ := exists_buildDone hT
  refine ⟨t, ht.exec_eq, ht.answers_of hn, ?_, ?_, ?_⟩
  · rw [ht.ct, codeTableOf_of_code hT (c := [false, false]) (by simp [Tree.codes])]
    rfl
  · rw [ht.ct, codeTableOf_of_code hT (c := [false, true]) (by simp [Tree.codes])]
    rfl
  · rw [ht.ct, codeTableOf_of_code hT (c := [true]) (by simp [Tree.codes])]
    rfl

/-- Settles O31: the tables of a build, the refusal of the next one, and the example of R71. -/
theorem buildReplacesTheCodeTable : Obligations.BuildReplacesTheCodeTable := by
  refine ⟨rfl, fun s h0 => ?_, fun s h0 => ?_, fun s ⟨hA, hB, hC, h0⟩ => exec_build_of_example hA hB hC h0⟩
  · obtain ⟨T, hT⟩ := exists_buildTree (f := s.ft) h0
    obtain ⟨t, ht⟩ := exists_buildDone hT
    have hempty : t.ftn = 0 := (congrArg ftnOf ht.ft).trans ftnOf_replicate
    obtain ⟨t', ht'⟩ := exists_buildRefused hempty
    have hn : s.ftn ≤ 256 := ftnOf_le s.ft
    have hleaves : T.leaves.length = s.ftn := buildTree_leaves_length s.ft T hT
    have hentry : ∀ p ∈ T.codes, (tableGet t.ct p.1).v = true ∧ (tableGet t.ct p.1).len.toNat = p.2.length ∧
        (tableGet t.ct p.1).code.toNat = strVal p.2 := fun p hp => by
      have hlen := buildTree_code_length s.ft T hT p hp
      rw [ht.ct, codeTableOf_of_code hT hp]
      exact ⟨rfl, CtEntry.ofString_len _ hlen, CtEntry.ofString_code _ hlen⟩
    obtain ⟨hbusy, hheld, hinputs, htaken⟩ := ht.ports
    refine ⟨T, t, hT, ht.exec_eq, hentry, buildTree_codes_syms s.ft T hT, fun p hp => ?_, by omega, fun x hx => ?_,
      fun x => ?_, hempty, ht.err, ht.answers, ?_, hbusy, hheld, hinputs, htaken, t', ht'.exec_eq, ht'.answers, ht'.ct, ?_⟩
    · have := T.code_length_lt p hp
      omega
    · rw [ht.ct, codeTableOf_of_absent hT hx]
    · rw [ht.ft, tableGet_replicate]
    · exact (congrArg ctnOf ht.ct).trans (ctnOf_codeTableOf s.ft T hT)
    · rw [ht'.err, ht.err]
  · obtain ⟨t, ht⟩ := exists_buildRefused h0
    exact ⟨t, ht.exec_eq, ht.answers, ht.ft, ht.ct, ht.err, ht.ports⟩

/-! The codes as strings (R90, R91) -/

/-- Settles O40: two codes part at a node of the tree, and neither is empty where there is a node. -/
theorem builtCodesArePrefixFree : Obligations.BuiltCodesArePrefixFree := by
  intro s h0
  obtain ⟨T, hT⟩ := exists_buildTree (f := s.ft) h0
  obtain ⟨t, ht⟩ := exists_buildDone hT
  have hleaves : T.leaves.length = s.ftn := buildTree_leaves_length s.ft T hT
  have hstr : ∀ a ∈ present s.ft, ∃ c, (a, c) ∈ T.codes ∧ (tableGet t.ct a).str = c := fun a ha => by
    obtain ⟨c, hc⟩ := exists_code_of_present hT ha
    exact ⟨c, hc, by rw [ht.ct, str_codeTableOf_of_code hT hc]⟩
  refine ⟨t, ht.exec_eq, fun h2 => ⟨fun a ha b hb hne => ?_, fun a ha => ?_⟩, fun h1 a ha => ?_⟩
  · obtain ⟨c, hc, hca⟩ := hstr a ha
    obtain ⟨d, hd, hdb⟩ := hstr b hb
    have hfree : ¬ c <+: d := T.codes_prefixFree _ hc _ hd hne
    rw [hca, hdb]
    exact ⟨hfree, fun e => hfree (e ▸ List.prefix_refl c)⟩
  · obtain ⟨c, hc, hca⟩ := hstr a ha
    exact hca ▸ Tree.code_ne_nil (h2.trans_eq hleaves.symm) _ hc
  · obtain ⟨c, hc, hca⟩ := hstr a ha
    have hlt : c.length < T.leaves.length := T.code_length_lt _ hc
    exact hca.trans (List.eq_nil_of_length_eq_zero (by omega))

/-- Across the last branch of a code stands another sub-tree, with codes of its own. -/
theorem Tree.exists_code_across (t : Tree) {a : Sym} {u : List Bool} {b : Bool} (h : (a, u ++ [b]) ∈ t.codes) :
    ∃ q ∈ t.codes, u ++ [!b] <+: q.2 := by
  induction t generalizing u with
  | leaf s w => simp [Tree.codes] at h
  | node l r ihl ihr =>
    simp only [Tree.mem_codes_node]
    cases u with
    | nil =>
      obtain ⟨p, hp⟩ := List.exists_mem_of_length_pos (l.codes_length ▸ l.leaves_length_pos)
      obtain ⟨q, hq⟩ := List.exists_mem_of_length_pos (r.codes_length ▸ r.leaves_length_pos)
      cases b
      · exact ⟨_, .inr ⟨q, hq, rfl⟩, by simp⟩
      · exact ⟨_, .inl ⟨p, hp, rfl⟩, by simp⟩
    | cons x u =>
      rcases (Tree.mem_codes_node l r _).1 h with ⟨p, hp, e⟩ | ⟨p, hp, e⟩ <;>
        simp only [Prod.mk.injEq, List.cons_append, List.cons.injEq] at e <;> obtain ⟨rfl, rfl, e⟩ := e
      · obtain ⟨q, hq, hpre⟩ := ihl (u := u) (e ▸ hp)
        exact ⟨_, .inl ⟨q, hq, rfl⟩, by simpa using hpre⟩
      · obtain ⟨q, hq, hpre⟩ := ihr (u := u) (e ▸ hp)
        exact ⟨_, .inr ⟨q, hq, rfl⟩, by simpa using hpre⟩

/-- The two deepest leaves are siblings (R91): no code goes on across the last branch of a longest one. -/
theorem Tree.deepest_siblings (t : Tree) (h2 : 2 ≤ t.leaves.length) :
    ∃ a b u, (a, u ++ [false]) ∈ t.codes ∧ (b, u ++ [true]) ∈ t.codes ∧ ∀ p ∈ t.codes, p.2.length ≤ u.length + 1 := by
  have hpos : t.codes.toFinset.Nonempty := by
    rw [List.toFinset_nonempty_iff, ← List.length_pos_iff, t.codes_length]
    omega
  obtain ⟨p, hp, hmax⟩ := Finset.exists_max_image t.codes.toFinset (fun p => p.2.length) hpos
  simp only [List.mem_toFinset] at hp hmax
  obtain ⟨a, c⟩ := p
  obtain ⟨u, b, rfl⟩ := (List.eq_nil_or_concat' c).resolve_left (Tree.code_ne_nil h2 _ hp)
  simp only [List.length_append, List.length_singleton] at hmax
  obtain ⟨q, hq, hpre⟩ := t.exists_code_across hp
  have heq := hpre.eq_of_length_le (by simpa using hmax q hq)
  obtain ⟨a', c'⟩ := q
  subst heq
  cases b
  · exact ⟨a, a', u, hp, hq, hmax⟩
  · exact ⟨a', a, u, hq, hp, hmax⟩

/-- Settles O41: the Kraft equality and the deepest siblings of the tree. -/
theorem builtCodesFillTheTree : Obligations.BuiltCodesFillTheTree := by
  intro s h2
  obtain ⟨T, hT⟩ := exists_buildTree (f := s.ft) (Nat.ne_zero_of_lt h2)
  obtain ⟨t, ht⟩ := exists_buildDone hT
  have hleaves : T.leaves.length = s.ftn := buildTree_leaves_length s.ft T hT
  refine ⟨t, ht.exec_eq, ht.ct ▸ kraftSum_codeTableOf s.ft T hT, fun x hx => ?_, ?_⟩
  · obtain ⟨c, hc⟩ := exists_code_of_present hT hx
    have hlt : c.length < T.leaves.length := T.code_length_lt _ hc
    have hpos : 0 < c.length := List.length_pos_iff.2 (Tree.code_ne_nil (h2.trans_eq hleaves.symm) _ hc)
    rw [ht.ct, len_codeTableOf_of_code hT hc]
    omega
  · obtain ⟨a, b, u, ha, hb, hmax⟩ := T.deepest_siblings (h2.trans_eq hleaves.symm)
    refine ⟨a, present_of_code hT ha, b, present_of_code hT hb, u, ?_, ?_, fun x hx => ?_⟩
    · rw [ht.ct, str_codeTableOf_of_code hT ha]
    · rw [ht.ct, str_codeTableOf_of_code hT hb]
    · obtain ⟨c, hc⟩ := exists_code_of_present hT hx
      rw [ht.ct, len_codeTableOf_of_code hT hc]
      exact hmax _ hc

end Sys2Proof.Machine
end

section
/-! The total length of a build's code (R92, R93): it is the weight of the internal nodes, and no assignment of codes none
of which begins another has less. -/

namespace Sys2Proof.Machine

/-! The weighted length of a tree's codes (R93) -/

/-- The leaves of the tree carry the weights of `g`. -/
def Tree.WeighedBy (g : Sym → Nat) (t : Tree) : Prop := ∀ p ∈ t.leaves, p.2 = g p.1

theorem Tree.weighedBy_node (g : Sym → Nat) (l r : Tree) :
    (Tree.node l r).WeighedBy g ↔ l.WeighedBy g ∧ r.WeighedBy g := by
  simp only [Tree.WeighedBy, Tree.leaves, List.forall_mem_append]

theorem Tree.sum_codes_eq_weight {g : Sym → Nat} {t : Tree} (h : t.WeighedBy g) :
    (t.codes.map (fun p => g p.1)).sum = t.weight := by
  have hcodes : t.codes.map (fun p => g p.1) = (t.codes.map Prod.fst).map g := by rw [List.map_map]; rfl
  rw [hcodes, Tree.codes_syms, List.map_map, Tree.weight_eq_sum]
  exact congrArg List.sum (List.map_congr_left fun p hp => (h p hp).symm)

/-- Each internal node counts its leaves once more: one bit each (R93). -/
theorem Tree.sum_lengths_eq_internalWeight {g : Sym → Nat} {t : Tree} (h : t.WeighedBy g) :
    (t.codes.map (fun p => g p.1 * p.2.length)).sum = t.internalWeight := by
  induction t with
  | leaf s w => simp [Tree.codes, Tree.internalWeight]
  | node l r ihl ihr =>
    obtain ⟨hl, hr⟩ := (Tree.weighedBy_node g l r).1 h
    simp only [Tree.codes, List.map_append, List.map_map, Function.comp_def, List.length_cons, Nat.mul_succ,
      List.sum_append, List.sum_map_add, ihl hl, ihr hr, Tree.sum_codes_eq_weight hl, Tree.sum_codes_eq_weight hr,
      Tree.internalWeight, Tree.weight]
    omega

theorem buildTree_weighedBy {f : FreqTable} {T : Tree} (hT : buildTree f = some T) :
    T.WeighedBy fun x => (tableGet f x).toNat := by
  intro p hp
  obtain ⟨x, -, rfl⟩ := List.mem_map.1 ((buildTree_leaves_perm hT).subset hp)
  rfl

theorem weightedLength_codeTableOf {f : FreqTable} {T : Tree} (hT : buildTree f = some T) :
    weightedLength f (codeTableOf T) = T.internalWeight := by
  rw [weightedLength, ← ((buildTree_codes_syms f T hT).map _).sum_eq, List.map_map,
    ← Tree.sum_lengths_eq_internalWeight (buildTree_weighedBy hT)]
  refine congrArg List.sum (List.map_congr_left fun p hp => ?_)
  rw [Function.comp_apply, len_codeTableOf_of_code hT hp]

/-- A sum over the characters of a text with the counts of a table, symbol by symbol (R93). -/
theorem sum_text_eq_sum_counts {f : FreqTable} {text : List Sym} (h : ∀ x, text.count x = (tableGet f x).toNat)
    (g : Sym → Nat) : (text.map g).sum = ((present f).map (fun x => (tableGet f x).toNat * g x)).sum := by
  have hsyms : text.toFinset = (present f).toFinset := Finset.ext fun x => by
    rw [List.mem_toFinset, List.mem_toFinset, mem_present, ← List.count_pos_iff, h, Nat.pos_iff_ne_zero]
    exact not_congr ⟨fun e => BitVec.eq_of_toNat_eq e, congrArg BitVec.toNat⟩
  rw [Finset.sum_list_map_count, hsyms, List.sum_toFinset _ (nodup_present f)]
  simp only [h, smul_eq_mul]

/-- Settles O43: each internal node counts its leaves once more, and a character emits its code. -/
theorem totalLengthIsConserved : Obligations.TotalLengthIsConserved := by
  intro s T hT
  obtain ⟨t, ht⟩ := exists_buildDone hT
  refine ⟨t, ht.exec_eq, ht.ct ▸ weightedLength_codeTableOf hT, fun text htext => ?_⟩
  rw [weightedLength, ← sum_text_eq_sum_counts htext, emittedBits, List.length_flatMap]
  simp only [CtEntry.str, strOf_length]

/-! The Kraft sum of a list of lengths -/

/-- The Kraft sum of some lengths, in units of `2^(-K)`. -/
def kraftUnits (K : Nat) (l : List Nat) : Nat := (l.map (fun n => 2 ^ (K - n))).sum

theorem kraftUnits_cons (K n : Nat) (l : List Nat) : kraftUnits K (n :: l) = 2 ^ (K - n) + kraftUnits K l := by
  simp [kraftUnits]

theorem kraftUnits_perm (K : Nat) {l l' : List Nat} (h : l.Perm l') : kraftUnits K l = kraftUnits K l' :=
  (h.map _).sum_eq

/-- Two siblings' units are their parent's. -/
theorem kraftUnits_siblings {K m : Nat} (hm : m + 1 ≤ K) (l : List Nat) :
    kraftUnits K ((m + 1) :: (m + 1) :: l) = kraftUnits K (m :: l) := by
  obtain ⟨d, rfl⟩ := Nat.exists_eq_add_of_le hm
  have h1 : m + 1 + d - (m + 1) = d := by omega
  have h2 : m + 1 + d - m = d + 1 := by omega
  rw [kraftUnits_cons, kraftUnits_cons, kraftUnits_cons, h1, h2, Nat.pow_succ]
  omega

/-- A length greater than all the others can be cut to any bound of these: the room they leave is a multiple of its
units. -/
theorem kraftUnits_shorten {K i j : Nat} {l : List Nat} (hl : ∀ n ∈ l, n ≤ j)
    (h : kraftUnits K (i :: l) ≤ 2 ^ K) : kraftUnits K (j :: l) ≤ 2 ^ K := by
  have hdvd : 2 ^ (K - j) ∣ kraftUnits K l := List.dvd_sum fun u hu => by
    obtain ⟨n, hn, rfl⟩ := List.mem_map.1 hu
    exact pow_dvd_pow 2 (Nat.sub_le_sub_left (hl n hn) K)
  obtain ⟨a, ha⟩ := hdvd
  obtain ⟨b, hb⟩ : 2 ^ (K - j) ∣ 2 ^ K := pow_dvd_pow 2 (Nat.sub_le K j)
  have hpos : 0 < 2 ^ (K - i) := Nat.two_pow_pos _
  rw [kraftUnits_cons, ha, hb] at h
  have hlt : a < b := Nat.lt_of_mul_lt_mul_left (a := 2 ^ (K - j)) (by omega)
  rw [kraftUnits_cons, ha, hb, Nat.add_comm, ← Nat.mul_succ]
  exact Nat.mul_le_mul_left _ hlt

/-- A set of non-empty strings none of which begins another can be decoded. -/
theorem uniquelyDecodable_of_prefixFree {S : Set (List Bool)} (hnil : [] ∉ S)
    (hfree : ∀ a ∈ S, ∀ b ∈ S, a <+: b → a = b) : InformationTheory.UniquelyDecodable S := by
  intro L₁
  induction L₁ with
  | nil =>
    intro L₂ _ h2 e
    cases L₂ with
    | nil => rfl
    | cons b L₂ =>
      have hb : b = [] := (List.append_eq_nil_iff.1 e.symm).1
      exact absurd (hb ▸ h2 b List.mem_cons_self) hnil
  | cons a L₁ ih =>
    intro L₂ h1 h2 e
    have ha := h1 a List.mem_cons_self
    cases L₂ with
    | nil => exact absurd ((List.append_eq_nil_iff.1 e).1 ▸ ha) hnil
    | cons b L₂ =>
      have hb := h2 b List.mem_cons_self
      rw [List.flatten_cons, List.flatten_cons] at e
      have hab : a = b := by
        rcases List.prefix_or_prefix_of_prefix ⟨_, e⟩ ⟨_, rfl⟩ with hp | hp
        · exact hfree a ha b hb hp
        · exact (hfree b hb a ha hp).symm
      subst hab
      rw [ih L₂ (fun w hw => h1 w (.tail _ hw)) (fun w hw => h2 w (.tail _ hw)) (List.append_cancel_left e)]

theorem kraftUnits_eq_mul_sum {K : Nat} {l : List Nat} (hK : ∀ n ∈ l, n ≤ K) :
    (kraftUnits K l : ℝ) = 2 ^ K * (l.map (fun n => (1 / 2 : ℝ) ^ n)).sum := by
  rw [kraftUnits, Nat.cast_list_sum, List.map_map, ← List.sum_map_mul_left]
  refine congrArg List.sum (List.map_congr_left fun n hn => ?_)
  rw [Function.comp_apply, Nat.cast_pow, Nat.cast_two, pow_sub₀ _ two_ne_zero (hK n hn), one_div, inv_pow]

/-- Kraft's inequality for an assignment of codes none of which begins another's (R92). -/
theorem kraftUnits_le_of_prefixFreeOn {l : List Sym} {g : Sym → List Bool} (hn : l.Nodup) (hg : PrefixFreeOn l g)
    (K : Nat) (hK : ∀ x ∈ l, (g x).length ≤ K) : kraftUnits K (l.map fun x => (g x).length) ≤ 2 ^ K := by
  by_cases hnil : ∃ x ∈ l, g x = []
  · obtain ⟨x, hx, hgx⟩ := hnil
    have honly : ∀ y ∈ l, y = x := fun y hy => by
      by_contra hne
      exact hg x hx y hy (Ne.symm hne) (hgx ▸ List.nil_prefix)
    have hl : l.Perm [x] := (List.perm_ext_iff_of_nodup hn (List.nodup_singleton x)).2 fun y =>
      ⟨fun hy => List.mem_singleton.2 (honly y hy), fun hy => List.mem_singleton.1 hy ▸ hx⟩
    simp [List.perm_singleton.1 hl, kraftUnits, hgx]
  · push Not at hnil
    have heq : ∀ a ∈ l, ∀ b ∈ l, g a <+: g b → a = b := fun a ha b hb hp => by
      by_contra hne
      exact hg a ha b hb hne hp
    have hdec : InformationTheory.UniquelyDecodable ((l.toFinset.image g : Finset (List Bool)) : Set (List Bool)) := by
      refine uniquelyDecodable_of_prefixFree (by simpa using hnil) ?_
      simp only [Finset.coe_image, Set.forall_mem_image, List.coe_toFinset, Set.mem_ofPred_eq]
      exact fun a ha b hb hp => congrArg g (heq a ha b hb hp)
    have hsum := InformationTheory.kraft_mcmillan_inequality hdec
    have hinj : Set.InjOn g l.toFinset := fun a ha b hb e =>
      heq a (by simpa using ha) b (by simpa using hb) (e ▸ List.prefix_refl (g a))
    rw [Finset.sum_image hinj,
      List.sum_toFinset _ hn, Fintype.card_bool, Nat.cast_two] at hsum
    have hreal := kraftUnits_eq_mul_sum (K := K) (l := l.map fun x => (g x).length) (by simpa using hK)
    rw [List.map_map] at hreal
    have : (kraftUnits K (l.map fun x => (g x).length) : ℝ) ≤ 2 ^ K :=
      hreal.trans_le (mul_le_of_le_one_right (by positivity) hsum)
    exact_mod_cast this

/-! The exchange argument -/

/-- The weights of some trees times the lengths assigned to them. -/
def lengthCost (a : List (Tree × Nat)) : Nat := (a.map (fun p => p.1.weight * p.2)).sum

theorem lengthCost_cons (t : Tree) (n : Nat) (a : List (Tree × Nat)) :
    lengthCost ((t, n) :: a) = t.weight * n + lengthCost a := by
  simp [lengthCost]

theorem lengthCost_perm {a a' : List (Tree × Nat)} (h : a.Perm a') : lengthCost a = lengthCost a' := (h.map _).sum_eq

/-- A tree of least weight can take the greatest length in exchange for its own, and the cost does not rise. -/
theorem exists_exchange (t : Tree) (n : Nat) (r : List (Tree × Nat)) (ht : ∀ u ∈ r.map Prod.fst, t.weight ≤ u.weight) :
    ∃ m r', r'.map Prod.fst = r.map Prod.fst ∧ (m :: r'.map Prod.snd).Perm (n :: r.map Prod.snd) ∧
      (∀ k ∈ r'.map Prod.snd, k ≤ m) ∧ lengthCost ((t, m) :: r') ≤ lengthCost ((t, n) :: r) := by
  induction r with
  | nil => exact ⟨n, [], rfl, .refl _, by simp, Nat.le_refl _⟩
  | cons p r ih =>
    obtain ⟨x, l⟩ := p
    have hx : t.weight ≤ x.weight := ht _ List.mem_cons_self
    obtain ⟨m, r', hfst, hsnd, hmax, hcost⟩ := ih fun u hu => ht u (.tail _ hu)
    simp only [lengthCost_cons] at hcost ⊢
    rcases Nat.le_total l m with hlm | hml
    · refine ⟨m, (x, l) :: r', by simp [hfst], ?_, by simpa [hlm] using hmax, ?_⟩
      · exact (List.Perm.swap _ _ _).trans ((hsnd.cons l).trans (.swap _ _ _))
      · rw [lengthCost_cons]
        omega
    · refine ⟨l, (x, m) :: r', by simp [hfst], (hsnd.cons l).trans (.swap _ _ _), ?_, ?_⟩
      · intro k hk
        rcases List.mem_cons.1 hk with rfl | hk
        · exact hml
        · exact (hmax k hk).trans hml
      · rw [lengthCost_cons]
        obtain ⟨d, rfl⟩ := Nat.exists_eq_add_of_le hml
        have := Nat.mul_le_mul_right d hx
        simp only [Nat.mul_add]
        omega

/-- The two trees of least weight can be given one length, as siblings have, and the cost does not rise (R92). -/
theorem exists_sibling_lengths {K i j : Nat} {lo hi : Tree} {r : List (Tree × Nat)}
    (hlo : ∀ u ∈ hi :: r.map Prod.fst, lo.weight ≤ u.weight) (hhi : ∀ u ∈ r.map Prod.fst, hi.weight ≤ u.weight)
    (hK : ∀ n ∈ i :: j :: r.map Prod.snd, n ≤ K) (hkraft : kraftUnits K (i :: j :: r.map Prod.snd) ≤ 2 ^ K) :
    ∃ m r', r'.map Prod.fst = r.map Prod.fst ∧ (∀ n ∈ m :: r'.map Prod.snd, n ≤ K) ∧
      kraftUnits K (m :: r'.map Prod.snd) ≤ 2 ^ K ∧
      lengthCost ((lo, m + 1) :: (hi, m + 1) :: r') ≤ lengthCost ((lo, i) :: (hi, j) :: r) := by
  obtain ⟨i', r0, hfst0, hsnd1, hmax1, hcost1⟩ := exists_exchange lo i ((hi, j) :: r) hlo
  obtain ⟨⟨hi', j1⟩, r1, rfl, hhi', hfst1⟩ := List.map_eq_cons_iff.1 hfst0
  obtain rfl : hi = hi' := hhi'.symm
  obtain ⟨j', r2, hfst2, hsnd2, hmax2, hcost2⟩ := exists_exchange hi j1 r1 (hfst1 ▸ hhi)
  have hperm : (i' :: j' :: r2.map Prod.snd).Perm (i :: j :: r.map Prod.snd) := (hsnd2.cons i').trans hsnd1
  have hj' : ∀ n ∈ j' :: r2.map Prod.snd, n ≤ j' := List.forall_mem_cons.2 ⟨Nat.le_refl _, hmax2⟩
  have hkraft' : kraftUnits K (j' :: j' :: r2.map Prod.snd) ≤ 2 ^ K :=
    kraftUnits_shorten hj' ((kraftUnits_perm K hperm).trans_le hkraft)
  have hK' : ∀ n ∈ j' :: r2.map Prod.snd, n ≤ K := fun n hn => hK n (hperm.subset (.tail _ hn))
  have hji : j' ≤ i' := hmax1 j' (hsnd2.subset List.mem_cons_self)
  have hpos : j' ≠ 0 := fun h0 => by
    have := Nat.two_pow_pos K
    rw [h0, kraftUnits_cons, kraftUnits_cons, Nat.sub_zero] at hkraft'
    omega
  obtain ⟨m, rfl⟩ := Nat.exists_eq_succ_of_ne_zero hpos
  refine ⟨m, r2, hfst2.trans hfst1, ?_, ?_, ?_⟩
  · rw [List.forall_mem_cons] at hK' ⊢
    exact ⟨Nat.le_of_succ_le hK'.1, hK'.2⟩
  · rwa [← kraftUnits_siblings (hK' _ List.mem_cons_self)]
  · have hlow := Nat.mul_le_mul_left lo.weight hji
    simp only [lengthCost_cons, Nat.succ_eq_add_one] at hcost1 hcost2 hlow ⊢
    omega

theorem Key.weight_le_of_lt {a b : Key} (h : a.lt b = true) : a.weight ≤ b.weight := by
  rw [Key.lt_iff] at h
  omega

/-- No assignment of lengths that meets Kraft's inequality costs less than the merges of a run (R92). -/
theorem MergeRun.internalWeight_le {q : List Tree} {T : Tree} (h : MergeRun q T) (K : Nat) :
    ∀ a : List (Tree × Nat), (a.map Prod.fst).Perm q → (∀ n ∈ a.map Prod.snd, n ≤ K) →
      kraftUnits K (a.map Prod.snd) ≤ 2 ^ K → T.internalWeight ≤ (q.map Tree.internalWeight).sum + lengthCost a := by
  induction h with
  | done t => simp
  | pass q lo hi rest T hp hlo hhi _ ih =>
    intro a ha hK hkraft
    obtain ⟨b, hb, hba⟩ : Relation.Comp (· = List.map Prod.fst ·) List.Perm (lo :: hi :: rest) a :=
      List.eq_map_comp_perm (Prod.fst (α := Tree) (β := Nat)) ▸ (ha.trans hp).symm
    obtain ⟨⟨lo', i⟩, b, rfl, hlo', hb⟩ := List.map_eq_cons_iff.1 hb.symm
    obtain ⟨⟨hi', j⟩, r, rfl, hhi', rfl⟩ := List.map_eq_cons_iff.1 hb
    obtain rfl : lo = lo' := hlo'.symm
    obtain rfl : hi = hi' := hhi'.symm
    have hsnd := hba.map Prod.snd
    obtain ⟨m, r', hfst, hK', hkraft', hcost⟩ := exists_sibling_lengths (K := K) (i := i) (j := j)
      (fun u hu => Key.weight_le_of_lt (hlo u hu)) (fun u hu => Key.weight_le_of_lt (hhi u hu))
      (fun n hn => hK n (hsnd.subset hn)) ((kraftUnits_perm K hsnd).trans_le hkraft)
    have hstep := ih ((.node lo hi, m) :: r') (by rw [List.map_cons, hfst]) hK' hkraft'
    rw [(hp.map Tree.internalWeight).sum_eq, ← lengthCost_perm hba]
    refine hstep.trans (le_trans ?_ (Nat.add_le_add_left hcost _))
    simp only [List.map_cons, List.sum_cons, Tree.internalWeight, Tree.weight, lengthCost_cons, Nat.add_mul,
      Nat.mul_succ]
    omega

/-- The leaves of a table with the lengths of a code assignment. -/
def assignLengths (f : FreqTable) (g : Sym → List Bool) : List (Tree × Nat) :=
  (present f).map fun x => (.leaf x (tableGet f x).toNat, (g x).length)

theorem assignLengths_fst (f : FreqTable) (g : Sym → List Bool) : (assignLengths f g).map Prod.fst = leafSet f := by
  rw [assignLengths, List.map_map]; rfl

theorem assignLengths_snd (f : FreqTable) (g : Sym → List Bool) :
    (assignLengths f g).map Prod.snd = (present f).map fun x => (g x).length := by
  rw [assignLengths, List.map_map]; rfl

theorem lengthCost_assignLengths (f : FreqTable) (g : Sym → List Bool) :
    lengthCost (assignLengths f g) = ((present f).map fun x => (tableGet f x).toNat * (g x).length).sum := by
  rw [lengthCost, assignLengths, List.map_map]; rfl

theorem leafSet_internalWeight (f : FreqTable) : ((leafSet f).map Tree.internalWeight).sum = 0 := by
  simp [leafSet, Tree.internalWeight, Function.comp_def]

/-- Settles O42: such an assignment meets Kraft's inequality, and so costs no less than the merges of the tree. -/
theorem builtCodesAreOptimal : Obligations.BuiltCodesAreOptimal := by
  intro s h0
  obtain ⟨T, hT⟩ := exists_buildTree (f := s.ft) h0
  obtain ⟨t, ht⟩ := exists_buildDone hT
  have hlength : weightedLength s.ft t.ct = T.internalWeight := ht.ct ▸ weightedLength_codeTableOf hT
  refine ⟨t, ht.exec_eq, fun g hg => ?_, fun h1 => ?_⟩
  · have hrun : MergeRun (leafSet s.ft) T := (anyCorrectQueueGivesTheTree s.ft T).2 hT
    obtain ⟨K, hK⟩ : ∃ K, ∀ x ∈ present s.ft, (g x).length ≤ K :=
      ⟨((present s.ft).map fun x => (g x).length).sum, fun x hx => List.le_sum_of_mem (List.mem_map_of_mem hx)⟩
    have hle := hrun.internalWeight_le K (assignLengths s.ft g) (.of_eq (assignLengths_fst s.ft g))
      (by rw [assignLengths_snd]; exact List.forall_mem_map.2 hK)
      (by rw [assignLengths_snd]; exact kraftUnits_le_of_prefixFreeOn (nodup_present s.ft) hg K hK)
    rwa [leafSet_internalWeight, Nat.zero_add, lengthCost_assignLengths, ← hlength] at hle
  · have hleaves : T.leaves.length = 1 := (buildTree_leaves_length s.ft T hT).trans h1
    rw [hlength]
    cases T with
    | leaf a c => rfl
    | node l r =>
      have hl := l.leaves_length_pos
      have hr := r.leaves_length_pos
      rw [Tree.leaves, List.length_append] at hleaves
      omega

end Sys2Proof.Machine
end

section
/-! The heap order (R76, R77): each loop mends the order at one position at a time, and the top has the least key. -/

namespace Sys2Proof.Machine

/-- The key of the node at a heap position. -/
def Working.keyAt (w : Working) (p : Nat) : Key := w.keyOf (w.heapAt p)

/-- The key at position `r` is not below its parent position's (R77). -/
def InOrder (κ : Nat → Key) (r : Nat) : Prop := (κ r).lt (κ ((r - 1) / 2)) = false

/-- Two heap positions exchanged, as keys. -/
def ExchangedAt (p q : Nat) (κ κ' : Nat → Key) : Prop :=
  κ' p = κ q ∧ κ' q = κ p ∧ ∀ r, r ≠ p → r ≠ q → κ' r = κ r

theorem keyAt_swapHeap (w : Working) {p q : Nat} (hp : p < 256) (hq : q < 256) :
    ExchangedAt p q w.keyAt (w.swapHeap p q).keyAt := by
  have hkey (r : Nat) : (w.swapHeap p q).keyAt r = w.keyAt (Equiv.swap p q r) :=
    congrArg w.keyOf (w.heapAt_swapHeap p q r hp hq)
  refine ⟨?_, ?_, fun r hrp hrq => ?_⟩
  · rw [hkey, Equiv.swap_apply_left]
  · rw [hkey, Equiv.swap_apply_right]
  · rw [hkey, Equiv.swap_apply_of_ne_of_ne hrp hrq]

/-! Upward (R76) -/

/-- The heap order but for the entry on its way up at `p`: its children are in order with its parent. -/
structure OrderedButUp (κ : Nat → Key) (n p : Nat) : Prop where
  others : ∀ r, 1 ≤ r → r < n → r ≠ p → InOrder κ r
  children : ∀ r, 1 ≤ r → r < n → (r - 1) / 2 = p → 1 ≤ p → (κ r).lt (κ ((p - 1) / 2)) = false

/-- An entry below its parent moves up. -/
theorem OrderedButUp.swap {κ κ' : Nat → Key} {n p q : Nat} (h : OrderedButUp κ n p) (hp : 1 ≤ p) (hn : p < n)
    (hq : (p - 1) / 2 = q) (hlt : (κ p).lt (κ q) = true) (hx : ExchangedAt p q κ κ') : OrderedButUp κ' n q := by
  obtain ⟨hxp, hxq, hxr⟩ := hx
  have hqp : q < p := by omega
  have hsibling : ∀ r, 1 ≤ r → r < n → r ≠ p → (r - 1) / 2 = q → (κ r).lt (κ q) = false := fun r h1 h2 hrp hrq =>
    hrq ▸ h.others r h1 h2 hrp
  refine ⟨fun r h1 h2 hr => ?_, fun r h1 h2 hrq hq1 => ?_⟩
  · rw [InOrder]
    by_cases hrp : r = p
    · rw [hrp, hq, hxp, hxq]
      exact Key.lt_asymm hlt
    rw [hxr r hrp hr]
    by_cases hpar : (r - 1) / 2 = p
    · rw [hpar, hxp]
      exact hq ▸ h.children r h1 h2 hpar hp
    by_cases hpar' : (r - 1) / 2 = q
    · rw [hpar', hxq]
      exact Key.not_lt_trans (Key.lt_asymm hlt) (hsibling r h1 h2 hrp hpar')
    · rw [hxr _ hpar hpar']
      exact h.others r h1 h2 hrp
  · have hqorder : (κ q).lt (κ ((q - 1) / 2)) = false := h.others q hq1 (by omega) (by omega)
    rw [hxr ((q - 1) / 2) (by omega) (by omega)]
    by_cases hrp : r = p
    · rwa [hrp, hxp]
    · rw [hxr r hrp (by omega)]
      exact Key.not_lt_trans hqorder (hsibling r h1 h2 hrp hrq)

theorem heapInv_siftUp (n p : Nat) (w : Working) (hn : p ≤ n) (hp : p < w.hsize.toNat) (hs : w.hsize.toNat ≤ 256)
    (h : OrderedButUp w.keyAt w.hsize.toNat p) : HeapInv (siftUp n p w) := by
  induction n generalizing p w with
  | zero => exact fun r h1 h2 => h.others r h1 h2 (by omega)
  | succ n ih =>
    unfold siftUp
    split_ifs with h0 hlt
    · exact ih _ (w.swapHeap p ((p - 1) / 2)) (by omega) (show (p - 1) / 2 < w.hsize.toNat by omega) hs
        (h.swap h0 hp rfl hlt (keyAt_swapHeap w (by omega) (by omega)))
    · intro r h1 h2
      by_cases hr : r = p
      · exact hr ▸ Bool.eq_false_iff.2 hlt
      · exact h.others r h1 h2 hr
    · exact fun r h1 h2 => h.others r h1 h2 (by omega)

theorem heapInv_heapPush (i : NIdx) (w : Working) (h : HeapInv w) (hs : w.hsize.toNat < 256) :
    HeapInv (heapPush i w) := by
  have hsize : (w.hsize + 1).toNat = w.hsize.toNat + 1 := NIdx.toNat_succ_of_lt _ (by omega)
  have hkey (r : Nat) (hr : r ≠ w.hsize.toNat) :
      Working.keyAt { w.setHeap w.hsize.toNat i with hsize := w.hsize + 1 } r = w.keyAt r :=
    congrArg w.keyOf ((w.heapAt_setHeap _ r i).trans (if_neg fun e => hr e.1))
  refine heapInv_siftUp _ _ { w.setHeap w.hsize.toNat i with hsize := w.hsize + 1 } (Nat.le_refl _)
    (hsize ▸ Nat.lt_succ_self _) (hsize ▸ hs) ⟨fun r h1 h2 hr => ?_, fun r h1 h2 hr => ?_⟩
  · have hr' : r < w.hsize.toNat := by
      have : r < w.hsize.toNat + 1 := hsize ▸ h2
      omega
    rw [InOrder, hkey r hr, hkey _ (by omega)]
    exact h r h1 hr'
  · have : r < w.hsize.toNat + 1 := hsize ▸ h2
    omega

/-- Settles O46: the new entry moves up until it is in order. -/
theorem heapPushKeepsTheOrder : Obligations.HeapPushKeepsTheOrder := by
  intro i w h hs
  obtain ⟨hnode, hsize, -, -⟩ := heapPush_frame i w
  exact ⟨heapInv_heapPush i w h hs, live_heapPush i w hs, hsize ▸ NIdx.toNat_succ_of_lt _ (by omega), hnode⟩

/-! Downward (R77) -/

/-- The heap order but for the entry on its way down at `p`: its children are in order with its parent. -/
structure OrderedButDown (κ : Nat → Key) (n p : Nat) : Prop where
  others : ∀ r, 1 ≤ r → r < n → (r - 1) / 2 ≠ p → InOrder κ r
  children : ∀ r, 1 ≤ r → r < n → (r - 1) / 2 = p → 1 ≤ p → (κ r).lt (κ ((p - 1) / 2)) = false

/-- One comparison of a pass of `heap_pop`: the position of the lesser key, `c` unless `d` is in the heap and less. -/
def Working.lesserAt (w : Working) (c d : Nat) : Nat := if d < w.hsize.toNat ∧ w.heapLt d c then d else c

theorem siftChoice_eq_lesserAt (p : Nat) (w : Working) :
    siftChoice p w = w.lesserAt (w.lesserAt p (2 * p + 1)) (2 * p + 2) := rfl

theorem Working.lesserAt_eq_or (w : Working) (c d : Nat) : w.lesserAt c d = c ∨ w.lesserAt c d = d := by
  unfold Working.lesserAt
  split_ifs
  · exact .inr rfl
  · exact .inl rfl

theorem Working.lesserAt_least (w : Working) (c d : Nat) : (w.keyAt c).lt (w.keyAt (w.lesserAt c d)) = false ∧
    (d < w.hsize.toNat → (w.keyAt d).lt (w.keyAt (w.lesserAt c d)) = false) := by
  unfold Working.lesserAt
  split_ifs with h
  · exact ⟨Key.lt_asymm h.2, fun _ => Key.lt_irrefl _⟩
  · exact ⟨Key.lt_irrefl _, fun hd => Bool.eq_false_iff.2 fun hlt => h ⟨hd, hlt⟩⟩

/-- The position chosen is `p` or a child of it. -/
theorem siftChoice_eq (p : Nat) (w : Working) :
    siftChoice p w = p ∨ siftChoice p w = 2 * p + 1 ∨ siftChoice p w = 2 * p + 2 := by
  rw [siftChoice_eq_lesserAt]
  rcases w.lesserAt_eq_or (w.lesserAt p (2 * p + 1)) (2 * p + 2) with e | e <;> rw [e]
  · exact (w.lesserAt_eq_or p (2 * p + 1)).imp_right .inl
  · exact .inr (.inr rfl)

/-- No key at `p` or its children is below the one chosen. -/
theorem siftChoice_least (p : Nat) (w : Working) : (w.keyAt p).lt (w.keyAt (siftChoice p w)) = false ∧
    ∀ r, 1 ≤ r → r < w.hsize.toNat → (r - 1) / 2 = p → (w.keyAt r).lt (w.keyAt (siftChoice p w)) = false := by
  obtain ⟨hp, hleft⟩ := w.lesserAt_least p (2 * p + 1)
  obtain ⟨hm, hright⟩ := w.lesserAt_least (w.lesserAt p (2 * p + 1)) (2 * p + 2)
  refine ⟨Key.not_lt_trans hm hp, fun r h1 h2 hr => ?_⟩
  rcases (by omega : r = 2 * p + 1 ∨ r = 2 * p + 2) with rfl | rfl
  · exact Key.not_lt_trans hm (hleft h2)
  · exact hright h2

/-- The lesser child moves up. -/
theorem OrderedButDown.swap {κ κ' : Nat → Key} {n p m : Nat} (h : OrderedButDown κ n p) (hm : 1 ≤ m) (hn : m < n)
    (hp : (m - 1) / 2 = p) (hleast : (κ p).lt (κ m) = false)
    (hleast' : ∀ r, 1 ≤ r → r < n → (r - 1) / 2 = p → (κ r).lt (κ m) = false) (hx : ExchangedAt p m κ κ') :
    OrderedButDown κ' n m := by
  obtain ⟨hxp, hxm, hxr⟩ := hx
  refine ⟨fun r h1 h2 hr => ?_, fun r h1 h2 hrm _ => ?_⟩
  · rw [InOrder]
    by_cases hpar : (r - 1) / 2 = p
    · rw [hpar, hxp]
      by_cases hrm : r = m
      · rwa [hrm, hxm]
      · rw [hxr r (by omega) hrm]
        exact hleast' r h1 h2 hpar
    rw [hxr _ hpar hr]
    by_cases hrp : r = p
    · rw [hrp, hxp]
      exact h.children m hm hn hp (hrp ▸ h1)
    · rw [hxr r hrp fun e => hpar (e ▸ hp)]
      exact h.others r h1 h2 hpar
  · rw [hp, hxp, hxr r (by omega) (by omega), ← hrm]
    exact h.others r h1 h2 (by omega)

theorem heapInv_siftDown (n p : Nat) (w : Working) (hn : w.hsize.toNat ≤ n + p) (hp : p < w.hsize.toNat)
    (hs : w.hsize.toNat ≤ 256) (h : OrderedButDown w.keyAt w.hsize.toNat p) : HeapInv (siftDown n p w) := by
  induction n generalizing p w with
  | zero => omega
  | succ n ih =>
    have hm := siftChoice_lt p w hp
    have hchoice := siftChoice_eq p w
    obtain ⟨hleast, hleast'⟩ := siftChoice_least p w
    unfold siftDown
    split_ifs with hstop
    · intro r h1 h2
      by_cases hr : (r - 1) / 2 = p
      · have := hleast' r h1 h2 hr
        rwa [hstop, ← hr] at this
      · exact h.others r h1 h2 hr
    · exact ih _ (w.swapHeap p (siftChoice p w)) (show w.hsize.toNat ≤ _ by omega) hm hs
        (h.swap (by omega) hm (by omega) hleast hleast' (keyAt_swapHeap w (by omega) (by omega)))

theorem heapInv_heapPop (w : Working) (h : HeapInv w) (h1 : 1 ≤ w.hsize.toNat) (hs : w.hsize.toNat ≤ 256) :
    HeapInv (heapPop w).2 := by
  have hsize : (w.hsize - 1).toNat = w.hsize.toNat - 1 := NIdx.toNat_pred_of_pos _ h1
  rw [heapPop]
  dsimp only
  split_ifs with hpos
  · refine heapInv_siftDown _ 0 (Working.setHeap { w with hsize := w.hsize - 1 } 0 _) (Nat.le_refl _) hpos
      (hsize.trans_le (by omega)) ⟨fun r hr1 hr2 hr => ?_, fun r _ _ _ h0 => absurd h0 (by decide)⟩
    have hr2' : r < w.hsize.toNat := by
      have : r < (w.hsize - 1).toNat := hr2
      omega
    have hkey (q : Nat) (hq : q ≠ 0) (i : NIdx) :
        Working.keyAt (Working.setHeap { w with hsize := w.hsize - 1 } 0 i) q = w.keyAt q :=
      congrArg w.keyOf ((w.heapAt_setHeap 0 q i).trans (if_neg fun e => hq e.1))
    rw [InOrder, hkey r (by omega), hkey _ hr]
    exact h r hr1 hr2'
  · exact fun r hr1 hr2 => h r hr1 (Nat.lt_of_lt_of_le hr2 (hsize.trans_le (by omega)))

/-- No key is below the top's (R77). -/
theorem HeapInv.top_least {w : Working} (h : HeapInv w) (p : Nat) (hp : p < w.hsize.toNat) :
    (w.keyAt p).lt (w.keyAt 0) = false := by
  induction p using Nat.strong_induction_on with
  | _ p ih =>
    rcases Nat.eq_zero_or_pos p with rfl | hpos
    · exact Key.lt_irrefl _
    · exact Key.not_lt_trans (ih ((p - 1) / 2) (by omega) (by omega)) (h p hpos hp)

theorem HeapInv.top_least_live {w : Working} (h : HeapInv w) :
    ∀ j ∈ w.live, (w.keyOf j).lt (w.keyOf (w.heapAt 0)) = false := by
  intro j hj
  obtain ⟨p, hp, rfl⟩ := List.mem_map.1 hj
  exact h.top_least p (List.mem_range.1 hp)

/-- Settles O47: the last entry moves down from the top until it is in order, and the top had the least key. -/
theorem heapPopTakesTheLeast : Obligations.HeapPopTakesTheLeast := by
  intro w h h1 hs
  obtain ⟨hnode, hsize, -, -⟩ := heapPop_frame w
  exact ⟨rfl, h.top_least_live, heapInv_heapPop w h h1 hs, live_heapPop w h1 hs, hsize ▸ NIdx.toNat_pred_of_pos _ h1,
    hnode⟩

end Sys2Proof.Machine
end

section
/-! The node store of a build in progress (R73, R78, R79): what SCAN and each pass of MERGE write, said once, and the
numbering of the nodes that follows. -/

namespace Sys2Proof.Machine

/-! The fields of a node that a later merge leaves alone (R78) -/

/-- A node without its link to its parent. -/
def Node.core (n : Node) : Node := { n with parent := 0, pbit := false }

@[simp] theorem Node.core_w (n : Node) : n.core.w = n.w := rfl
@[simp] theorem Node.core_tag (n : Node) : n.core.tag = n.tag := rfl
@[simp] theorem Node.core_leaf (n : Node) : n.core.leaf = n.leaf := rfl
@[simp] theorem Node.core_sym (n : Node) : n.core.sym = n.sym := rfl
@[simp] theorem Node.core_left (n : Node) : n.core.left = n.left := rfl
@[simp] theorem Node.core_right (n : Node) : n.core.right = n.right := rfl

/-- The leaf SCAN makes for a symbol (R73). -/
def Node.leafCore (x : Sym) (c : Count) : Node := ⟨c.zeroExtend Config.wgtW, x, true, x, 0, 0, 0, false⟩

/-- The node MERGE makes above two others (R78). -/
def Working.joinCore (w : Working) (lo hi : NIdx) : Node :=
  ⟨(w.nodeAt lo).w + (w.nodeAt hi).w, minSym (w.nodeAt lo).tag (w.nodeAt hi).tag, false, 0, lo, hi, 0, false⟩

theorem keyOf_congr {w u : Working} {i : NIdx} (h : (u.nodeAt i).core = (w.nodeAt i).core) : u.keyOf i = w.keyOf i := by
  rw [Working.keyOf, Working.keyOf, ← Node.core_w, ← Node.core_tag, h, Node.core_w, Node.core_tag]

/-- The heap order depends on the heap and the keys of its entries alone. -/
theorem heapInv_congr {w u : Working} (hheap : u.heap = w.heap) (hsize : u.hsize = w.hsize)
    (hkey : ∀ i ∈ w.live, u.keyOf i = w.keyOf i) (h : HeapInv w) : HeapInv u := by
  have hat (r : Nat) : u.heapAt r = w.heapAt r := by rw [Working.heapAt, Working.heapAt, hheap]
  have hkeyAt : ∀ r < w.hsize.toNat, u.keyAt r = w.keyAt r := fun r hr => by
    rw [Working.keyAt, hat]
    exact hkey _ (List.mem_map_of_mem (List.mem_range.2 hr))
  intro r h1 h2
  rw [hsize] at h2
  show (u.keyAt r).lt (u.keyAt ((r - 1) / 2)) = false
  rw [hkeyAt r h2, hkeyAt _ (by omega)]
  exact h r h1 h2

theorem getElem?_setNode_of_ne (w : Working) (i : NIdx) (n : Node) {m : Nat} (h : i.toNat ≠ m) :
    (w.setNode i n).node[m]? = w.node[m]? := by
  simp [Working.setNode, h]

theorem NIdx.ne_of_toNat_lt {i j : NIdx} (h : i.toNat < j.toNat) : i ≠ j := fun e => Nat.lt_irrefl _ (e ▸ h)

theorem NIdx.toNat_lt_of_le_of_ne {i j : NIdx} (h : i.toNat < j.toNat + 1) (hne : i ≠ j) : i.toNat < j.toNat :=
  Nat.lt_of_le_of_ne (Nat.le_of_lt_succ h) fun e => hne (BitVec.eq_of_toNat_eq e)

theorem NIdx.ofNat_toNat (i : NIdx) : BitVec.ofNat 9 i.toNat = i := BitVec.eq_of_toNat_eq (Nat.mod_eq_of_lt i.isLt)

theorem NIdx.toNat_ofNat_of_lt {j : Nat} (h : j < 512) : (BitVec.ofNat 9 j).toNat = j := Nat.mod_eq_of_lt h

theorem length_live (w : Working) : w.live.length = w.hsize.toNat := by simp [Working.live]

/-! SCAN (R73) -/

/-- The stores after SCAN has met the symbols of `l`; the entries above are as in `w₀`. -/
structure ScanInv (w₀ : Working) (l : List (Sym × Count)) (w : Working) : Prop where
  forest : Forest w
  order : HeapInv w
  hsize : w.hsize.toNat = l.length
  nnext : w.nnext.toNat = l.length
  leaves : ∀ j p, l[j]? = some p → (w.nodeAt (BitVec.ofNat 9 j)).core = Node.leafCore p.1 p.2
  fresh : ∀ m, l.length ≤ m → w.node[m]? = w₀.node[m]?

/-- The node SCAN writes for a symbol: its link to a parent is what stood there (log entry 16). -/
def Working.leafNode (w : Working) (x : Sym) (c : Count) : Node :=
  { w.nodeAt w.nnext with w := c.zeroExtend Config.wgtW, tag := x, leaf := true, sym := x, left := 0, right := 0 }

theorem scanLeaf_eq (x : Sym) (c : Count) (w : Working) : scanLeaf x c w =
    { heapPush w.nnext (w.setNode w.nnext (w.leafNode x c)) with nnext := w.nnext + 1 } := rfl

theorem scanLeaf_node (x : Sym) (c : Count) (w : Working) :
    (scanLeaf x c w).node = (w.setNode w.nnext (w.leafNode x c)).node := (heapPush_frame w.nnext _).1

theorem scanLeaf_core (x : Sym) (c : Count) (w : Working) (hn : w.nnext.toNat < 511) (i : NIdx) :
    ((scanLeaf x c w).nodeAt i).core = if i = w.nnext then Node.leafCore x c else (w.nodeAt i).core := by
  have hlt : w.nnext.toNat < Config.nnode := hn
  rw [nodeAt_congr (scanLeaf_node x c w), Working.nodeAt_setNode]
  simp only [hlt, and_true]
  split_ifs <;> rfl

theorem heapInv_scanLeaf (x : Sym) (c : Count) (w : Working) (hf : Forest w) (horder : HeapInv w)
    (hs : w.hsize.toNat < 256) : HeapInv (scanLeaf x c w) := by
  rw [scanLeaf_eq]
  refine heapInv_heapPush w.nnext (w.setNode w.nnext _)
    (heapInv_congr (w := w) rfl rfl (fun i hi => keyOf_congr ?_) horder) hs
  rw [Working.nodeAt_setNode, if_neg fun e => NIdx.ne_of_toNat_lt (hf.lt i hi) e.1]

theorem ScanInv.scanLeaf {w₀ w : Working} {l : List (Sym × Count)} (h : ScanInv w₀ l w) (x : Sym) (c : Count)
    (hl : l.length < 256) : ScanInv w₀ (l ++ [(x, c)]) (scanLeaf x c w) := by
  obtain ⟨hf, horder, hs, hn, hleaves, hfresh⟩ := h
  obtain ⟨hsize, hnext, -⟩ := scanLeaf_frame x c w
  have hcore := scanLeaf_core x c w (by omega)
  refine ⟨forest_scanLeaf x c w hf (by omega) (by omega), heapInv_scanLeaf x c w hf horder (by omega), ?_, ?_,
    fun j p hj => ?_, fun m hm => ?_⟩
  · rw [hsize, NIdx.toNat_succ_of_lt _ (by omega), hs, List.length_append, List.length_singleton]
  · rw [hnext, NIdx.toNat_succ_of_lt _ (by omega), hn, List.length_append, List.length_singleton]
  · rw [hcore]
    rcases Nat.lt_or_ge j l.length with hjl | hjl
    · rw [List.getElem?_append_left hjl] at hj
      rw [if_neg (NIdx.ne_of_toNat_lt (by rw [NIdx.toNat_ofNat_of_lt (by omega)]; omega))]
      exact hleaves j p hj
    · rw [List.getElem?_append_right hjl, List.getElem?_singleton] at hj
      split_ifs at hj with h0
      have hj' : j = w.nnext.toNat := by omega
      cases hj
      rw [if_pos (by rw [hj', NIdx.ofNat_toNat])]
  · rw [List.length_append, List.length_singleton] at hm
    rw [scanLeaf_node, getElem?_setNode_of_ne w _ _ (by omega)]
    exact hfresh m (by omega)

theorem ScanInv.foldl {w₀ : Working} (l l' : List (Sym × Count)) (w : Working) (h : ScanInv w₀ l w)
    (hl : l.length + l'.length ≤ 256) :
    ScanInv w₀ (l ++ l') (l'.foldl (fun w p => Sys2Proof.Machine.scanLeaf p.1 p.2 w) w) := by
  induction l' generalizing l w with
  | nil => rwa [List.append_nil]
  | cons p l' ih =>
    rw [List.length_cons] at hl
    have := ih (l ++ [p]) _ (h.scanLeaf p.1 p.2 (by omega)) (by rw [List.length_append, List.length_singleton]; omega)
    rwa [List.append_assoc] at this

/-- The symbols SCAN meets, with their counts. -/
theorem entries_filter_eq (f : FreqTable) :
    (entries f).filter (fun p => decide (p.2 ≠ 0)) = (present f).map (fun x => (x, tableGet f x)) := by
  rw [present, symsWhere_eq_filter, entries_eq_map, List.filter_map]
  rfl

theorem scanInv_scanPhase (f : FreqTable) (w : Working) :
    ScanInv w ((present f).map fun x => (x, tableGet f x)) (scanPhase f w) := by
  have h0 : ScanInv w [] { w with hsize := 0, nnext := 0 } :=
    ⟨⟨List.nodup_nil, fun _ h => (nomatch h), fun h => absurd rfl h, fun _ h => absurd h (Nat.not_lt_zero _)⟩,
      fun _ _ h => absurd h (Nat.not_lt_zero _), rfl, rfl, fun _ _ h => (nomatch h), fun _ _ => rfl⟩
  rw [scanPhase_eq_foldl, entries_filter_eq]
  exact h0.foldl [] _ _ (by rw [List.length_nil, Nat.zero_add, List.length_map]; exact ftnOf_le f)

/-! One pass of MERGE (R73, R78) -/

/-- What one pass of MERGE does: the two roots of least key leave the heap, and the new node above them enters it. -/
structure MergeStep (w : Working) (lo hi : NIdx) (rest : List NIdx) (w' : Working) : Prop where
  live : w.live.Perm (lo :: hi :: rest)
  live' : w'.live.Perm (w.nnext :: rest)
  least : ∀ i ∈ hi :: rest, (w.keyOf i).lt (w.keyOf lo) = false
  least' : ∀ i ∈ rest, (w.keyOf i).lt (w.keyOf hi) = false
  order : HeapInv w'
  core : ∀ i, (w'.nodeAt i).core = if i = w.nnext then w.joinCore lo hi else (w.nodeAt i).core
  parent : ∀ i, i.toNat < w.nnext.toNat →
    (w'.nodeAt i).parent = if i = lo ∨ i = hi then w.nnext else (w.nodeAt i).parent
  pbit : ∀ i, i.toNat < w.nnext.toNat →
    (w'.nodeAt i).pbit = if i = lo then false else if i = hi then true else (w.nodeAt i).pbit
  fresh : ∀ m, w.nnext.toNat < m → w'.node[m]? = w.node[m]?

theorem join_core (w : Working) (lo hi : NIdx) (hlo : lo.toNat < w.nnext.toNat) (hhi : hi.toNat < w.nnext.toNat)
    (hn : w.nnext.toNat < 511) (i : NIdx) :
    ((w.join lo hi).nodeAt i).core = if i = w.nnext then w.joinCore lo hi else (w.nodeAt i).core := by
  have h1 : w.nnext.toNat < Config.nnode := hn
  have h2 : lo ≠ w.nnext := NIdx.ne_of_toNat_lt hlo
  have h3 : hi ≠ w.nnext := NIdx.ne_of_toNat_lt hhi
  simp only [Working.join, Working.nodeAt_setNode, h1, and_true]
  split_ifs <;> simp_all [Node.core, Working.joinCore]

theorem join_fresh (w : Working) (lo hi : NIdx) (hlo : lo.toNat < w.nnext.toNat) (hhi : hi.toNat < w.nnext.toNat)
    {m : Nat} (hm : w.nnext.toNat < m) : (w.join lo hi).node[m]? = w.node[m]? := by
  rw [Working.join, getElem?_setNode_of_ne _ _ _ (by omega), getElem?_setNode_of_ne _ _ _ (by omega),
    getElem?_setNode_of_ne _ _ _ (by omega)]

theorem heapInv_mergeNodes (w : Working) (lo hi : NIdx) (horder : HeapInv w) (hs : w.hsize.toNat < 256)
    (hlo : lo.toNat < w.nnext.toNat) (hhi : hi.toNat < w.nnext.toNat) (hn : w.nnext.toNat < 511)
    (hlive : ∀ i ∈ w.live, i.toNat < w.nnext.toNat) : HeapInv (mergeNodes lo hi w) := by
  refine heapInv_heapPush w.nnext (w.join lo hi)
    (heapInv_congr (w := w) rfl rfl (fun i hmem => keyOf_congr ?_) horder) hs
  rw [join_core w lo hi hlo hhi hn, if_neg (NIdx.ne_of_toNat_lt (hlive i hmem))]

/-- Merging the two roots extracted is a pass. -/
theorem mergeStep_of_extracted {w u : Working} {lo hi : NIdx} (hf : Forest w) (hnode : u.node = w.node)
    (hnext : u.nnext = w.nnext) (hlive : w.live.Perm (lo :: hi :: u.live))
    (hleast : ∀ i ∈ hi :: u.live, (w.keyOf i).lt (w.keyOf lo) = false)
    (hleast' : ∀ i ∈ u.live, (w.keyOf i).lt (w.keyOf hi) = false) (horder : HeapInv u) (hs : u.hsize.toNat < 256)
    (hn : w.nnext.toNat < 511) : MergeStep w lo hi u.live (mergeNodes lo hi u) := by
  have hlt : ∀ i ∈ lo :: hi :: u.live, i.toNat < u.nnext.toNat := fun i hmem =>
    hnext ▸ hf.lt i (hlive.symm.subset hmem)
  have hlo := hlt lo (by simp)
  have hhi := hlt hi (by simp)
  have hn' : u.nnext.toNat < 511 := hnext ▸ hn
  have hne : lo ≠ hi := fun e => by simpa [e] using hlive.nodup_iff.1 hf.nodup
  have hnode' : (mergeNodes lo hi u).node = (u.join lo hi).node := (heapPush_frame u.nnext (u.join lo hi)).1
  have hat (i : NIdx) : u.nodeAt i = w.nodeAt i := nodeAt_congr hnode i
  have hcore : w.joinCore lo hi = u.joinCore lo hi := by simp only [Working.joinCore, hat]
  refine ⟨hlive, hnext ▸ live_heapPush u.nnext (u.join lo hi) hs, hleast, hleast', ?_, fun i => ?_, fun i hi' => ?_,
    fun i hi' => ?_, fun m hm => ?_⟩
  · exact heapInv_mergeNodes u lo hi horder hs hlo hhi hn' fun i hmem => hlt i (.tail _ (.tail _ hmem))
  · rw [nodeAt_congr hnode', join_core u lo hi hlo hhi hn', hcore, hnext, hat]
  · rw [nodeAt_congr hnode', (join_link u lo hi hlo hhi hn' hne i (hnext ▸ hi')).1, hnext, hat]
  · rw [nodeAt_congr hnode', (join_link u lo hi hlo hhi hn' hne i (hnext ▸ hi')).2, hat]
  · rw [hnode', join_fresh u lo hi hlo hhi (hnext ▸ hm), hnode]

/-- The two extractions of a pass take out the two entries of least key. -/
theorem exists_mergeStep (w : Working) (hf : Forest w) (horder : HeapInv w) (h2 : 2 ≤ w.hsize.toNat)
    (hs : w.hsize.toNat ≤ 256) (hn : w.nnext.toNat < 511) : ∃ lo hi rest, MergeStep w lo hi rest (mergePass w) := by
  obtain ⟨-, hleast1, horder1, hlive1, hsize1, hnode1⟩ := heapPopTakesTheLeast w horder (by omega) hs
  obtain ⟨-, hleast2, horder2, hlive2, hsize2, hnode2⟩ :=
    heapPopTakesTheLeast (heapPop w).2 horder1 (by omega) (by omega)
  obtain ⟨-, -, hnext1, -⟩ := heapPop_frame w
  obtain ⟨-, -, hnext2, -⟩ := heapPop_frame (heapPop w).2
  have hkey (i : NIdx) : (heapPop w).2.keyOf i = w.keyOf i := keyOf_congr (congrArg Node.core (nodeAt_congr hnode1 i))
  have hlive := hlive1.trans (hlive2.cons _)
  refine ⟨_, _, _, mergeStep_of_extracted hf (hnode2.trans hnode1) (hnext2.trans hnext1) hlive
    (fun i hi => hleast1 i (hlive.symm.subset (.tail _ hi))) (fun i hi => ?_) horder2 (by omega) hn⟩
  rw [← hkey i, ← hkey]
  exact hleast2 i (hlive2.symm.subset (.tail _ hi))

/-! The numbering (R20, R79) -/

/-- Node `c` is the child on side `b` of node `i` and no root any more (R20, R78). -/
structure Working.ChildAt (w : Working) (i c : NIdx) (b : Bool) : Prop where
  lt : c.toNat < i.toNat
  parent : (w.nodeAt c).parent = i
  pbit : (w.nodeAt c).pbit = b
  out : c ∉ w.live

/-- Node `i` is internal, above two older nodes (R78, R79). -/
structure Working.Joined (w : Working) (i : NIdx) : Prop where
  leaf : (w.nodeAt i).leaf = false
  left : w.ChildAt i (w.nodeAt i).left false
  right : w.ChildAt i (w.nodeAt i).right true

/-- The stores between SCAN and the end of MERGE, for the table `f` and the stores `w₀` before SCAN (R79). -/
structure MergeInv (f : FreqTable) (w₀ w : Working) : Prop where
  forest : Forest w
  order : HeapInv w
  count : w.nnext.toNat + w.hsize.toNat = 2 * ftnOf f
  nonempty : 1 ≤ w.hsize.toNat
  scanned : ftnOf f ≤ w.nnext.toNat
  leaves : ∀ j x, (present f)[j]? = some x → (w.nodeAt (BitVec.ofNat 9 j)).core = Node.leafCore x (tableGet f x)
  joined : ∀ i : NIdx, ftnOf f ≤ i.toNat → i.toNat < w.nnext.toNat → w.Joined i
  later : ∀ i : NIdx, i.toNat < w.nnext.toNat → i ∉ w.live → i.toNat < (w.nodeAt i).parent.toNat
  fresh : ∀ m, w.nnext.toNat ≤ m → w.node[m]? = w₀.node[m]?

theorem Working.ChildAt.setPhase {w : Working} {i c : NIdx} {b : Bool} (h : w.ChildAt i c b) (p : Phase) :
    (w.setPhase p).ChildAt i c b := ⟨h.lt, h.parent, h.pbit, h.out⟩

theorem Working.Joined.setPhase {w : Working} {i : NIdx} (h : w.Joined i) (p : Phase) : (w.setPhase p).Joined i :=
  ⟨h.leaf, h.left.setPhase p, h.right.setPhase p⟩

theorem MergeInv.setPhase {f : FreqTable} {w₀ w : Working} (h : MergeInv f w₀ w) (p : Phase) :
    MergeInv f w₀ (w.setPhase p) :=
  ⟨h.forest.setPhase p, h.order, h.count, h.nonempty, h.scanned, h.leaves,
    fun i h1 h2 => (h.joined i h1 h2).setPhase p, h.later, h.fresh⟩

/-- The nodes SCAN has made are all in the heap. -/
theorem live_perm_range {w : Working} (hf : Forest w) (h : w.hsize = w.nnext) :
    w.live.Perm ((List.range w.nnext.toNat).map (BitVec.ofNat 9)) := by
  refine (List.subperm_of_subset hf.nodup fun i hi => ?_).perm_of_length_le ?_
  · exact List.mem_map.2 ⟨i.toNat, List.mem_range.2 (hf.lt i hi), NIdx.ofNat_toNat i⟩
  · rw [List.length_map, List.length_range, length_live, h]

theorem mergeInv_scanPhase (f : FreqTable) (w : Working) (h0 : ftnOf f ≠ 0) : MergeInv f w (scanPhase f w) := by
  obtain ⟨hf, horder, hsize, hnext, hleaves, hfresh⟩ := scanInv_scanPhase f w
  rw [List.length_map] at hsize hnext hfresh
  have hlive := live_perm_range hf (BitVec.eq_of_toNat_eq (hsize.trans hnext.symm))
  refine ⟨hf, horder, ?_, ?_, hnext.ge, fun j x hj => ?_, fun i h1 h2 => ?_, fun i hi hout => ?_, fun m hm => ?_⟩
  · rw [hsize, hnext, ← ftnOf]
    omega
  · rw [hsize, ← ftnOf]
    omega
  · exact hleaves j (x, tableGet f x) (by rw [List.getElem?_map, hj]; rfl)
  · rw [hnext, ← ftnOf] at h2
    omega
  · exact absurd (hlive.symm.subset (List.mem_map.2 ⟨i.toNat, List.mem_range.2 hi, NIdx.ofNat_toNat i⟩)) hout
  · exact hfresh m (hnext ▸ hm)

/-- The children of a node stay so through a pass: they are roots no more. -/
theorem Working.ChildAt.mergeStep {w w' : Working} {lo hi i c : NIdx} {rest : List NIdx} {b : Bool}
    (h : w.ChildAt i c b) (hstep : MergeStep w lo hi rest w') (hi' : i.toNat < w.nnext.toNat) : w'.ChildAt i c b := by
  obtain ⟨hlt, hparent, hpbit, hout⟩ := h
  have hout' : c ∉ lo :: hi :: rest := fun hmem => hout (hstep.live.symm.subset hmem)
  simp only [List.mem_cons, not_or] at hout'
  obtain ⟨hclo, hchi, hrest⟩ := hout'
  have hc : c.toNat < w.nnext.toNat := hlt.trans hi'
  refine ⟨hlt, ?_, ?_, fun hmem => ?_⟩
  · rw [hstep.parent c hc, if_neg (by simp [hclo, hchi]), hparent]
  · rw [hstep.pbit c hc, if_neg hclo, if_neg hchi, hpbit]
  · rcases List.mem_cons.1 (hstep.live'.subset hmem) with e | hmem
    · exact absurd e (NIdx.ne_of_toNat_lt hc)
    · exact hrest hmem

/-- The node a pass makes is above the two roots extracted. -/
theorem MergeStep.joined_new {w w' : Working} {lo hi : NIdx} {rest : List NIdx} (h : MergeStep w lo hi rest w')
    (hf : Forest w) : w'.Joined w.nnext := by
  have hcore := (h.core w.nnext).trans (if_pos rfl)
  have hleft : (w'.nodeAt w.nnext).left = lo := by rw [← Node.core_left, hcore]; rfl
  have hright : (w'.nodeAt w.nnext).right = hi := by rw [← Node.core_right, hcore]; rfl
  have hleaf : (w'.nodeAt w.nnext).leaf = false := by rw [← Node.core_leaf, hcore]; rfl
  have hlt : ∀ i ∈ lo :: hi :: rest, i.toNat < w.nnext.toNat := fun i hmem => hf.lt i (h.live.symm.subset hmem)
  have hlo := hlt lo (by simp)
  have hhi := hlt hi (by simp)
  have hnodup := h.live.nodup_iff.1 hf.nodup
  have hout : ∀ i, i.toNat < w.nnext.toNat → i ∉ rest → i ∉ w'.live := fun i hi' hrest hmem => by
    rcases List.mem_cons.1 (h.live'.subset hmem) with e | hmem
    · exact absurd e (NIdx.ne_of_toNat_lt hi')
    · exact hrest hmem
  simp only [List.nodup_cons, List.mem_cons, not_or] at hnodup
  obtain ⟨⟨hne, hlorest⟩, hhirest, -⟩ := hnodup
  refine ⟨hleaf, hleft.symm ▸ ⟨hlo, ?_, ?_, hout lo hlo hlorest⟩, hright.symm ▸ ⟨hhi, ?_, ?_, hout hi hhi hhirest⟩⟩
  · rw [h.parent lo hlo, if_pos (.inl rfl)]
  · rw [h.pbit lo hlo, if_pos rfl]
  · rw [h.parent hi hhi, if_pos (.inr rfl)]
  · rw [h.pbit hi hhi, if_neg (Ne.symm hne), if_pos rfl]

theorem MergeInv.step {f : FreqTable} {w₀ w : Working} {lo hi : NIdx} {rest : List NIdx} (h : MergeInv f w₀ w)
    (hstep : MergeStep w lo hi rest (mergePass w)) (h2 : 2 ≤ w.hsize.toNat) : MergeInv f w₀ (mergePass w) := by
  have hle := ftnOf_le f
  have hcount := h.count
  have hscanned := h.scanned
  obtain ⟨hf', hsize', hnext'⟩ := forest_mergePass w h.forest h2 (by omega) (by omega)
  have hcore : ∀ i : NIdx, i.toNat < w.nnext.toNat → ((mergePass w).nodeAt i).core = (w.nodeAt i).core := fun i hi =>
    (hstep.core i).trans (if_neg (NIdx.ne_of_toNat_lt hi))
  refine ⟨hf', hstep.order, by omega, by omega, by omega, fun j x hj => ?_, fun i h1 h2 => ?_, fun i hi' hout => ?_,
    fun m hm => ?_⟩
  · have hjlt : j < ftnOf f := (List.getElem?_eq_some_iff.1 hj).1
    rw [hcore _ (by rw [NIdx.toNat_ofNat_of_lt (by omega)]; omega), h.leaves j x hj]
  · by_cases hi' : i = w.nnext
    · exact hi' ▸ hstep.joined_new h.forest
    · have hlt : i.toNat < w.nnext.toNat := NIdx.toNat_lt_of_le_of_ne (hnext' ▸ h2) hi'
      obtain ⟨hleaf, hleft, hright⟩ := h.joined i h1 hlt
      have hci := hcore i hlt
      have hl : ((mergePass w).nodeAt i).left = (w.nodeAt i).left := by rw [← Node.core_left, hci]; rfl
      have hr : ((mergePass w).nodeAt i).right = (w.nodeAt i).right := by rw [← Node.core_right, hci]; rfl
      refine ⟨?_, hl ▸ hleft.mergeStep hstep hlt, hr ▸ hright.mergeStep hstep hlt⟩
      rw [← Node.core_leaf, hci, Node.core_leaf, hleaf]
  · have hout' : i ∉ w.nnext :: rest := fun hmem => hout (hstep.live'.symm.subset hmem)
    rw [List.mem_cons, not_or] at hout'
    have hlt : i.toNat < w.nnext.toNat := NIdx.toNat_lt_of_le_of_ne (hnext' ▸ hi') hout'.1
    rw [hstep.parent i hlt]
    split_ifs with hchild
    · exact hlt
    · rw [not_or] at hchild
      refine h.later i hlt fun hmem => ?_
      simpa [hchild, hout'.2] using hstep.live.subset hmem
  · rw [hstep.fresh m (by omega)]
    exact h.fresh m (by omega)

end Sys2Proof.Machine
end

section
/-! The sequencer's build against the abstract one (R73, R79): the stores show the trees of a run of the merge loop, and
the walk up from a leaf reads its code. -/

namespace Sys2Proof.Machine

/-! The tree a node stands for (R20) -/

/-- Node `i` is the root of the tree, its children being older. -/
def Working.Shows (w : Working) : Tree → NIdx → Prop
  | .leaf x c, i =>
    (w.nodeAt i).leaf = true ∧ (w.nodeAt i).sym = x ∧ (w.nodeAt i).tag = x ∧ (w.nodeAt i).w.toNat = c
  | .node l r, i =>
    (w.nodeAt i).leaf = false ∧ (w.nodeAt i).tag = (Tree.node l r).tag ∧
      (w.nodeAt i).w.toNat = (Tree.node l r).weight ∧ (w.nodeAt i).left.toNat < i.toNat ∧
      (w.nodeAt i).right.toNat < i.toNat ∧ w.Shows l (w.nodeAt i).left ∧ w.Shows r (w.nodeAt i).right

/-- A node has the key of its tree (R74). -/
theorem Working.Shows.keyOf_eq {w : Working} {t : Tree} {i : NIdx} (h : w.Shows t i) : w.keyOf i = t.key := by
  cases t with
  | leaf x c =>
    obtain ⟨-, -, htag, hw⟩ := h
    rw [Working.keyOf, htag, hw]
    rfl
  | node l r =>
    obtain ⟨-, htag, hw, -⟩ := h
    rw [Working.keyOf, htag, hw]
    rfl

/-- What a node stands for depends on the nodes up to it, without their links to parents. -/
theorem Working.Shows.congr {w u : Working} {t : Tree} {i : NIdx} (h : w.Shows t i)
    (hu : ∀ j : NIdx, j.toNat ≤ i.toNat → (u.nodeAt j).core = (w.nodeAt j).core) : u.Shows t i := by
  induction t generalizing i with
  | leaf x c =>
    have hi := hu i (Nat.le_refl _)
    obtain ⟨hleaf, hsym, htag, hw⟩ := h
    rw [Working.Shows, ← Node.core_leaf, ← Node.core_sym, ← Node.core_tag, ← Node.core_w, hi]
    exact ⟨hleaf, hsym, htag, hw⟩
  | node l r ihl ihr =>
    have hi := hu i (Nat.le_refl _)
    obtain ⟨hleaf, htag, hw, hlt, hrt, hl, hr⟩ := h
    have hleft : (u.nodeAt i).left = (w.nodeAt i).left := by rw [← Node.core_left, hi, Node.core_left]
    have hright : (u.nodeAt i).right = (w.nodeAt i).right := by rw [← Node.core_right, hi, Node.core_right]
    rw [Working.Shows, hleft, hright, ← Node.core_leaf, ← Node.core_tag, ← Node.core_w, hi]
    exact ⟨hleaf, htag, hw, hlt, hrt, ihl hl fun j hj => hu j (by omega), ihr hr fun j hj => hu j (by omega)⟩

/-- The roots in the heap stand for the given trees, whose leaves differ and whose weights fit (R75, R94). -/
structure ShowsForest (w : Working) (tree : NIdx → Tree) : Prop where
  root : ∀ i ∈ w.live, w.Shows (tree i) i
  distinct : LiveDistinct (w.live.map tree)
  fits : ((w.live.map tree).map Tree.weight).sum < 2 ^ 40

theorem LiveDistinct.join {lo hi : Tree} {q : List Tree} (h : LiveDistinct (lo :: hi :: q)) :
    LiveDistinct (.node lo hi :: q) := by
  simpa [LiveDistinct, Tree.leaves] using h

/-- The trees after a pass: the new node's is above the two extracted. -/
def joinedTree (tree : NIdx → Tree) (m lo hi : NIdx) : NIdx → Tree :=
  Function.update tree m (.node (tree lo) (tree hi))

section
variable {w : Working} {lo hi : NIdx} {rest : List NIdx} (hf : Forest w) (h : MergeStep w lo hi rest (mergePass w))
  {tree : NIdx → Tree} (hshow : ShowsForest w tree)
include hf h

/-- A pass trades two trees of the live set for the one above them (R72). -/
theorem map_joinedTree_perm : ((mergePass w).live.map (joinedTree tree w.nnext lo hi)).Perm
    (.node (tree lo) (tree hi) :: rest.map tree) := by
  refine (h.live'.map _).trans ?_
  rw [List.map_cons, joinedTree, Function.update_self]
  refine .of_eq (congrArg _ (List.map_congr_left fun i hi' => Function.update_of_ne ?_ _ _))
  exact NIdx.ne_of_toNat_lt (hf.lt _ (h.live.symm.subset (by simp [hi'])))

include hshow

/-- What a root stood for it still stands for after a pass, extracted or not. -/
theorem ShowsForest.shows_kept : ∀ i ∈ lo :: hi :: rest, (mergePass w).Shows (tree i) i := fun i hi' => by
  have hmem := h.live.symm.subset hi'
  refine (hshow.root i hmem).congr fun j hj => ?_
  rw [h.core, if_neg (NIdx.ne_of_toNat_lt (hj.trans_lt (hf.lt i hmem)))]

omit hf in
/-- The weights of the live set, with those of the two trees extracted apart. -/
theorem ShowsForest.sum_weights_lt :
    (tree lo).weight + ((tree hi).weight + ((rest.map tree).map Tree.weight).sum) < 2 ^ 40 := by
  have hfits := hshow.fits
  rwa [((h.live.map tree).map Tree.weight).sum_eq] at hfits

/-- The new node stands for the tree above the two extracted: its 40-bit weight does not overflow (R78, R94). -/
theorem ShowsForest.shows_joined : (mergePass w).Shows (.node (tree lo) (tree hi)) w.nnext := by
  have hsum := hshow.sum_weights_lt h
  have hkey : ∀ i ∈ lo :: hi :: rest, w.keyOf i = (tree i).key := fun i hi' =>
    (hshow.root i (h.live.symm.subset hi')).keyOf_eq
  have hwlo : (w.nodeAt lo).w.toNat = (tree lo).weight := congrArg Key.weight (hkey lo (by simp))
  have hwhi : (w.nodeAt hi).w.toNat = (tree hi).weight := congrArg Key.weight (hkey hi (by simp))
  have htaglo : (w.nodeAt lo).tag = (tree lo).tag := congrArg Key.tag (hkey lo (by simp))
  have htaghi : (w.nodeAt hi).tag = (tree hi).tag := congrArg Key.tag (hkey hi (by simp))
  have hkept := hshow.shows_kept hf h
  have hlt : ∀ i ∈ lo :: hi :: rest, i.toNat < w.nnext.toNat := fun i hi' => hf.lt i (h.live.symm.subset hi')
  have hcore := (h.core w.nnext).trans (if_pos rfl)
  rw [Working.Shows, ← Node.core_leaf, ← Node.core_tag, ← Node.core_w, ← Node.core_left, ← Node.core_right, hcore]
  refine ⟨rfl, ?_, ?_, hlt lo (by simp), hlt hi (by simp), hkept lo (by simp), hkept hi (by simp)⟩
  · rw [Working.joinCore, htaglo, htaghi]
    rfl
  · rw [Working.joinCore, Weight.toNat_add, hwlo, hwhi]
    exact Nat.mod_eq_of_lt (by omega)

/-- A pass keeps the roots standing for the trees of the live set. -/
theorem ShowsForest.step : ShowsForest (mergePass w) (joinedTree tree w.nnext lo hi) := by
  have hperm := map_joinedTree_perm hf h (tree := tree)
  have hsum := hshow.sum_weights_lt h
  refine ⟨fun i hi' => ?_, (hshow.distinct.perm (h.live.map tree).symm).join.perm hperm, ?_⟩
  · by_cases hnew : i = w.nnext
    · rw [hnew, joinedTree, Function.update_self]
      exact hshow.shows_joined hf h
    · have hmem : i ∈ rest := (List.mem_cons.1 (h.live'.subset hi')).resolve_left hnew
      rw [joinedTree, Function.update_of_ne hnew]
      exact hshow.shows_kept hf h i (by simp [hmem])
  · rw [(hperm.map Tree.weight).sum_eq, List.map_cons, List.sum_cons, Tree.weight]
    omega

/-- The two roots a pass extracts are those R72 asks for. -/
theorem ShowsForest.mergeRun {T : Tree} (hrun : MergeRun ((mergePass w).live.map (joinedTree tree w.nnext lo hi)) T) :
    MergeRun (w.live.map tree) T := by
  have hlive := h.live.map tree
  have hdistinct := hshow.distinct.perm hlive.symm
  have hkey : ∀ i ∈ lo :: hi :: rest, w.keyOf i = (tree i).key := fun i hmem =>
    (hshow.root i (h.live.symm.subset hmem)).keyOf_eq
  refine .pass _ (tree lo) (tree hi) (rest.map tree) T hlive (hdistinct.lt_of_not_gt fun u hu => ?_)
    (hdistinct.tail.lt_of_not_gt fun u hu => ?_) (hrun.perm (map_joinedTree_perm hf h).symm)
  · obtain ⟨i, hi', rfl⟩ := List.mem_map.1 hu
    rw [← hkey i (.tail _ hi'), ← hkey lo (by simp)]
    exact h.least i hi'
  · obtain ⟨i, hi', rfl⟩ := List.mem_map.1 hu
    rw [← hkey i (by simp [hi']), ← hkey hi (by simp)]
    exact h.least' i hi'

end

theorem live_of_hsize_one {w : Working} (h : w.hsize.toNat = 1) : w.live = [w.heapAt 0] := live_eq_cons w 0 h

theorem ShowsForest.mergeRun_done {w : Working} {tree : NIdx → Tree} (h : ShowsForest w tree)
    (h1 : w.hsize.toNat = 1) : ∃ T, MergeRun (w.live.map tree) T ∧ w.Shows T (w.heapAt 0) := by
  have hlive := live_of_hsize_one h1
  exact ⟨tree (w.heapAt 0), by rw [hlive]; exact .done _, h.root _ (by simp [hlive])⟩

/-- MERGE is a run of the merge loop, and its last root stands for the tree (R72, R73). -/
theorem exists_mergeRun (f : FreqTable) (w₀ : Working) (n : Nat) (w : Working) (tree : NIdx → Tree)
    (h : MergeInv f w₀ w) (hshow : ShowsForest w tree) (hn : w.hsize.toNat ≤ n + 1) :
    MergeInv f w₀ (mergeWhile n w) ∧ (mergeWhile n w).hsize.toNat = 1 ∧
      ∃ T, MergeRun (w.live.map tree) T ∧ (mergeWhile n w).Shows T ((mergeWhile n w).heapAt 0) := by
  have hpos := h.nonempty
  induction n generalizing w tree with
  | zero =>
    have h1 : w.hsize.toNat = 1 := by omega
    exact ⟨h, h1, hshow.mergeRun_done h1⟩
  | succ n ih =>
    rw [mergeWhile]
    split_ifs with h2
    · have hle := ftnOf_le f
      have hcount := h.count
      have hscanned := h.scanned
      obtain ⟨lo, hi, rest, hstep⟩ := exists_mergeStep w h.forest h.order h2 (by omega) (by omega)
      obtain ⟨-, hsize, -⟩ := forest_mergePass w h.forest h2 (by omega) (by omega)
      have hshow' := hshow.step h.forest hstep
      obtain ⟨hinv, h1, T, hrun, hroot⟩ := ih (mergePass w) _ (h.step hstep h2) hshow' (by omega) (by omega)
      exact ⟨hinv, h1, T, hshow.mergeRun h.forest hstep hrun, hroot⟩
    · have h1 : w.hsize.toNat = 1 := by omega
      exact ⟨h, h1, hshow.mergeRun_done h1⟩

/-! SCAN leaves the live set R72 starts from -/

/-- The leaf a node stands for. -/
def Working.leafTree (w : Working) (i : NIdx) : Tree := .leaf (w.nodeAt i).sym (w.nodeAt i).w.toNat

theorem MergeInv.shows_leaf {f : FreqTable} {w₀ w : Working} (h : MergeInv f w₀ w) {j : Nat} {x : Sym}
    (hj : (present f)[j]? = some x) : w.Shows (.leaf x (tableGet f x).toNat) (BitVec.ofNat 9 j) := by
  rw [Working.Shows, ← Node.core_leaf, ← Node.core_sym, ← Node.core_tag, ← Node.core_w, h.leaves j x hj]
  exact ⟨rfl, rfl, rfl, Count.toNat_weight _⟩

theorem MergeInv.leafTree_eq {f : FreqTable} {w₀ w : Working} (h : MergeInv f w₀ w) {j : Nat} {x : Sym}
    (hj : (present f)[j]? = some x) : w.leafTree (BitVec.ofNat 9 j) = .leaf x (tableGet f x).toNat := by
  obtain ⟨-, hsym, -, hw⟩ := h.shows_leaf hj
  rw [Working.leafTree, hsym, hw]

/-- After SCAN the heap holds a node for every leaf of the initial live set (R72, R73). -/
theorem showsForest_scanPhase (f : FreqTable) (w : Working) (h0 : ftnOf f ≠ 0) :
    ((scanPhase f w).live.map (scanPhase f w).leafTree).Perm (leafSet f) ∧
      ShowsForest (scanPhase f w) (scanPhase f w).leafTree := by
  have hinv := mergeInv_scanPhase f w h0
  obtain ⟨hf, hsize, hnext⟩ := forest_scanPhase f w
  have hlive := live_perm_range hf (BitVec.eq_of_toNat_eq (hsize.trans hnext.symm))
  rw [hnext] at hlive
  have hx : ∀ j < ftnOf f, ∃ x, (present f)[j]? = some x := fun j hj => ⟨_, List.getElem?_eq_getElem hj⟩
  have hleaves : ((List.range (ftnOf f)).map (BitVec.ofNat 9)).map (scanPhase f w).leafTree = leafSet f := by
    refine List.ext_getElem (by simp [leafSet_length]) fun j h1 h2 => ?_
    have hj : j < ftnOf f := leafSet_length f ▸ h2
    rw [List.getElem_map, List.getElem_map, List.getElem_range, hinv.leafTree_eq (List.getElem?_eq_getElem hj)]
    exact (List.getElem_map fun x => Tree.leaf x (tableGet f x).toNat).symm
  have hperm := hleaves ▸ hlive.map (scanPhase f w).leafTree
  refine ⟨hperm, fun i hi => ?_, (liveDistinct_leafSet f).perm hperm, ?_⟩
  · obtain ⟨j, hj, rfl⟩ := List.mem_map.1 (hlive.subset hi)
    obtain ⟨x, hx⟩ := hx j (List.mem_range.1 hj)
    exact hinv.leafTree_eq hx ▸ hinv.shows_leaf hx
  · have hsum : ((leafSet f).map Tree.weight).sum ≤ 2 ^ 40 - 256 := by
      rw [leafSet, List.map_map]
      exact sum_counts_le f
    rw [(hperm.map Tree.weight).sum_eq]
    omega

theorem ShowsForest.setPhase {w : Working} {tree : NIdx → Tree} (h : ShowsForest w tree) (p : Phase) :
    ShowsForest (w.setPhase p) tree :=
  ⟨fun i hi => (h.root i hi).congr fun _ _ => rfl, h.distinct, h.fits⟩

/-- The stores after MERGE: one root, which stands for the tree of the table (R72, R73). -/
theorem exists_merged_tree (s : State) (h0 : s.ftn ≠ 0) :
    MergeInv s.ft s.work (merged s) ∧ (merged s).hsize.toNat = 1 ∧
      ∃ T, buildTree s.ft = some T ∧ (merged s).Shows T ((merged s).heapAt 0) := by
  obtain ⟨hperm, hshow⟩ := showsForest_scanPhase s.ft (s.work.setPhase .scan) h0
  obtain ⟨-, hsize, -⟩ := forest_scanPhase s.ft (s.work.setPhase .scan)
  have hinv := mergeInv_scanPhase s.ft (s.work.setPhase .scan) h0
  obtain ⟨hinv', h1, T, hrun, hroot⟩ := exists_mergeRun s.ft _ (Config.nsym - 1) ((scanned s).setPhase .merge) _
    (hinv.setPhase .merge) (hshow.setPhase .merge) (hsize.trans_le (ftnOf_le s.ft))
  exact ⟨{ hinv' with fresh := hinv'.fresh }, h1, T, buildTree_of_mergeRun hperm.symm hrun, hroot⟩

/-! EXTRACT (R81) -/

theorem walkUp_root (w : Working) (root : NIdx) (n d v : Nat) : walkUp w root n root d v = (d, v) := by
  cases n with
  | zero => rfl
  | succ n => rw [walkUp, if_pos rfl]

/-- The walk from a child to its node reads the branch bit (R81). -/
theorem Working.ChildAt.walkUp {w : Working} {root i c : NIdx} {b : Bool} (h : w.ChildAt i c b)
    (hr : i.toNat ≤ root.toNat) (n d v : Nat) :
    walkUp w root (n + 1) c d v = Sys2Proof.Machine.walkUp w root n i (d + 1) (v + b.toNat * 2 ^ d) := by
  rw [Sys2Proof.Machine.walkUp, if_neg (NIdx.ne_of_toNat_lt (h.lt.trans_le hr)), h.parent, h.pbit]

/-- The walk from a leaf of the symbol up to node `i` reads the string, last bit first (R81). -/
def Working.Reads (w : Working) (root i : NIdx) (x : Sym) (c : List Bool) : Prop :=
  ∃ j : NIdx, j.toNat < w.nnext.toNat ∧ (w.nodeAt j).leaf = true ∧ (w.nodeAt j).sym = x ∧
    ∀ n d v, walkUp w root (c.length + n) j d v = walkUp w root n i (d + c.length) (v + strVal c * 2 ^ d)

theorem Working.Reads.up {w : Working} {root i k : NIdx} {b : Bool} {x : Sym} {c : List Bool}
    (h : w.Reads root k x c) (hk : w.ChildAt i k b) (hr : i.toNat ≤ root.toNat) : w.Reads root i x (b :: c) := by
  obtain ⟨j, hj, hleaf, hsym, hwalk⟩ := h
  refine ⟨j, hj, hleaf, hsym, fun n d v => ?_⟩
  have hlen : (b :: c).length + n = c.length + (n + 1) := by rw [List.length_cons]; omega
  have hval : v + strVal c * 2 ^ d + b.toNat * 2 ^ (d + c.length) = v + strVal (b :: c) * 2 ^ d := by
    rw [strVal_cons, Nat.pow_add]
    ring
  rw [hlen, hwalk, hk.walkUp hr, hval]
  rfl

/-- Leaves are the nodes SCAN made (R79). -/
theorem MergeInv.leaf_iff {f : FreqTable} {w₀ w : Working} (h : MergeInv f w₀ w) {i : NIdx}
    (hi : i.toNat < w.nnext.toNat) : (w.nodeAt i).leaf = true ↔ i.toNat < ftnOf f := by
  constructor
  · intro hleaf
    by_contra hge
    have := (h.joined i (by omega) hi).leaf
    simp [hleaf] at this
  · intro hlt
    have hx : (present f)[i.toNat]? = some (present f)[i.toNat] := List.getElem?_eq_getElem hlt
    have := h.leaves i.toNat _ hx
    rw [NIdx.ofNat_toNat] at this
    rw [← Node.core_leaf, this]
    rfl

/-- The walks up from the leaves of a tree read its codes (R80, R81). -/
theorem MergeInv.reads {f : FreqTable} {w₀ w : Working} (h : MergeInv f w₀ w) {root i : NIdx} {t : Tree}
    (ht : w.Shows t i) (hi : i.toNat < w.nnext.toNat) (hr : i.toNat ≤ root.toNat) :
    ∀ p ∈ t.codes, w.Reads root i p.1 p.2 := by
  induction t generalizing i with
  | leaf x c =>
    obtain ⟨hleaf, hsym, -⟩ := ht
    intro p hp
    rw [List.mem_singleton.1 hp]
    exact ⟨i, hi, hleaf, hsym, fun n d v => by simp⟩
  | node l r ihl ihr =>
    obtain ⟨hleaf, -, -, hlt, hrt, hl, hr'⟩ := ht
    have hinner : ftnOf f ≤ i.toNat := by
      by_contra hlt
      exact absurd ((h.leaf_iff hi).2 (by omega)) (by simp [hleaf])
    obtain ⟨-, hleft, hright⟩ := h.joined i hinner hi
    intro p hp
    rcases (Tree.mem_codes_node l r p).1 hp with ⟨q, hq, rfl⟩ | ⟨q, hq, rfl⟩
    · exact (ihl hl (by omega) (by omega) q hq).up hleft hr
    · exact (ihr hr' (by omega) (by omega) q hq).up hright hr

/-- The entry extracted is the string read (R81, R83). -/
theorem Working.Reads.extractEntry {w : Working} {root : NIdx} {x : Sym} {c : List Bool} (h : w.Reads root root x c)
    (hc : c.length ≤ 255) : ∃ j : NIdx, j.toNat < w.nnext.toNat ∧ (w.nodeAt j).leaf = true ∧ (w.nodeAt j).sym = x ∧
      extractEntry w root j = CtEntry.ofString c := by
  obtain ⟨j, hj, hleaf, hsym, hwalk⟩ := h
  refine ⟨j, hj, hleaf, hsym, ?_⟩
  have hfuel : Config.nsym = c.length + (256 - c.length) := by rw [Config.nsym_eq]; omega
  rw [Sys2Proof.Machine.extractEntry, hfuel, hwalk, walkUp_root, Nat.zero_add, Nat.zero_add, Nat.pow_zero, Nat.mul_one]
  rfl

/-- The symbols and entries EXTRACT writes for the first `n` nodes (R73). -/
def Working.extracted (w : Working) (n : Nat) : List (Sym × CtEntry) :=
  (List.range n).map fun j => ((w.nodeAt (BitVec.ofNat 9 j)).sym, extractEntry w (w.heapAt 0) (BitVec.ofNat 9 j))

/-- The upward walks write the code table of the tree (R81, R83). -/
theorem MergeInv.extractPhase_eq {f : FreqTable} {w₀ w : Working} {T : Tree} (h : MergeInv f w₀ w)
    (h1 : w.hsize.toNat = 1) (hT : buildTree f = some T) (hroot : w.Shows T (w.heapAt 0)) (n : NIdx)
    (hn : n.toNat = ftnOf f) : extractPhase w n (w.heapAt 0) = codeTableOf T := by
  have hrun : extractPhase w n (w.heapAt 0) = (w.extracted (ftnOf f)).foldl (fun c p => tableSet c p.1 p.2)
      (Vector.replicate Config.nsym CtEntry.absent) := by
    rw [Working.extracted, List.foldl_map, ← hn]
    rfl
  have hcodes : codeTableOf T = (T.codes.map fun p => (p.1, CtEntry.ofString p.2)).foldl
      (fun c p => tableSet c p.1 p.2) (Vector.replicate Config.nsym CtEntry.absent) := by
    rw [List.foldl_map]
    rfl
  have hkeys : ((T.codes.map fun p => (p.1, CtEntry.ofString p.2)).map Prod.fst).Nodup := by
    rw [List.map_map]
    exact buildTree_codes_nodup f T hT
  have hlive : w.heapAt 0 ∈ w.live := by simp [live_of_hsize_one h1]
  have hsub : (T.codes.map fun p => (p.1, CtEntry.ofString p.2)) ⊆ w.extracted (ftnOf f) := by
    intro e he
    obtain ⟨p, hp, rfl⟩ := List.mem_map.1 he
    obtain ⟨j, hj, hleaf, hsym, hentry⟩ := (h.reads hroot (h.forest.lt _ hlive) (Nat.le_refl _) p hp).extractEntry
      (buildTree_code_length f T hT p hp)
    refine List.mem_map.2 ⟨j.toNat, List.mem_range.2 ((h.leaf_iff hj).1 hleaf), ?_⟩
    rw [NIdx.ofNat_toNat, hsym, hentry]
  rw [hrun, hcodes]
  refine foldl_tableSet_of_perm hkeys ((List.subperm_of_subset hkeys.of_map hsub).perm_of_length_le ?_).symm _
  rw [Working.extracted, List.length_map, List.length_map, List.length_range, T.codes_length,
    buildTree_leaves_length f T hT]

/-! The statements on the hardware level (R73, R79) -/

theorem scanned_nnext_toNat (s : State) : (scanned s).nnext.toNat = s.ftn :=
  (forest_scanPhase s.ft (s.work.setPhase .scan)).2.2

theorem scanned_nnext_eq_zero (s : State) : (scanned s).nnext = 0 ↔ s.ftn = 0 := by
  rw [← scanned_nnext_toNat]
  exact ⟨congrArg BitVec.toNat, fun h => BitVec.eq_of_toNat_eq h⟩

/-- Settles O45: each phase moves `PHASE` on, and SCAN counts the symbols present. -/
theorem phasesFollowTheSequence : Obligations.PhasesFollowTheSequence := by
  refine fun s => ⟨rfl, fun h0 => ?_, fun h0 => ?_⟩
  · have h1 := seqStep_of_scan (seqStart s) rfl ((scanned_nnext_eq_zero s).not.2 h0)
    have p1 : (seqStep (seqStart s)).st.work.phase = .merge := by rw [h1]; rfl
    have p2 : (seqStep (seqStep (seqStart s))).st.work.phase = .extract := by rw [seqStep_of_merge _ p1]; rfl
    have p3 : (seqStep (seqStep (seqStep (seqStart s)))).st.work.phase = .finish := by
      rw [seqStep_of_extract _ p2]; rfl
    exact ⟨p1, p2, p3, by rw [seqStep_of_finish _ p3]; rfl⟩
  · have h1 := seqStep_of_scan_empty (seqStart s) rfl ((scanned_nnext_eq_zero s).2 h0)
    have p1 : (seqStep (seqStart s)).st.work.phase = .idle := by rw [h1]; rfl
    exact ⟨p1, seqStep_of_idle _ p1⟩

/-- The state in which the run of a non-empty table ends (R73). -/
theorem runSequencer_of_built (s : State) (h0 : s.ftn ≠ 0) : runSequencer s =
    ({ s.setWork ((merged s).setPhase .idle) with
        ct := extractPhase ((merged s).setPhase .extract) (scanned s).nnext ((merged s).heapAt 0) }).clearFt.respond
      ((scanned s).nnext.zeroExtend Config.dataW) := by
  obtain ⟨-, hbuilt, -⟩ := phasesFollowTheSequence s
  obtain ⟨hmerge, hextract, hfinish, -⟩ := hbuilt h0
  rw [runSequencer, seqStep_of_finish _ hfinish, seqStep_of_extract _ hextract, seqStep_of_merge _ hmerge,
    seqStep_of_scan (seqStart s) rfl ((scanned_nnext_eq_zero s).not.2 h0)]
  rfl

theorem runSequencer_of_empty (s : State) (h0 : s.ftn = 0) :
    runSequencer s = (s.setWork ((scanned s).setPhase .idle)).raise .empty := by
  obtain ⟨-, -, hempty⟩ := phasesFollowTheSequence s
  obtain ⟨-, hidle⟩ := hempty h0
  rw [runSequencer, hidle, hidle, hidle,
    seqStep_of_scan_empty (seqStart s) rfl ((scanned_nnext_eq_zero s).2 h0)]
  rfl

/-- Settles O44: the heap's run is a run of the merge loop, and the walks read the codes of its tree. -/
theorem sequencerComputesTheBuild : Obligations.SequencerComputesTheBuild := by
  intro s
  by_cases h0 : s.ftn = 0
  · have hend := CommandEnd.buildEmpty ((buildTree_eq_none s.ft).2 h0)
    rw [hend.exec_eq, runSequencer_of_empty s h0]
    rfl
  · obtain ⟨hinv, h1, T, hT, hroot⟩ := exists_merged_tree s h0
    have hn := scanned_nnext_toNat s
    have hct := (hinv.setPhase .extract).extractPhase_eq h1 hT (hroot.congr fun _ _ => rfl) (scanned s).nnext hn
    have hrsp : (scanned s).nnext.zeroExtend Config.dataW = BitVec.ofNat Config.dataW s.ftn := by
      rw [← hn]
      exact (BitVec.ofNat_toNat _ _).symm
    rw [(CommandEnd.build T hT).exec_eq, runSequencer_of_built s h0, hrsp, ← hct]
    rfl

/-- The one root left is the newest node (R79). -/
theorem Forest.heapAt_zero {w : Working} (h : Forest w) (h1 : w.hsize.toNat = 1) (hn : w.nnext.toNat ≠ 0) :
    (w.heapAt 0).toNat = w.nnext.toNat - 1 := by
  have hmem := h.newest fun e => hn (congrArg BitVec.toNat e)
  rw [live_of_hsize_one h1, List.mem_singleton] at hmem
  rw [← hmem, NIdx.toNat_pred_of_pos _ (Nat.pos_of_ne_zero hn)]

/-- Settles O48: SCAN numbers the leaves, and each pass of MERGE takes the next index above two older nodes. -/
theorem nodesAreNumberedByCreation : Obligations.NodesAreNumberedByCreation := by
  intro s t h0 h
  obtain ⟨hinv, h1, -⟩ := exists_merged_tree s h0
  replace hinv := hinv.setPhase .idle
  replace h1 : ((merged s).setPhase .idle).hsize.toNat = 1 := h1
  rw [exec_build_work h0 h]
  generalize (merged s).setPhase .idle = w at hinv h1
  have hle : s.ftn ≤ 256 := ftnOf_le s.ft
  have hcount : w.nnext.toNat + 1 = 2 * s.ftn := h1 ▸ hinv.count
  have hroot := hinv.forest.heapAt_zero h1 (by omega)
  refine ⟨fun j x hj => ?_, fun m hm1 hm2 => ?_, fun m hm => ?_, BitVec.eq_of_toNat_eq h1, by omega, ?_, fun m hm => ?_⟩
  · obtain ⟨hleaf, hsym, htag, hw⟩ := hinv.shows_leaf hj
    exact ⟨hleaf, hsym, htag, hw⟩
  · have hm := NIdx.toNat_ofNat_of_lt (j := m) (by omega)
    obtain ⟨hleaf, hleft, hright⟩ := hinv.joined (BitVec.ofNat 9 m) (hm.symm ▸ hm1) (by omega)
    exact ⟨hleaf, hleft.lt.trans_eq hm, hright.lt.trans_eq hm⟩
  · have hm' := NIdx.toNat_ofNat_of_lt (j := m) (by omega)
    have hout : (BitVec.ofNat 9 m : NIdx) ∉ w.live := fun hmem => by
      rw [live_of_hsize_one h1, List.mem_singleton] at hmem
      rw [← hmem, hm'] at hroot
      omega
    have hlater := hinv.later _ (by omega) hout
    have hparent := (hinv.forest.linked _ (by omega) hout).1
    exact ⟨hm'.symm.trans_lt hlater, by omega⟩
  · rw [nodesOf, ← State.ftn]
    omega
  · rw [nodesOf, ← State.ftn] at hm
    exact hinv.fresh m (by omega)

end Sys2Proof.Machine
end

section
/-! What the read commands answer (R96 to R98, R100), the code table over a session that builds nothing (R101), and the words of
the test vectors. -/

namespace Sys2Proof.Machine

/-! The data a host finds in a response (R54) -/

theorem Answers.rdata_eq {t : State} {st : BitVec 8} {d : Data} (h : Answers t st d) : (t.rspreg.getD 0).rdata = d := by
  rw [h, Option.getD_some, Rsp.rdata_make]

/-! The data word of `RDL` (R97) -/

theorem lengthWord_len (e : CtEntry) : (lengthWord e).extractLsb' 0 8 = e.len := by
  have hlen := Len.toNat_lt e.len
  refine BitVec.eq_of_toNat_eq ?_
  rw [BitVec.extractLsb'_toNat, Nat.shiftRight_zero, lengthWord_toNat]
  omega

theorem lengthWord_v (e : CtEntry) : (lengthWord e).getLsbD 8 = e.v := by
  have hlen := Len.toNat_lt e.len
  have hdiv : (e.v.toNat * 2 ^ 8 + e.len.toNat) / 2 ^ 8 = e.v.toNat := by omega
  rw [BitVec.getLsbD, lengthWord_toNat, Nat.testBit_eq_decide_div_mod_eq, hdiv]
  cases e.v <;> rfl

theorem lengthWord_lt (e : CtEntry) : (lengthWord e).toNat < 2 ^ 9 := by
  have hlen := Len.toNat_lt e.len
  have hv := Bool.toNat_lt e.v
  rw [lengthWord_toNat]
  omega

/-- The data of `RDL` for a symbol with no code is 0, where R17 (a) holds. -/
theorem lengthWord_of_absent {e : CtEntry} (h : e.Stored) (hv : e.v = false) : lengthWord e = 0 := by
  obtain ⟨hlen, -⟩ := h.1 hv
  refine BitVec.eq_of_toNat_eq ?_
  rw [lengthWord_toNat, hv, hlen]
  rfl

/-! The chunks of a stored code (R17 (b), R36, R100) -/

/-- The chunks 0 to `ceil(len / 32) - 1` of a code below `2^len`, put together. -/
theorem sum_chunks_of_lt {c : Code} {len : Nat} (hlen : len < 256) (hc : c.toNat < 2 ^ len) :
    ((List.range ((len + 31) / 32)).map (fun k => (codeChunk c (BitVec.ofNat 3 k)).toNat * 2 ^ (32 * k))).sum = c.toNat := by
  have hdigits : (List.range ((len + 31) / 32)).map (fun k => (codeChunk c (BitVec.ofNat 3 k)).toNat * 2 ^ (32 * k)) =
      (List.range ((len + 31) / 32)).map (fun k => c.toNat / 2 ^ (32 * k) % 2 ^ 32 * 2 ^ (32 * k)) :=
    List.map_congr_left fun k hk => by
      have hk' := List.mem_range.1 hk
      rw [codeChunk_toNat, ChunkIdx.toNat_ofNat k (by omega)]
  rw [hdigits, sum_digits_two_pow]
  exact Nat.mod_eq_of_lt (hc.trans_le (Nat.pow_le_pow_right two_pos (by omega)))

/-! What a read answers (R96 to R98, R100) -/

theorem rdata_after_rdl (s : State) (x : Sym) :
    ((s.after (.rdl x)).rspreg.getD 0).rdata = lengthWord (tableGet s.ct x) :=
  (CommandEnd.rdl x).after_eq ▸ Answers.rdata_eq rfl

theorem rdata_after_rdc {s : State} {x : Sym} (k : ChunkIdx) (hv : (tableGet s.ct x).v = true) :
    ((s.after (.rdc x k)).rspreg.getD 0).rdata = codeChunk (tableGet s.ct x).code k :=
  (CommandEnd.rdc x k hv).after_eq ▸ Answers.rdata_eq rfl

/-- Settles O30: the chunks read are the digits of the code in base `2^32`, and a code below `2^len` has no more of them. -/
theorem readsRecoverTheCode : Obligations.ReadsRecoverTheCode := by
  intro s x hstored hv
  obtain ⟨-, hcode⟩ := hstored x
  refine ⟨?_, ?_⟩
  · simp only [rdata_after_rdc _ hv]
    exact sum_chunks_of_lt (Len.toNat_lt _) hcode
  · rw [rdata_after_rdl, lengthWord_len, CtEntry.str, strOf_length]

/-- Settles O23: `RDF` only answers, and a `BUILD` of a non-empty table clears the counts. -/
theorem rdfAnswersTheCount : Obligations.RdfAnswersTheCount := by
  refine ⟨fun x s => ⟨_, (CommandEnd.rdf x).exec_eq, rfl, rfl, rfl, rfl, sameOutside_respond s _⟩, fun x s h0 => ?_⟩
  obtain ⟨T, hT⟩ := exists_buildTree (f := s.ft) h0
  have hzero : tableGet (s.after .build).ft x = 0 := by
    rw [(CommandEnd.build T hT).after_eq]
    exact tableGet_replicate 0 x
  rw [(CommandEnd.rdf x).after_eq, hzero]
  rfl

/-- Settles O24, field by field of R97. -/
theorem rdlAnswersLengthAndValid : Obligations.RdlAnswersLengthAndValid := by
  intro x s
  refine ⟨_, _, (CommandEnd.rdl x).exec_eq, rfl, lengthWord_len _, lengthWord_v _, lengthWord_lt _, rfl, rfl, rfl,
    sameOutside_respond s _, fun hv => ?_, fun hstored hv => lengthWord_of_absent (hstored x) hv⟩
  rw [lengthWord_toNat, hv]
  rfl

/-- Settles O25: with an entry `RDC` only answers the chunk, without one it only raises `E_NOENT`. -/
theorem rdcAnswersAChunk : Obligations.RdcAnswersAChunk := by
  intro x k s
  obtain ⟨-, -, -, hzero⟩ := chunksReassembleTheCode (tableGet s.ct x).code
  refine ⟨fun hv => ?_, fun hv => ?_⟩
  · exact ⟨_, _, (CommandEnd.rdc x k hv).exec_eq, rfl, codeChunk_getLsbD _ k, rfl, rfl, rfl, sameOutside_respond s _,
      fun hstored hk => hzero _ (hstored x).2 k hk⟩
  · exact ⟨_, (CommandEnd.rdcAbsent x k hv).exec_eq, rfl, rfl, rfl, rfl, sameOutside_raise s .noent⟩

/-! Sessions without `INIT` and `BUILD` (R25, R101) -/

/-- Only `INIT` and `BUILD` touch the code table (R15, R42). -/
theorem afterWord_ct {w : Cmd} (s : State) (hinit : decode w ≠ .ok .init) (hbuild : decode w ≠ .ok .build) :
    (s.afterWord w).ct = s.ct := by
  rcases commandEnd_of_runCommand (runCommand_eq_afterWord w s) with hill | ⟨i, hi, hend⟩
  · rw [hill, State.raise_ct]
  · rcases hend.ct_cases with hsame | ⟨rfl, -⟩ | ⟨rfl, -⟩
    · exact hsame
    · exact absurd hi hinit
    · exact absurd hi hbuild

/-- Settles O57, by induction on the words. -/
theorem codeTableIsRetained : Obligations.CodeTableIsRetained := by
  intro ws
  induction ws with
  | nil => exact fun _ _ => rfl
  | cons w ws ih =>
    intro s h
    obtain ⟨⟨hinit, hbuild⟩, hws⟩ := List.forall_mem_cons.1 h
    exact (ih (s.afterWord w) hws).trans (afterWord_ct s hinit hbuild)

/-! The words of the test vectors (V15, P4, R96) -/

/-- Settles O10: each legal word is its command's encoding. -/
theorem wordsOfTheTestVectorsDecode : Obligations.WordsOfTheTestVectorsDecode :=
  ⟨decode_encode .init, decode_encode .clrf, decode_encode (.setf 0x7A 0xFFFFFFFF), decode_encode (.incf 0x7A),
    decode_encode .build, decode_encode (.rdf 0x38), decode_encode (.rdf 0x41), decode_encode (.rdl 0x41),
    decode_encode (.rdc 0x38 7), decode_encode .rdst, by decide, by decide⟩

end Sys2Proof.Machine
end

section
/-! Errors (spec/60_exceptions.md): the only refusal of a step (R113), and the errors of a word, each by the test that raises
it (R105 to R109). -/

namespace Sys2Proof.Machine

/-! The only refusal (R57 (c), R113) -/

theorem State.handshakeBrokenBy_iff (s : State) (p : PortIn) :
    s.handshakeBrokenBy p = true ↔ ∃ c, s.held = some c ∧ (p.cmdValid = false ∨ p.cmd ≠ c) := by
  cases hheld : s.held <;> simp [State.handshakeBrokenBy, hheld]

/-- The next edge is outside reset, and the host breaks the handshake at it. -/
def State.BreaksNext (s : State) : Prop :=
  ∃ p rest c, s.inputs = p :: rest ∧ p.rst = false ∧ s.held = some c ∧ (p.cmdValid = false ∨ p.cmd ≠ c)

theorem State.breaksNext_iff {s : State} {p : PortIn} {rest : List PortIn} (hin : s.inputs = p :: rest) :
    s.BreaksNext ↔ p.rst = false ∧ s.handshakeBrokenBy p = true := by
  rw [State.handshakeBrokenBy_iff]
  constructor
  · rintro ⟨q, _, c, hq, hrst, hbroken⟩
    cases hin.symm.trans hq
    exact ⟨hrst, c, hbroken⟩
  · rintro ⟨hrst, c, hbroken⟩
    exact ⟨p, rest, c, hin, hrst, hbroken⟩

/-- A step is refused where the host breaks the handshake, and answers a next state everywhere else. -/
theorem step_refused_or_next (s : State) :
    (s.BreaksNext ∧ step s = .refused .handshakeBroken) ∨ (¬ s.BreaksNext ∧ ∃ t, step s = .next t) := by
  cases hin : s.inputs with
  | nil => exact .inr ⟨fun ⟨_, _, _, hcons, _⟩ => by simp [hin] at hcons, s, step_no_edge s hin⟩
  | cons p rest =>
    rw [State.breaksNext_iff hin, step_edge s p rest hin]
    rcases clockEdge_cases p { s with inputs := rest } with
      ⟨hrst, hedge⟩ | ⟨hrst, hbroken, hedge⟩ | ⟨-, hkept, -, -, hedge⟩ | ⟨-, hkept, -, hedge⟩
    · exact .inr ⟨by simp [hrst], _, hedge⟩
    · exact .inl ⟨⟨hrst, hbroken⟩, hedge⟩
    · rw [State.handshakeBrokenBy_inputs] at hkept
      exact .inr ⟨by simp [hkept], _, hedge.trans (runCommand_eq_afterWord _ _)⟩
    · rw [State.handshakeBrokenBy_inputs] at hkept
      exact .inr ⟨by simp [hkept], _, hedge⟩

/-- Settles O14: a broken handshake is refused, and every other edge leads to a next state. -/
theorem onlyABrokenHandshakeIsRefused : Obligations.OnlyABrokenHandshakeIsRefused := by
  intro s
  rcases step_refused_or_next s with ⟨hbreaks, hstep⟩ | ⟨hkeeps, t, hstep⟩ <;> rw [hstep]
  · refine ⟨nofun, fun r => ⟨fun h => ?_, fun ⟨hr, _⟩ => hr ▸ rfl⟩⟩
    exact ⟨(Host.Outcome.refused.inj h).symm, hbreaks⟩
  · exact ⟨nofun, fun r => ⟨nofun, fun ⟨_, h⟩ => absurd h hkeeps⟩⟩

/-! The errors of a word (R105, R108, R109) -/

theorem errStatus_ne_ok (e : ErrCode) : errStatus e ≠ statusOk := by
  cases e <;> decide

theorem errStatus_inj {e e' : ErrCode} : errStatus e = errStatus e' ↔ e = e' := by
  cases e <;> cases e' <;> decide

/-- The test that raises an error: on the word alone, or on a legal word and the tables (R105, R109). -/
def Raises (w : Cmd) (s : State) : ErrCode → Prop
  | .illegal => ∃ r, decode w = .error r
  | .empty => decode w = .ok .build ∧ buildTree s.ft = none
  | .cntovf => ∃ x, decode w = .ok (.incf x) ∧ tableGet s.ft x = Config.maxCount
  | .noent => ∃ x k, decode w = .ok (.rdc x k) ∧ (tableGet s.ct x).v = false

/-- The command has ended in an error: response, tables and flags are those of `raise` (R108). -/
structure EndsInError (s : State) (e : ErrCode) (t : State) : Prop where
  rspreg : t.rspreg = some (Rsp.make (errStatus e) 0)
  same : SameArchitecture t (s.raise e)

/-- The command has completed: it answers `OK` and has set no flag (R18, R55). -/
structure Completes (s t : State) : Prop where
  rspreg : ∃ d, t.rspreg = some (Rsp.make statusOk d)
  flag : ∀ e, t.err.flag e = true → s.err.flag e = true

theorem endsInError_raise (s : State) (e : ErrCode) : EndsInError s e (s.raise e) := ⟨rfl, rfl, rfl, rfl⟩

section
variable {w : Cmd} {s t : State} {e : ErrCode}

/-- A word whose test for an error holds ends in that error. -/
theorem Raises.endsInError (h : Raises w s e) : ∃ t, runCommand w s = .next t ∧ EndsInError s e t := by
  cases e with
  | illegal =>
    obtain ⟨r, hr⟩ := h
    exact ⟨_, runCommand_error w s r hr, endsInError_raise s _⟩
  | empty =>
    obtain ⟨hi, hnone⟩ := h
    exact ⟨_, (runCommand_ok w s _ hi).trans (CommandEnd.buildEmpty hnone).exec_eq, rfl, rfl, rfl, rfl⟩
  | cntovf =>
    obtain ⟨x, hi, hmax⟩ := h
    exact ⟨_, (runCommand_ok w s _ hi).trans (CommandEnd.incfOverflow x hmax).exec_eq, endsInError_raise s _⟩
  | noent =>
    obtain ⟨x, k, hi, habsent⟩ := h
    exact ⟨_, (runCommand_ok w s _ hi).trans (CommandEnd.rdcAbsent x k habsent).exec_eq, endsInError_raise s _⟩

/-- No test reads the flags, so the tables decide which error a word raises (R107). -/
theorem Raises.congr (h : Raises w s e) (hft : t.ft = s.ft) (hct : t.ct = s.ct) : Raises w t e := by
  cases e <;> simpa only [Raises, hft, hct] using h

theorem CommandEnd.completes_or_raises {i : Instr} (h : CommandEnd s i t) (hi : decode w = .ok i) :
    Completes s t ∨ ∃ e, Raises w s e := by
  cases h
  case buildEmpty hnone => exact .inr ⟨.empty, hi, hnone⟩
  case incfOverflow x hmax => exact .inr ⟨.cntovf, x, hi, hmax⟩
  case rdcAbsent x k habsent => exact .inr ⟨.noent, x, k, hi, habsent⟩
  case init => exact .inl ⟨⟨_, rfl⟩, fun e he => by cases e <;> cases he⟩
  all_goals exact .inl ⟨⟨_, rfl⟩, fun _ => id⟩

/-- A word completes, or the test of an error holds and it ends in that error. -/
theorem completes_or_endsInError (h : runCommand w s = .next t) :
    Completes s t ∨ ∃ e, Raises w s e ∧ EndsInError s e t := by
  have hends : (∃ e, Raises w s e) → ∃ e, Raises w s e ∧ EndsInError s e t := fun ⟨e, he⟩ => by
    obtain ⟨u, hu, hend⟩ := he.endsInError
    cases h.symm.trans hu
    exact ⟨e, he, hend⟩
  cases hd : decode w with
  | error r => exact .inr (hends ⟨.illegal, r, hd⟩)
  | ok i => exact ((exec_eq_next.1 (runCommand_ok w s i hd ▸ h)).completes_or_raises hd).imp_right hends

/-- An answer with an error status comes from the end in an error. -/
theorem exists_endsInError_of_status {r : Rsp} (h : runCommand w s = .next t) (hr : t.rspreg = some r)
    (hst : r.status ≠ 0x00) : ∃ e, Raises w s e ∧ EndsInError s e t ∧ r = Rsp.make (errStatus e) 0 := by
  rcases completes_or_endsInError h with ⟨⟨d, hd⟩, -⟩ | ⟨e, he, hend⟩
  · cases hr.symm.trans hd
    exact absurd (Rsp.status_make statusOk d) hst
  · exact ⟨e, he, hend, Option.some.inj (hr.symm.trans hend.rspreg)⟩

/-- An answer with the status of an error says that the test of this error holds (R109). -/
theorem raises_of_answers (h : runCommand w s = .next t) (hr : Answers t (errStatus e) 0) : Raises w s e := by
  have hst : (Rsp.make (errStatus e) 0).status ≠ 0x00 := by
    rw [Rsp.status_make]
    exact errStatus_ne_ok e
  obtain ⟨e', he', -, hmake⟩ := exists_endsInError_of_status h hr hst
  exact errStatus_inj.1 ((Rsp.make_inj _ _ _ _).1 hmake).1 ▸ he'

/-- The error's flag is set and the others are as they were (R108). -/
theorem EndsInError.flag_eq (h : EndsInError s e t) (e' : ErrCode) :
    t.err.flag e' = (decide (e' = e) || s.err.flag e') := by
  obtain ⟨-, -, -, herr⟩ := h
  rw [herr, State.raise_err, ErrFlags.flag_setFlag]

/-- A second end in the same error changes nothing more (R107). -/
theorem EndsInError.sameArchitecture_again {u : State} (h : EndsInError s e t) (h' : EndsInError t e u) :
    SameArchitecture t u := by
  obtain ⟨-, -, -, herr⟩ := h
  obtain ⟨-, hft, hct, herr'⟩ := h'
  refine ⟨hft.symm, hct.symm, ?_⟩
  rw [herr', State.raise_err, herr, State.raise_err, ErrFlags.setFlag_setFlag]

end

/-- Settles O52: a word that does not complete changes only what `raise` changes. -/
theorem errorsArePrecise : Obligations.ErrorsArePrecise := by
  intro w s t r h hr
  refine ⟨fun hst => ?_, fun hst => ?_⟩
  · obtain ⟨e, -, hend, hmake⟩ := exists_endsInError_of_status h hr hst
    obtain ⟨hft, hct, -⟩ := hend.same
    exact ⟨e, hmake, hft, hct, by simp [hend.flag_eq], fun e' hne => by simp [hend.flag_eq, hne]⟩
  · rcases completes_or_endsInError h with hcomp | ⟨e, -, hend⟩
    · exact hcomp.flag
    · cases hr.symm.trans hend.rspreg
      rw [Rsp.status_make] at hst
      exact absurd hst (errStatus_ne_ok e)

/-- Settles O53: an illegal word is `raise E_ILLEGAL`, and the test of every other error asks for its command's legal word. -/
theorem decodeCheckComesFirst : Obligations.DecodeCheckComesFirst := by
  refine ⟨fun w s ⟨e, he⟩ => ?_, fun w hw => ?_, fun w s t h => ⟨fun hr => ?_, fun hr => ?_, fun hr => ?_⟩⟩
  · exact ⟨_, runCommand_error w s e he, rfl, rfl, rfl, rfl, sameOutside_raise s .illegal⟩
  · rw [decode_eq_error]
    rcases hw with ⟨hop, hreserved⟩ | ⟨hop, hreserved⟩ | hreserved
    · exact .inr (.inl ⟨by simp [hop], hreserved⟩)
    · exact .inr (.inr (.inl ⟨by simp [hop], hreserved⟩))
    · exact .inr (.inr (.inr hreserved))
  · obtain ⟨hi, -⟩ := raises_of_answers (e := .empty) h hr
    exact hi
  · obtain ⟨x, hi, -⟩ := raises_of_answers (e := .cntovf) h hr
    exact ⟨x, hi⟩
  · obtain ⟨x, k, hi, -⟩ := raises_of_answers (e := .noent) h hr
    exact ⟨x, k, hi⟩

/-- Settles O58: the tables are unchanged, so the same test holds again, and its flag is set already. -/
theorem repeatedErrorsAreTheSame : Obligations.RepeatedErrorsAreTheSame := by
  intro w s t r h hr hst
  obtain ⟨e, he, hend, rfl⟩ := exists_endsInError_of_status h hr hst
  obtain ⟨hft, hct, -⟩ := hend.same
  obtain ⟨u, hu, hend'⟩ := (he.congr hft hct).endsInError
  exact ⟨u, hu, hend'.rspreg, hend.sameArchitecture_again hend'⟩

end Sys2Proof.Machine
end

section
/-! Hardware reset (R125 to R127): the pins while `rst = 1`, and the one state an edge with `rst = 1` ends in, whatever the
block was doing. -/

namespace Sys2Proof.Machine

/-- R125: the output pins while `rst = 1`. -/
@[simp] theorem State.pins_true (s : State) : s.pins true = ⟨false, none, false⟩ := rfl

/-- R56, R57 (b): the output pins outside reset. -/
@[simp] theorem State.pins_false (s : State) : s.pins false = ⟨!s.busy, s.rspreg, s.busy⟩ := rfl

/-- A block after hardware reset is ready, with no response waiting (log entry 1). -/
theorem State.pins_hardReset (s : State) : s.hardReset.pins false = ⟨true, none, false⟩ := by
  simp

/-- Hardware reset leaves the tables and flags of the state at reset (R24, R125). -/
theorem State.sameArchitecture_hardReset (s : State) : SameArchitecture s.hardReset State.reset :=
  ⟨rfl, rfl, rfl⟩

section
variable {s : State} {p : PortIn} {rest : List PortIn}

/-- An edge with `rst = 1` resets from every state: neither the handshake nor a waiting response is looked at (R125, R127). -/
theorem clockEdge_of_rst (hrst : p.rst = true) : clockEdge p s = .next s.hardReset := by
  simp [clockEdge, hrst]

theorem step_of_rst (hin : s.inputs = p :: rest) (hrst : p.rst = true) :
    step s = .next (State.hardReset { s with inputs := rest }) :=
  (step_edge s p rest hin).trans (clockEdge_of_rst hrst)

/-- R125: no command is accepted at an edge with `rst = 1`. -/
theorem State.accepts_of_rst (hin : s.inputs = p :: rest) (hrst : p.rst = true) : s.accepts = false := by
  simp [State.accepts, hin, hrst]

end

/-- Settles O15: the edge ends in the state of hardware reset, whose tables hold R24's values. -/
theorem hardwareResetFromAnyState : Obligations.HardwareResetFromAnyState := by
  intro s p rest hin hrst
  refine ⟨?_, State.accepts_of_rst hin hrst, _, step_of_rst hin hrst, ?_, ?_, rfl, rfl, rfl, rfl, rfl⟩
  · rw [hrst, State.pins_true]
  · exact tableGet_replicate 0
  · exact tableGet_replicate CtEntry.absent

/-- Settles O59: the same state of hardware reset, in which the response that waited is neither taken nor waiting. -/
theorem resetAbandonsTheCommandInFlight : Obligations.ResetAbandonsTheCommandInFlight := by
  intro s p rest r hin hrst _ _
  exact ⟨_, step_of_rst hin hrst, rfl, State.pins_hardReset _, State.sameArchitecture_hardReset _, rfl, rfl, rfl⟩

end Sys2Proof.Machine
end
